-- ==== Sys2Proof/Word.lean ====
section
/-! DEFINITION. The word types of the block (`00_scope.md` R5, R6): bytes of the stream and of foreign memory,
16-bit fields, and the 32-bit words of registers, addresses, counters and operands. -/

namespace Sys2Proof

/-- One byte, 8 bits, bit 0 the least significant (R6). -/
abbrev Byte := BitVec 8

/-- A 16-bit field of the encoding (R104). -/
abbrev HalfWord := BitVec 16

/-- A 32-bit word: registers, foreign addresses, `pc`, `rem`, counters (`IREG_W`, `FREG_W`, `ADDR_W`, `DELAY_W`,
`COUNT_W` of R5). -/
abbrev Word := BitVec 32

end Sys2Proof
end

