-- ==== Sys2Proof/Syntax.lean ====
section
/-! DEFINITION. The instructions of the code-line ISA: one constructor of `Instr` per row of
`spec/opcode_table.json` (`30_encoding.md` R97, R98, `45_registers_arith.md` R251), and the 32 opcodes. Fields
marked `--` in R98 (ignored, R95) are not part of an instruction. -/

namespace Sys2Proof

/-- A register index, 0..7 (R21, R22). -/
abbrev Reg := Fin 8

/-- Pointer mode `P` (R93): whether the address operand is absolute or relative to `loaded_pointer`. -/
inductive PointerMode where
  | noPointer
  | pointer
deriving DecidableEq, Repr

/-- Value size `Sz` (R94): 1, 2 or 4 bytes. -/
inductive ValueSize where
  | byte
  | half
  | word
deriving DecidableEq, Repr

/-- The closed enumeration of 32 opcodes, by their rows in R97. -/
inductive Opcode where
  | ramwrite | strwrite | skipwrite
  | ifeq | ifne | ifgt | iflt | ifge | ifle | ifand | ifor | ifbetween
  | timedep | resettimer
  | ldi | sti | ldf | stf
  | integerOperation | floatOperation
  | fill
  | ldptr | addptr | ldptrd
  | search
  | execasm | syscall
  | term | nop | timerterm
  | corrupt | call
deriving DecidableEq, Repr

/-- One instruction with its operands. The names of the constructors are the mnemonics of R105. -/
inductive Instr where
  /-- RamWrite (R191). -/
  | ramwrite (p : PointerMode) (sz : ValueSize) (addr value : Word)
  /-- StringWrite (R192); `N` is the length of `data`. -/
  | strwrite (p : PointerMode) (addr : Word) (data : List Byte)
  /-- SkipWrite (R193). -/
  | skipwrite (p : PointerMode) (sz : ValueSize) (count : HalfWord) (addr value stride incr : Word)
  /-- IfEqual (R213). -/
  | ifeq (p : PointerMode) (sz : ValueSize) (addr value : Word)
  /-- IfNotEqual (R214). -/
  | ifne (p : PointerMode) (sz : ValueSize) (addr value : Word)
  /-- IfGreater (R215). -/
  | ifgt (p : PointerMode) (sz : ValueSize) (addr value : Word)
  /-- IfLess (R216). -/
  | iflt (p : PointerMode) (sz : ValueSize) (addr value : Word)
  /-- IfGreaterOrEqual (R217). -/
  | ifge (p : PointerMode) (sz : ValueSize) (addr value : Word)
  /-- IfLessOrEqual (R218). -/
  | ifle (p : PointerMode) (sz : ValueSize) (addr value : Word)
  /-- And (R219). -/
  | ifand (p : PointerMode) (sz : ValueSize) (addr value : Word)
  /-- Or (R220). -/
  | ifor (p : PointerMode) (sz : ValueSize) (addr value : Word)
  /-- IfValueBetween (R221), both bounds exclusive. -/
  | ifbetween (p : PointerMode) (sz : ValueSize) (addr lower upper : Word)
  /-- AddTimeDependence (R231). -/
  | timedep (delay : Word)
  /-- ResetTimer (R232). -/
  | resettimer
  /-- LoadInteger (R247). -/
  | ldi (p : PointerMode) (sz : ValueSize) (r : Reg) (addr : Word)
  /-- StoreInteger (R248). -/
  | sti (p : PointerMode) (sz : ValueSize) (r : Reg) (addr : Word)
  /-- LoadFloat (R249). -/
  | ldf (p : PointerMode) (r : Reg) (addr : Word)
  /-- StoreFloat (R250). -/
  | stf (p : PointerMode) (r : Reg) (addr : Word)
  /-- IntegerOperation `T = 0` (R254). -/
  | iadd (d r : Reg)
  /-- IntegerOperation `T = 1` (R255). -/
  | isub (d r : Reg)
  /-- IntegerOperation `T = 2` (R256). -/
  | imul (d r : Reg)
  /-- IntegerOperation `T = 3` (R257). -/
  | idiv (d r : Reg)
  /-- IntegerOperation `T = 4` (R258). -/
  | iaddi (d : Reg) (value : Word)
  /-- IntegerOperation `T = 5` (R259). -/
  | isubi (d : Reg) (value : Word)
  /-- IntegerOperation `T = 6` (R260). -/
  | imuli (d : Reg) (value : Word)
  /-- IntegerOperation `T = 7` (R261). -/
  | idivi (d : Reg) (value : Word)
  /-- FloatOperation `T = 0` (R262). -/
  | fadd (d r : Reg)
  /-- FloatOperation `T = 1` (R263). -/
  | fsub (d r : Reg)
  /-- FloatOperation `T = 2` (R264). -/
  | fmul (d r : Reg)
  /-- FloatOperation `T = 3` (R265). -/
  | fdiv (d r : Reg)
  /-- FloatOperation `T = 4` (R266). -/
  | faddi (d : Reg) (value : Word)
  /-- FloatOperation `T = 5` (R267). -/
  | fsubi (d : Reg) (value : Word)
  /-- FloatOperation `T = 6` (R268). -/
  | fmuli (d : Reg) (value : Word)
  /-- FloatOperation `T = 7` (R269). -/
  | fdivi (d : Reg) (value : Word)
  /-- FloatOperation `T = 8` (R270): `d` an integer register, `r` a float register. -/
  | f2i (d r : Reg)
  /-- FillMemoryArea (R194). -/
  | fill (p : PointerMode) (addr value span : Word)
  /-- LoadPointer (R281), both bounds inclusive. -/
  | ldptr (p : PointerMode) (addr lower upper : Word)
  /-- AddOffsetToPointer (R283). -/
  | addptr (offset : Word)
  /-- LoadPointerDirectly (R282). -/
  | ldptrd (addr : Word)
  /-- SearchTemplate (R305); `TLEN` is the length of `template`. -/
  | search (index startHi endHi : HalfWord) (template : List Byte)
  /-- ExecuteAssembly (R291); `payload` is `8 * NL` bytes. -/
  | execasm (payload : List Byte)
  /-- PerformSystemCall (R292). -/
  | syscall (code : HalfWord)
  /-- Terminator (R233). -/
  | term
  /-- NoOperation (R234). -/
  | nop
  /-- TimerTermination (R235). -/
  | timerterm
  /-- Corrupter (R195): `first` is `BEGIN`, `limit` is `END`. -/
  | corrupt (first limit find repl : Word)
  /-- ProcedureCall (R293); `ARGC` is the length of `args`. -/
  | call (rlo rhi : Reg) (target : Word) (args : List Word)
deriving DecidableEq, Repr

end Sys2Proof
end

