-- ==== Sys2Proof/Config.lean ====
section
/-! DEFINITION. What an implementation fixes (`00_scope.md` R5) and the values the spec leaves open
(`93_implementation_defined.md` part 1). An open value is an opaque constant: nothing in Lean can evaluate it, so
every statement holds whatever it is. The parameters a run can be set up with are the plain data `Parameters`. -/

namespace Sys2Proof

/-- The four float operations, as arguments of the free NaN choice (R271). -/
inductive FloatOp where
  | add | sub | mul | div
deriving DecidableEq, Repr

/-- The kinds of `ordered_cmp` (R222). -/
inductive OrderKind where
  | gt | lt | ge | le
deriving DecidableEq, Repr

/-- `int_div_zero` (R253, U1): the result of an integer division by zero, a function of the dividend alone.
DESIGN CHOICE log 4, safe. -/
opaque Config.intDivZero : Word → Word

/-- The sign (bit 22) and the 22 payload bits of the quiet NaN a float operation returns where IEEE-754 returns a
NaN (R271, U2), a function of the operation and its operands. DESIGN CHOICE log 5, safe. -/
opaque Config.nanChoice : FloatOp → Word → Word → BitVec 23

/-- `f2i_invalid` (R270, U3): the conversion of a NaN, an infinity or a value out of range. DESIGN CHOICE
log 6, safe. -/
opaque Config.f2iInvalid : Word → Word

/-- `ordered_cmp` of the original hardware (R222, U4), used when `Parameters.ordered` is `.original`: it depends on
the kind, the operands and the value size alone. DESIGN CHOICE log 3, safe. -/
opaque Config.orderedCmp : OrderKind → ValueSize → Word → Word → Bool

/-- `DRY_SENTINEL` (R75, U5): what a disabled memory port answers; no instruction observes it. DESIGN CHOICE
log 7, safe. -/
opaque Config.drySentinel : Word

/-- The answer of the collaborator to the n-th free draw, for a foreign read (R62, U7). DESIGN CHOICE log 10,
safe. -/
opaque Config.foreignRead : Nat → Word

/-- The 64-bit return of a foreign call at the n-th free draw (R290, U7). DESIGN CHOICE log 11, safe. -/
opaque Config.foreignReturn : Nat → BitVec 64

/-- The whole content of foreign memory after a call at the n-th free draw (R294, U7). DESIGN CHOICE log 11, safe. -/
opaque Config.foreignMemory : Nat → List (Word × Byte)

/-- The stream byte at an index that nothing has written (R34, U11). DESIGN CHOICE log 14, safe. -/
opaque Config.streamUnwritten : Nat → Byte

/-- The 28 opcode values that the source does not fix (R97, D4); the other four are constants of `OpcodeMap.value`. -/
structure OpcodeMap where
  strwrite : Byte
  skipwrite : Byte
  ifeq : Byte
  ifne : Byte
  ifgt : Byte
  iflt : Byte
  ifge : Byte
  ifle : Byte
  ifand : Byte
  ifor : Byte
  ifbetween : Byte
  timedep : Byte
  ldi : Byte
  sti : Byte
  ldf : Byte
  stf : Byte
  integerOperation : Byte
  floatOperation : Byte
  fill : Byte
  ldptr : Byte
  addptr : Byte
  ldptrd : Byte
  search : Byte
  execasm : Byte
  syscall : Byte
  nop : Byte
  timerterm : Byte
  corrupt : Byte
deriving DecidableEq, Repr

/-- How the four ordered conditionals compare (R222): the default of the spec or the original hardware's unknown
function. -/
inductive OrderedCompare where
  | unsigned
  | original
deriving DecidableEq, Repr

/-- The OPEN parameters of R5 that are plain data. `streamLines` is `STREAM_MAX / 8`: 28 bits hold exactly the legal
capacities, the multiples of 8 up to 2^31 - 8. -/
structure Parameters where
  opc : OpcodeMap
  streamLines : BitVec 28
  ordered : OrderedCompare
deriving DecidableEq, Repr

end Sys2Proof
end

