-- ==== Sys2Proof/WellFormed.lean ====
section
/-! DEFINITION. Which terms of `Instr` an encoding can hold: the counts that R98 stores in 8 or 16 bits, the whole
payload lines of ExecuteAssembly (R291) and the argument count of ProcedureCall (R102). Register indices, pointer
modes and value sizes are right by their types. -/

namespace Sys2Proof

/-- The checks of the four instructions of variable length; every other term is well formed. -/
def Instr.wellFormed : Instr → Bool
  | .strwrite _ _ data => data.length < 65536
  | .execasm payload => payload.length % 8 == 0 && payload.length < 8 * 65536
  | .search _ _ _ template => template.length < 256
  | .call _ _ _ args => args.length ≤ 8
  | .ramwrite .. | .skipwrite .. | .ifeq .. | .ifne .. | .ifgt .. | .iflt .. | .ifge .. | .ifle .. | .ifand ..
  | .ifor .. | .ifbetween .. | .timedep .. | .resettimer | .ldi .. | .sti .. | .ldf .. | .stf .. | .iadd ..
  | .isub .. | .imul .. | .idiv .. | .iaddi .. | .isubi .. | .imuli .. | .idivi .. | .fadd .. | .fsub ..
  | .fmul .. | .fdiv .. | .faddi .. | .fsubi .. | .fmuli .. | .fdivi .. | .f2i .. | .fill .. | .ldptr ..
  | .addptr .. | .ldptrd .. | .syscall .. | .term | .nop | .timerterm | .corrupt .. => true

end Sys2Proof
end

