-- ==== Sys2Proof/Decode.lean ====
section
/-! DEFINITION. The byte-order converter, the bit-field extractor, the opcode map, the decoder and the encoder
(`30_encoding.md`, `40_decode_units.md`). The decoder reads the logical stream from the cursor to its end, answers
the instruction or the fatal error R168 names first, and is total on any bytes. -/

namespace Sys2Proof

/-! ## byte_order_converter (R130 to R134) -/

/-- `read_u16` (R131): the byte at the lower index is the more significant. -/
def readU16 (b0 b1 : Byte) : HalfWord := b0 ++ b1

/-- `read_u32` (R132): the byte at the lowest index is the most significant. -/
def readU32 (b0 b1 b2 b3 : Byte) : Word := b0 ++ b1 ++ b2 ++ b3

/-- `be16_bytes` (R133). -/
def be16Bytes (x : HalfWord) : List Byte := [x.extractLsb' 8 8, x.extractLsb' 0 8]

/-- `be32_bytes` (R133). -/
def be32Bytes (x : Word) : List Byte :=
  [x.extractLsb' 24 8, x.extractLsb' 16 8, x.extractLsb' 8 8, x.extractLsb' 0 8]

/-- A byte order: of the host datapath (R134) and of the reference foreign memory (R63). -/
inductive ByteOrder where
  | be
  | le
deriving DecidableEq, Repr

/-- The native 32-bit word the four fetched bytes form in a datapath of the given order (R134). -/
def nativeWord (host : ByteOrder) (b0 b1 b2 b3 : Byte) : Word :=
  match host with
  | .be => b0 ++ b1 ++ b2 ++ b3
  | .le => b3 ++ b2 ++ b1 ++ b0

/-- `bswap32` (R134). -/
def bswap32 (w : Word) : Word :=
  w.extractLsb' 0 8 ++ w.extractLsb' 8 8 ++ w.extractLsb' 16 8 ++ w.extractLsb' 24 8

/-- The converter as a byte-lane multiplexer in front of the datapath (R134). -/
def convertU32 (host : ByteOrder) (b0 b1 b2 b3 : Byte) : Word :=
  match host with
  | .be => nativeWord .be b0 b1 b2 b3
  | .le => bswap32 (nativeWord .le b0 b1 b2 b3)

/-- The 16-bit converter: the two bytes are exchanged on a little-endian host (R134). -/
def convertU16 (host : ByteOrder) (b0 b1 : Byte) : HalfWord :=
  match host with
  | .be => b0 ++ b1
  | .le =>
    let raw : HalfWord := b1 ++ b0
    raw.extractLsb' 0 8 ++ raw.extractLsb' 8 8

/-! ## bit_field_extractor (R135 to R137) -/

/-- The upper nibble of a byte (R135). -/
def hi4 (b : Byte) : BitVec 4 := b.extractLsb' 4 4

/-- The lower nibble of a byte (R135). -/
def lo4 (b : Byte) : BitVec 4 := b.extractLsb' 0 4

/-- The bytes a value size selects (R94, R137). -/
def ValueSize.bytes : ValueSize → Nat
  | .byte => 1
  | .half => 2
  | .word => 4

/-- Why an instruction is rejected (R102): each is a fatal error with its own code and info (R320). -/
inductive DecodeError where
  /-- byte 0 is no opcode (R323) -/
  | unknownOpcode (op : Byte)
  /-- the upper nibble of byte 1 is above 1 where `P` is used (R328) -/
  | badPointerMode (p : BitVec 4)
  /-- the lower nibble of byte 1 is above 2 where `Sz` is used (R329) -/
  | badValueSize (sz : BitVec 4)
  /-- the sub-opcode of an arithmetic instruction is reserved (R330) -/
  | badSubopcode (t : Byte)
  /-- an examined register index is above 7 (R326) -/
  | registerRange (r : Byte)
  /-- the argument count is above 8 (R327) -/
  | argcountRange (n : Byte)
  /-- the instruction is longer than the remaining stream (R322) -/
  | truncated (n : Nat)
deriving DecidableEq, Repr

/-- `decode_pointer_mode` (R136). -/
def decodePointerMode (b : Byte) : Except DecodeError PointerMode :=
  match (hi4 b).toNat with
  | 0 => .ok .noPointer
  | 1 => .ok .pointer
  | _ => .error (.badPointerMode (hi4 b))

/-- `decode_value_size` (R137). -/
def decodeValueSize (b : Byte) : Except DecodeError ValueSize :=
  match (lo4 b).toNat with
  | 0 => .ok .byte
  | 1 => .ok .half
  | 2 => .ok .word
  | _ => .error (.badValueSize (lo4 b))

/-- A register index: a whole byte, never masked (R246, R326). -/
def decodeRegister (b : Byte) : Except DecodeError Reg :=
  if h : b.toNat < 8 then .ok ⟨b.toNat, h⟩ else .error (.registerRange b)

/-! ## The opcode map (R97) -/

/-- All 32 opcodes, in the order of R97's table. -/
def Opcode.all : List Opcode :=
  [.ramwrite, .strwrite, .skipwrite, .ifeq, .ifne, .ifgt, .iflt, .ifge, .ifle, .ifand, .ifor, .ifbetween,
   .timedep, .resettimer, .ldi, .sti, .ldf, .stf, .integerOperation, .floatOperation, .fill, .ldptr, .addptr,
   .ldptrd, .search, .execasm, .syscall, .term, .nop, .timerterm, .corrupt, .call]

/-- The defaults of R97. Marked PRESUMED in log 1: all but the four values of the source. -/
def OpcodeMap.default : OpcodeMap where
  strwrite := 0x01
  skipwrite := 0x02
  ifeq := 0x03
  ifne := 0x04
  ifgt := 0x05
  iflt := 0x06
  ifge := 0x07
  ifle := 0x08
  ifand := 0x09
  ifor := 0x0A
  ifbetween := 0x0B
  timedep := 0x0C
  ldi := 0x10
  sti := 0x11
  ldf := 0x12
  stf := 0x13
  integerOperation := 0x14
  floatOperation := 0x15
  fill := 0x20
  ldptr := 0x30
  addptr := 0x31
  ldptrd := 0x32
  search := 0xA8
  execasm := 0xC0
  syscall := 0xC1
  nop := 0xD1
  timerterm := 0xD2
  corrupt := 0xF0

/-- The byte value of an opcode (R97): the four the source fixes are constants. -/
def OpcodeMap.value (m : OpcodeMap) : Opcode → Byte
  | .ramwrite => 0x00
  | .resettimer => 0x0D
  | .term => 0xD0
  | .call => 0xF8
  | .strwrite => m.strwrite
  | .skipwrite => m.skipwrite
  | .ifeq => m.ifeq
  | .ifne => m.ifne
  | .ifgt => m.ifgt
  | .iflt => m.iflt
  | .ifge => m.ifge
  | .ifle => m.ifle
  | .ifand => m.ifand
  | .ifor => m.ifor
  | .ifbetween => m.ifbetween
  | .timedep => m.timedep
  | .ldi => m.ldi
  | .sti => m.sti
  | .ldf => m.ldf
  | .stf => m.stf
  | .integerOperation => m.integerOperation
  | .floatOperation => m.floatOperation
  | .fill => m.fill
  | .ldptr => m.ldptr
  | .addptr => m.addptr
  | .ldptrd => m.ldptrd
  | .search => m.search
  | .execasm => m.execasm
  | .syscall => m.syscall
  | .nop => m.nop
  | .timerterm => m.timerterm
  | .corrupt => m.corrupt

/-- A legal `OPC`: pairwise distinct values (R97). -/
abbrev OpcodeMap.legal (m : OpcodeMap) : Prop := (Opcode.all.map m.value).Nodup

/-- Opcode lookup by byte 0 alone (R165). -/
def OpcodeMap.lookup (m : OpcodeMap) (b : Byte) : Option Opcode :=
  Opcode.all.find? fun o => m.value o == b

/-! ## Lines, lengths (R90, R99, R100) -/

/-- The first 8 bytes of an instruction (R90). -/
structure Line where
  b0 : Byte
  b1 : Byte
  b2 : Byte
  b3 : Byte
  b4 : Byte
  b5 : Byte
  b6 : Byte
  b7 : Byte
deriving DecidableEq, Repr

/-- `U16(2)`: the field `AUX` of the common header (R91). -/
def Line.aux (l : Line) : HalfWord := readU16 l.b2 l.b3

/-- `U32(4)`: the address `A` (R140) or the 32-bit operand of formats ARITH, IMM, COR and CALL (R98). -/
def Line.operand (l : Line) : Word := readU32 l.b4 l.b5 l.b6 l.b7

/-- `8 * ceil(n / 8)`: `n` bytes padded to whole lines (R98, R305). -/
def padded (n : Nat) : Nat := 8 * ((n + 7) / 8)

/-- The bytes `argc` arguments take, an odd count padded by one slot (R98 format CALL). -/
def argBytes (argc : Nat) : Nat := 4 * (argc + argc % 2)

/-- The length in bytes that the first line determines (R99, R100); of a SearchTemplate its occupied size. -/
def lengthOf (op : Opcode) (l : Line) : Nat :=
  match op with
  | .ramwrite | .ifeq | .ifne | .ifgt | .iflt | .ifge | .ifle | .ifand | .ifor | .ifbetween | .fill | .ldptr => 16
  | .skipwrite | .corrupt => 24
  | .ldi | .sti | .ldf | .stf | .integerOperation | .floatOperation | .timedep | .resettimer | .addptr | .ldptrd
  | .syscall | .term | .nop | .timerterm => 8
  | .strwrite => 8 + padded l.aux.toNat
  | .execasm => 8 + 8 * l.aux.toNat
  | .search => 8 + padded l.b3.toNat
  | .call => 8 + argBytes l.b3.toNat

/-- The length in bytes of an instruction (R99); of a SearchTemplate its occupied size (R305). -/
def Instr.length : Instr → Nat
  | .ramwrite .. | .ifeq .. | .ifne .. | .ifgt .. | .iflt .. | .ifge .. | .ifle .. | .ifand .. | .ifor ..
  | .ifbetween .. | .fill .. | .ldptr .. => 16
  | .skipwrite .. | .corrupt .. => 24
  | .ldi .. | .sti .. | .ldf .. | .stf .. | .iadd .. | .isub .. | .imul .. | .idiv .. | .iaddi .. | .isubi ..
  | .imuli .. | .idivi .. | .fadd .. | .fsub .. | .fmul .. | .fdiv .. | .faddi .. | .fsubi .. | .fmuli ..
  | .fdivi .. | .f2i .. | .timedep .. | .resettimer | .addptr .. | .ldptrd .. | .syscall .. | .term | .nop
  | .timerterm => 8
  | .strwrite _ _ data => 8 + padded data.length
  | .execasm payload => 8 + payload.length
  | .search _ _ _ template => 8 + padded template.length
  | .call _ _ _ args => 8 + argBytes args.length

/-! ## The decoder -/

/-- The 32-bit word at offset `k` of the bytes after the first line. -/
def wordAt (bs : List Byte) (k : Nat) : Word :=
  readU32 (bs.getD k 0) (bs.getD (k + 1) 0) (bs.getD (k + 2) 0) (bs.getD (k + 3) 0)

/-- The first `n` 32-bit words of a byte list (the arguments of a call, R293). -/
def takeWords : Nat → List Byte → List Word
  | n + 1, b0 :: b1 :: b2 :: b3 :: bs => readU32 b0 b1 b2 b3 :: takeWords n bs
  | _, _ => []

/-- The length check (R166): the whole instruction lies inside the logical stream. -/
def checkLength (op : Opcode) (l : Line) (rest : List Byte) : Except DecodeError Unit :=
  if lengthOf op l > 8 + rest.length then .error (.truncated (lengthOf op l)) else .ok ()

/-- Format OPD with both `P` and `Sz` used (R98, R142): pointer mode, size, address, `V`, `W`. -/
def decodeOperand (op : Opcode) (l : Line) (rest : List Byte)
    (mk : PointerMode → ValueSize → Word → Word → Word → Instr) : Except DecodeError Instr := do
  let p ← decodePointerMode l.b1
  let sz ← decodeValueSize l.b1
  checkLength op l rest
  return mk p sz l.operand (wordAt rest 0) (wordAt rest 4)

/-- Format OPD with `P` alone (FillMemoryArea, LoadPointer; `Sz` is ignored, R139). -/
def decodeFixedOperand (op : Opcode) (l : Line) (rest : List Byte)
    (mk : PointerMode → Word → Word → Word → Instr) : Except DecodeError Instr := do
  let p ← decodePointerMode l.b1
  checkLength op l rest
  return mk p l.operand (wordAt rest 0) (wordAt rest 4)

/-- Format REG with `P` and `Sz` (LoadInteger, StoreInteger, R245). -/
def decodeIntegerTransfer (l : Line) (mk : PointerMode → ValueSize → Reg → Word → Instr) :
    Except DecodeError Instr := do
  let p ← decodePointerMode l.b1
  let sz ← decodeValueSize l.b1
  let r ← decodeRegister l.b3
  return mk p sz r l.operand

/-- Format REG with `P` alone (LoadFloat, StoreFloat, R245). -/
def decodeFloatTransfer (l : Line) (mk : PointerMode → Reg → Word → Instr) : Except DecodeError Instr := do
  let p ← decodePointerMode l.b1
  let r ← decodeRegister l.b3
  return mk p r l.operand

/-- Format ARITH, register form (R252): `D`, then `S2`. -/
def decodeRegisterForm (l : Line) (mk : Reg → Reg → Instr) : Except DecodeError Instr := do
  let d ← decodeRegister l.b2
  let r ← decodeRegister l.b3
  return mk d r

/-- Format ARITH, direct form (R252): byte 3 is ignored. -/
def decodeDirectForm (l : Line) (mk : Reg → Word → Instr) : Except DecodeError Instr := do
  let d ← decodeRegister l.b2
  return mk d l.operand

/-- IntegerOperation by its sub-opcode `T` (R251). -/
def decodeIntegerOperation (l : Line) : Except DecodeError Instr :=
  match l.b1.toNat with
  | 0 => decodeRegisterForm l .iadd
  | 1 => decodeRegisterForm l .isub
  | 2 => decodeRegisterForm l .imul
  | 3 => decodeRegisterForm l .idiv
  | 4 => decodeDirectForm l .iaddi
  | 5 => decodeDirectForm l .isubi
  | 6 => decodeDirectForm l .imuli
  | 7 => decodeDirectForm l .idivi
  | _ => .error (.badSubopcode l.b1)

/-- FloatOperation by its sub-opcode `T` (R251). -/
def decodeFloatOperation (l : Line) : Except DecodeError Instr :=
  match l.b1.toNat with
  | 0 => decodeRegisterForm l .fadd
  | 1 => decodeRegisterForm l .fsub
  | 2 => decodeRegisterForm l .fmul
  | 3 => decodeRegisterForm l .fdiv
  | 4 => decodeDirectForm l .faddi
  | 5 => decodeDirectForm l .fsubi
  | 6 => decodeDirectForm l .fmuli
  | 7 => decodeDirectForm l .fdivi
  | 8 => decodeRegisterForm l .f2i
  | _ => .error (.badSubopcode l.b1)

/-- ProcedureCall (R293): `RLO`, `RHI`, `ARGC`, then the length, then the arguments. -/
def decodeCall (l : Line) (rest : List Byte) : Except DecodeError Instr := do
  let rlo ← decodeRegister l.b1
  let rhi ← decodeRegister l.b2
  if l.b3.toNat > 8 then throw (.argcountRange l.b3)
  checkLength .call l rest
  return .call rlo rhi l.operand (takeWords l.b3.toNat rest)

/-- The fields of an instruction whose opcode is known, checked in the order of R168: `l` is the first line, `rest`
the bytes of the logical stream after it. -/
def decodeOpcode (op : Opcode) (l : Line) (rest : List Byte) : Except DecodeError Instr :=
  match op with
  | .ramwrite => decodeOperand .ramwrite l rest fun p sz a v _ => .ramwrite p sz a v
  | .strwrite => do
    let p ← decodePointerMode l.b1
    checkLength .strwrite l rest
    return .strwrite p l.operand (rest.take l.aux.toNat)
  | .skipwrite => do
    let p ← decodePointerMode l.b1
    let sz ← decodeValueSize l.b1
    checkLength .skipwrite l rest
    return .skipwrite p sz l.aux l.operand (wordAt rest 0) (wordAt rest 4) (wordAt rest 8)
  | .ifeq => decodeOperand .ifeq l rest fun p sz a v _ => .ifeq p sz a v
  | .ifne => decodeOperand .ifne l rest fun p sz a v _ => .ifne p sz a v
  | .ifgt => decodeOperand .ifgt l rest fun p sz a v _ => .ifgt p sz a v
  | .iflt => decodeOperand .iflt l rest fun p sz a v _ => .iflt p sz a v
  | .ifge => decodeOperand .ifge l rest fun p sz a v _ => .ifge p sz a v
  | .ifle => decodeOperand .ifle l rest fun p sz a v _ => .ifle p sz a v
  | .ifand => decodeOperand .ifand l rest fun p sz a v _ => .ifand p sz a v
  | .ifor => decodeOperand .ifor l rest fun p sz a v _ => .ifor p sz a v
  | .ifbetween => decodeOperand .ifbetween l rest .ifbetween
  | .timedep => .ok (.timedep l.operand)
  | .resettimer => .ok .resettimer
  | .ldi => decodeIntegerTransfer l .ldi
  | .sti => decodeIntegerTransfer l .sti
  | .ldf => decodeFloatTransfer l .ldf
  | .stf => decodeFloatTransfer l .stf
  | .integerOperation => decodeIntegerOperation l
  | .floatOperation => decodeFloatOperation l
  | .fill => decodeFixedOperand .fill l rest .fill
  | .ldptr => decodeFixedOperand .ldptr l rest .ldptr
  | .addptr => .ok (.addptr l.operand)
  | .ldptrd => .ok (.ldptrd l.operand)
  | .search => do
    checkLength .search l rest
    return .search (readU16 l.b1 l.b2) (readU16 l.b4 l.b5) (readU16 l.b6 l.b7) (rest.take l.b3.toNat)
  | .execasm => do
    checkLength .execasm l rest
    return .execasm (rest.take (8 * l.aux.toNat))
  | .syscall => .ok (.syscall l.aux)
  | .term => .ok .term
  | .nop => .ok .nop
  | .timerterm => .ok .timerterm
  | .corrupt => do
    checkLength .corrupt l rest
    return .corrupt l.operand (wordAt rest 0) (wordAt rest 4) (wordAt rest 8)
  | .call => decodeCall l rest

/-- Decoding of the instruction at the head of a byte list, the logical stream from the cursor to its end: FETCH and
VALIDATE of R162. Fewer than 8 bytes are no whole line (the iteration check R163 keeps that from a run). -/
def decode (m : OpcodeMap) : List Byte → Except DecodeError Instr
  | b0 :: b1 :: b2 :: b3 :: b4 :: b5 :: b6 :: b7 :: rest =>
    match m.lookup b0 with
    | none => .error (.unknownOpcode b0)
    | some op => decodeOpcode op ⟨b0, b1, b2, b3, b4, b5, b6, b7⟩ rest
  | _ => .error (.truncated 8)

/-! ## The encoder -/

/-- The nibble of a pointer mode (R93). -/
def PointerMode.nibble : PointerMode → BitVec 4
  | .noPointer => 0
  | .pointer => 1

/-- The nibble of a value size (R94). -/
def ValueSize.nibble : ValueSize → BitVec 4
  | .byte => 0
  | .half => 1
  | .word => 2

/-- The byte `PS` (R91), with a zero size nibble where `Sz` is ignored (R95). -/
def packPS (p : PointerMode) (sz : BitVec 4) : Byte := p.nibble ++ sz

/-- The byte of a register index. -/
def regByte (r : Reg) : Byte := BitVec.ofNat 8 r.val

/-- Zero bytes up to the next line boundary (R95, R98). -/
def linePadding (n : Nat) : List Byte := List.replicate (padded n - n) 0

/-- Format OPD (R98). -/
def encodeOperand (op : Byte) (p : PointerMode) (sz : BitVec 4) (addr v w : Word) : List Byte :=
  [op, packPS p sz, 0, 0] ++ be32Bytes addr ++ be32Bytes v ++ be32Bytes w

/-- Format REG (R98). -/
def encodeTransfer (op : Byte) (p : PointerMode) (sz : BitVec 4) (r : Reg) (addr : Word) : List Byte :=
  [op, packPS p sz, 0, regByte r] ++ be32Bytes addr

/-- Format ARITH (R98). -/
def encodeArith (op t : Byte) (d : Reg) (s2 : Byte) (v : Word) : List Byte :=
  [op, t, regByte d, s2] ++ be32Bytes v

/-- Format IMM (R98). -/
def encodeImm (op : Byte) (v : Word) : List Byte := [op, 0, 0, 0] ++ be32Bytes v

/-- The bytes of an instruction, ignored bytes zero (R95) and markers in their canonical form (R101). -/
def encode (m : OpcodeMap) : Instr → List Byte
  | .ramwrite p sz a v => encodeOperand (m.value .ramwrite) p sz.nibble a v 0
  | .strwrite p a data =>
    [m.value .strwrite, packPS p 0] ++ be16Bytes (BitVec.ofNat 16 data.length) ++ be32Bytes a ++ data
      ++ linePadding data.length
  | .skipwrite p sz n a v st inc =>
    [m.value .skipwrite, packPS p sz.nibble] ++ be16Bytes n ++ be32Bytes a ++ be32Bytes v ++ be32Bytes st
      ++ be32Bytes inc ++ [0, 0, 0, 0]
  | .ifeq p sz a v => encodeOperand (m.value .ifeq) p sz.nibble a v 0
  | .ifne p sz a v => encodeOperand (m.value .ifne) p sz.nibble a v 0
  | .ifgt p sz a v => encodeOperand (m.value .ifgt) p sz.nibble a v 0
  | .iflt p sz a v => encodeOperand (m.value .iflt) p sz.nibble a v 0
  | .ifge p sz a v => encodeOperand (m.value .ifge) p sz.nibble a v 0
  | .ifle p sz a v => encodeOperand (m.value .ifle) p sz.nibble a v 0
  | .ifand p sz a v => encodeOperand (m.value .ifand) p sz.nibble a v 0
  | .ifor p sz a v => encodeOperand (m.value .ifor) p sz.nibble a v 0
  | .ifbetween p sz a lo hi => encodeOperand (m.value .ifbetween) p sz.nibble a lo hi
  | .timedep d => encodeImm (m.value .timedep) d
  | .resettimer => [m.value .resettimer, 0, 0, 0, 0, 0, 0, 0]
  | .ldi p sz r a => encodeTransfer (m.value .ldi) p sz.nibble r a
  | .sti p sz r a => encodeTransfer (m.value .sti) p sz.nibble r a
  | .ldf p r a => encodeTransfer (m.value .ldf) p 0 r a
  | .stf p r a => encodeTransfer (m.value .stf) p 0 r a
  | .iadd d r => encodeArith (m.value .integerOperation) 0 d (regByte r) 0
  | .isub d r => encodeArith (m.value .integerOperation) 1 d (regByte r) 0
  | .imul d r => encodeArith (m.value .integerOperation) 2 d (regByte r) 0
  | .idiv d r => encodeArith (m.value .integerOperation) 3 d (regByte r) 0
  | .iaddi d v => encodeArith (m.value .integerOperation) 4 d 0 v
  | .isubi d v => encodeArith (m.value .integerOperation) 5 d 0 v
  | .imuli d v => encodeArith (m.value .integerOperation) 6 d 0 v
  | .idivi d v => encodeArith (m.value .integerOperation) 7 d 0 v
  | .fadd d r => encodeArith (m.value .floatOperation) 0 d (regByte r) 0
  | .fsub d r => encodeArith (m.value .floatOperation) 1 d (regByte r) 0
  | .fmul d r => encodeArith (m.value .floatOperation) 2 d (regByte r) 0
  | .fdiv d r => encodeArith (m.value .floatOperation) 3 d (regByte r) 0
  | .faddi d v => encodeArith (m.value .floatOperation) 4 d 0 v
  | .fsubi d v => encodeArith (m.value .floatOperation) 5 d 0 v
  | .fmuli d v => encodeArith (m.value .floatOperation) 6 d 0 v
  | .fdivi d v => encodeArith (m.value .floatOperation) 7 d 0 v
  | .f2i d r => encodeArith (m.value .floatOperation) 8 d (regByte r) 0
  | .fill p a v span => encodeOperand (m.value .fill) p 0 a v span
  | .ldptr p a lo hi => encodeOperand (m.value .ldptr) p 0 a lo hi
  | .addptr off => encodeImm (m.value .addptr) off
  | .ldptrd a => encodeImm (m.value .ldptrd) a
  | .search idx sh eh t =>
    [m.value .search] ++ be16Bytes idx ++ [BitVec.ofNat 8 t.length] ++ be16Bytes sh ++ be16Bytes eh ++ t
      ++ linePadding t.length
  | .execasm pl => [m.value .execasm, 0] ++ be16Bytes (BitVec.ofNat 16 (pl.length / 8)) ++ [0, 0, 0, 0] ++ pl
  | .syscall c => [m.value .syscall, 0] ++ be16Bytes c ++ [0, 0, 0, 0]
  | .term => [m.value .term, 0, 0, 0, 0xDE, 0xAD, 0xCA, 0xFE]
  | .nop => [m.value .nop, 0, 0, 0, 0, 0, 0, 0]
  | .timerterm => [m.value .timerterm, 0, 0, 0, 0, 0, 0, 0]
  | .corrupt a b f r =>
    [m.value .corrupt, 0, 0, 0] ++ be32Bytes a ++ be32Bytes b ++ be32Bytes f ++ be32Bytes r ++ [0, 0, 0, 0]
  | .call rlo rhi tg args =>
    [m.value .call, regByte rlo, regByte rhi, BitVec.ofNat 8 args.length] ++ be32Bytes tg
      ++ args.flatMap be32Bytes ++ List.replicate (argBytes args.length - 4 * args.length) 0

/-! ## The words of `spec/opcode_table.json`

The table views the first 8 bytes of an instruction as one 64-bit big-endian word: byte 0 is bits 63:56, byte 7 bits
7:0 (R6). A later line counts on from bit 64 in the same way (log 21). -/

/-- Byte `k` of an instruction whose bits are `w`, numbered as the table numbers them; bits at and above `nbits`
are 0. -/
def tableByte (nbits w k : Nat) : Byte :=
  BitVec.ofNat 8 ((w % 2 ^ nbits) >>> (64 * (k / 8) + (56 - 8 * (k % 8))))

/-- The first line of such an instruction. -/
def tableLine (nbits w : Nat) : Line :=
  ⟨tableByte nbits w 0, tableByte nbits w 1, tableByte nbits w 2, tableByte nbits w 3,
   tableByte nbits w 4, tableByte nbits w 5, tableByte nbits w 6, tableByte nbits w 7⟩

/-- How many bytes such an instruction takes: what its first line says (R100), one line if its opcode is unknown. -/
def tableLength (m : OpcodeMap) (nbits w : Nat) : Nat :=
  match m.lookup (tableByte nbits w 0) with
  | some op => lengthOf op (tableLine nbits w)
  | none => 8

/-- All bytes of such an instruction, in stream order. -/
def tableBytes (m : OpcodeMap) (nbits w : Nat) : List Byte :=
  (List.range (tableLength m nbits w)).map (tableByte nbits w)

/-- The instruction the decoder reads from a word of the opcode table, with the default opcode map (R97). -/
def decodeTableWord (nbits w : Nat) : Option Instr :=
  match decode .default (tableBytes .default nbits w) with
  | .ok i => some i
  | .error _ => none

end Sys2Proof
end

