-- ==== Sys2Proof/Machine/State.lean ====
section
/-! DEFINITION. The state of the block (`10_state.md` R20), its inputs and parameters (R5, R32), the environment its
ports reach (`20_memory.md` R62, R63, `47_external_calls.md` R290) and what the host does next
(`60_exceptions.md` R340), all as plain data; the reasons a step stops; the state after `initialize` (R34). -/

namespace Sys2Proof.Machine

/-- `run_state` (R30). -/
inductive RunState where
  | idle
  | running
  | done
  | fatal
deriving DecidableEq, Repr

/-- The fault codes (R320). -/
inductive FaultCode where
  /-- 0: no fault recorded since `initialize` -/
  | none
  /-- 1 (R321) -/
  | badLength
  /-- 2 (R322) -/
  | truncated
  /-- 3 (R323) -/
  | unknownOpcode
  /-- 4 (R324) -/
  | unterminatedConditional
  /-- 5 (R325) -/
  | unterminatedTimer
  /-- 6 (R326) -/
  | registerRange
  /-- 7 (R327) -/
  | argcountRange
  /-- 8 (R328) -/
  | badPointerMode
  /-- 9 (R329) -/
  | badValueSize
  /-- 10 (R330) -/
  | badSubopcode
deriving DecidableEq, Repr

/-- The fault record (R31): `fault_code`, `fault_pc`, `fault_info`, `fault_bytes`. -/
structure FaultRecord where
  code : FaultCode
  pc : Word
  info : Word
  bytes : Vector Byte 8
deriving DecidableEq, Repr

/-- The stream buffer `S` (R25): the bytes written so far, in rising order of index. An index that is not listed
holds no written byte and reads as a free value (R34, log 14). -/
structure StreamBuffer where
  cells : List Host.Cell
deriving DecidableEq, Repr

/-- The reference foreign memory `M` (R63): the nonzero bytes, in rising order of address. An address that is not
listed reads as 0x00 (log 9). -/
structure Memory where
  cells : List Host.Cell
deriving DecidableEq, Repr

/-- Who answers the reads of the foreign-memory port: the reference memory of R63 in a byte order, or a collaborator
of which nothing is known (R62). -/
inductive Collaborator where
  | reference (order : ByteOrder)
  | arbitrary
deriving DecidableEq, Repr

/-- What one `ExecRaw`, `SysCall` or `ForeignCall` does outside the block (R290, R294): the 64-bit return value and
the foreign bytes it writes. -/
structure CallAnswer where
  result : BitVec 64
  writes : List (Word × Byte)
deriving DecidableEq, Repr

/-- One port transaction with its answer (R62, R290, R334). -/
inductive Transaction where
  /-- `MemRead(addr, n)` and the value returned -/
  | read (addr : Word) (size : ValueSize) (value : Word)
  /-- `MemWrite(addr, n, v)` -/
  | write (addr : Word) (size : ValueSize) (value : Word)
  /-- `ExecRaw(bytes)` -/
  | execRaw (bytes : List Byte)
  /-- `SysCall(code)` -/
  | sysCall (code : HalfWord)
  /-- `ForeignCall(addr, args, argc)` and the 64-bit value returned -/
  | foreignCall (addr : Word) (args : List Word) (argc : Nat) (result : BitVec 64)
  /-- `fatal(message)`: the message carries the fault record (R334) -/
  | fatal (record : FaultRecord)
deriving DecidableEq, Repr

/-- The foreign system as the ports show it. Model's own: `readAnswers` and `callAnswers` are answers fixed in advance,
oldest first; with none left an answer is a free value of Config at `draws` (log 10, 11). `log` lists the
transactions issued, newest first (log 13). -/
structure Foreign where
  collaborator : Collaborator
  mem : Memory
  readAnswers : List Word
  callAnswers : List CallAnswer
  draws : Nat
  log : List Transaction
deriving DecidableEq, Repr

/-- What the host does at a step boundary (R340, R352). -/
inductive HostEvent where
  /-- nothing: the block takes its step -/
  | pause
  /-- the command `initialize` -/
  | reinit
  /-- the command `load(i, b)` -/
  | load (index : Word) (value : Byte)
  /-- the command `run(L)` -/
  | run (length : Word)
  /-- driving the input `access_enable` -/
  | drive (enable : Bool)
deriving DecidableEq, Repr

/-- The whole state. -/
structure State where
  stream : StreamBuffer
  pc : Word
  rem : Word
  ireg : Vector Word 8
  freg : Vector Word 8
  conditionFlag : Bool
  loadedPointer : Word
  timeDependenceDelay : Word
  executionCount : Word
  runState : RunState
  fault : FaultRecord
  accessEnable : Bool
  params : Parameters
  foreign : Foreign
  host : List HostEvent
deriving DecidableEq, Repr

/-- Why the machine stops with a fault. -/
inductive Fault where
  /-- Raised by `step` when a running block's window `pc + rem` leaves the stream buffer, so that a fetch would name a
  byte that does not exist (R25, R76). No state that a run reaches does it (R23). Safe: log 18. -/
  | streamRange
deriving DecidableEq, Repr

/-- Why the model refuses to go on. -/
inductive Refusal where
  /-- Raised by an arm of `exec` that has no meaning yet. Safe. -/
  | notModelled (mnemonic : String)
  /-- Raised by `step` when the host writes the stream during a run (R340, U8). Safe: log 17. -/
  | loadWhileRunning
  /-- Raised by `step` when the host writes a stream index at or beyond `STREAM_MAX` (R340). Safe: log 17. -/
  | loadOutsideBuffer
  /-- Raised by `step` when the host changes `access_enable` during a run (R32, U13). Safe: log 17. -/
  | accessEnableWhileRunning
deriving DecidableEq, Repr

/-- The outcome of a step or of a meaning. -/
abbrev Result := Host.Outcome State Fault Refusal

/-- The fault record after `initialize` (R34). -/
def FaultRecord.clear : FaultRecord := ⟨.none, 0, 0, Vector.replicate 8 0⟩

/-- The default parameters (R5, R97, R222); the capacity is the model's choice (log 2). -/
def defaultParameters : Parameters := ⟨.default, BitVec.allOnes 28, .unsigned⟩

/-- The environment a machine is reset into (log 8, 9, 10, 11, 13). -/
def Foreign.initial : Foreign := ⟨.reference .be, ⟨[]⟩, [], [], 0, []⟩

/-- The machine right after `initialize` (R34). -/
def State.reset : State where
  stream := ⟨[]⟩
  pc := 0
  rem := 0
  ireg := Vector.replicate 8 0
  freg := Vector.replicate 8 0
  conditionFlag := false
  loadedPointer := 0
  timeDependenceDelay := 0
  executionCount := 0
  runState := .idle
  fault := .clear
  accessEnable := true
  params := defaultParameters
  foreign := .initial
  host := []

end Sys2Proof.Machine
end

