-- ==== Sys2Proof/Machine/Operands.lean ====
section
/-! DEFINITION. How operands are formed (`30_encoding.md` R104, `40_decode_units.md` R141 to R146): sized values,
effective addresses, the bytes of a value. The fields themselves are read by the decoder (R98). -/

namespace Sys2Proof.Machine

/-- `zext_32(trunc_{8s}(v))`: the low-order bytes a value size selects (R104, R146), as an unsigned 32-bit number. -/
def truncate (sz : ValueSize) (v : Word) : Word :=
  match sz with
  | .byte => (v.setWidth 8).setWidth 32
  | .half => (v.setWidth 16).setWidth 32
  | .word => v

/-- Effective address (R141): the address field, or its sum with the loaded pointer modulo 2^32. -/
def effectiveAddress (p : PointerMode) (addr : Word) (s : State) : Word :=
  match p with
  | .noPointer => addr
  | .pointer => s.loadedPointer + addr

/-- The bytes of a sized value, the most significant first (R63). -/
def sizedBytes (sz : ValueSize) (v : Word) : List Byte :=
  match sz with
  | .byte => [v.extractLsb' 0 8]
  | .half => [v.extractLsb' 8 8, v.extractLsb' 0 8]
  | .word => be32Bytes v

/-- The unsigned value of bytes, the most significant first (R61, R63). -/
def valueOfBytes (bs : List Byte) : Word :=
  bs.foldl (fun v b => (v <<< 8) ||| b.setWidth 32) 0

/-- Bytes listed most significant first, in the order a memory of the given byte order holds them (R63). -/
def arrange (order : ByteOrder) (bs : List Byte) : List Byte :=
  match order with
  | .be => bs
  | .le => bs.reverse

/-- A high half given in 16 bits (R104): `START_HI * 65536`. -/
def highHalf (h : HalfWord) : Word := h ++ (0 : HalfWord)

/-- `STREAM_MAX` in bytes (R5, D35). -/
def State.streamMax (s : State) : Nat := 8 * s.params.streamLines.toNat

/-- The logical stream length `len = pc + rem` (R24, R341). -/
def State.logicalLength (s : State) : Nat := s.pc.toNat + s.rem.toNat

end Sys2Proof.Machine
end

