-- ==== Sys2Proof/Machine/Flags.lean ====
section
/-! DEFINITION. The predicates `COND` of the nine conditionals (`43_conditionals.md` R211 to R222) on the value read
`m` and the sized operands, and the condition flag (R26), the block's only flag. Values are zero-extended to 32 bits
and compared unsigned (R211). -/

namespace Sys2Proof.Machine

/-- The true unsigned orderings (R215 to R218). -/
def unsignedOrder (kind : OrderKind) (m v : Word) : Bool :=
  match kind with
  | .gt => v < m
  | .lt => m < v
  | .ge => v ≤ m
  | .le => m ≤ v

/-- `ordered_cmp` (R222): the default, or the unknown function of the original hardware. -/
def orderedCompare (mode : OrderedCompare) (kind : OrderKind) (sz : ValueSize) (m v : Word) : Bool :=
  match mode with
  | .unsigned => unsignedOrder kind m v
  | .original => Config.orderedCmp kind sz m v

/-- IfEqual (R213). -/
def condEqual (m v : Word) : Bool := m == v

/-- IfNotEqual (R214). -/
def condNotEqual (m v : Word) : Bool := m != v

/-- And (R219). -/
def condAnd (m v : Word) : Bool := m &&& v != 0

/-- Or (R220). -/
def condOr (m v : Word) : Bool := m ||| v != 0

/-- IfValueBetween (R221): both bounds strict, unsigned. -/
def condBetween (m lower upper : Word) : Bool := lower < m && m < upper

/-- Writing `condition_flag` (R212). -/
def setConditionFlag (c : Bool) (s : State) : State := { s with conditionFlag := c }

end Sys2Proof.Machine
end

