-- ==== Sys2Proof/Machine/Ops.lean ====
section
/-! DEFINITION. The shared operations: cells, the stream buffer, the reference foreign memory, the ports, the gate, the
cursor, the fatal transition with `initialize` (the only way out of it) beside it, the scanner, and register access. -/

namespace Sys2Proof.Machine

/-! ## Cells: bytes listed by address -/

/-- The byte listed at an address. -/
def lookupCell : List Host.Cell → Nat → Option Byte
  | [], _ => none
  | (k, v) :: t, a => if k = a then some v else lookupCell t a

/-- Lists a byte at an address, in rising order of address. -/
def insertCell (a : Nat) (b : Byte) : List Host.Cell → List Host.Cell
  | [] => [(a, b)]
  | (k, v) :: t =>
    if a < k then (a, b) :: (k, v) :: t
    else if a = k then (a, b) :: t
    else (k, v) :: insertCell a b t

/-- Removes what is listed at an address. -/
def eraseCell (a : Nat) (cs : List Host.Cell) : List Host.Cell := cs.filter fun c => c.1 != a

/-- The addresses are strictly rising. -/
abbrev cellsSorted (cs : List Host.Cell) : Prop := cs.Pairwise fun c d => c.1 < d.1

/-! ## The stream buffer (R25) -/

/-- Stream byte `S[i]`; an index that nothing has written reads as a free value (R34, log 14). -/
def StreamBuffer.read (b : StreamBuffer) (i : Nat) : Byte :=
  (lookupCell b.cells i).getD (Config.streamUnwritten i)

/-- `S[i] <- v`. -/
def StreamBuffer.write (b : StreamBuffer) (i : Nat) (v : Byte) : StreamBuffer := ⟨insertCell i v b.cells⟩

/-- `S[i], S[i+1], ..` of the given length. -/
def StreamBuffer.slice (b : StreamBuffer) (i : Nat) : Nat → List Byte
  | 0 => []
  | n + 1 => b.read i :: b.slice (i + 1) n

/-- Writes bytes at ascending indices. -/
def StreamBuffer.writeBytes (b : StreamBuffer) (i : Nat) : List Byte → StreamBuffer
  | [] => b
  | v :: vs => (b.write i v).writeBytes (i + 1) vs

/-- The canonical form of a stream buffer of the given capacity. -/
abbrev StreamBuffer.wf (b : StreamBuffer) (capacity : Nat) : Prop :=
  cellsSorted b.cells ∧ ∀ c ∈ b.cells, c.1 < capacity

/-- The logical stream from the cursor to its end, `S[pc .. pc + rem - 1]` (R24). -/
def State.remaining (s : State) : List Byte := s.stream.slice s.pc.toNat s.rem.toNat

/-! ## The reference foreign memory (R63) -/

/-- What an address that is not listed reads as. DESIGN CHOICE log 9, unsafe: the test vectors' own convention. -/
def Memory.unlisted : Byte := 0

/-- `M[a]`. -/
def Memory.read (m : Memory) (a : Word) : Byte := (lookupCell m.cells a.toNat).getD Memory.unlisted

/-- `M[a] <- v`; a byte equal to what an unlisted address reads as is not listed. -/
def Memory.write (m : Memory) (a : Word) (v : Byte) : Memory :=
  if v = Memory.unlisted then ⟨eraseCell a.toNat m.cells⟩ else ⟨insertCell a.toNat v m.cells⟩

/-- The bytes at ascending addresses, modulo 2^32 (R63). -/
def Memory.readBytes (m : Memory) (a : Word) : Nat → List Byte
  | 0 => []
  | n + 1 => m.read a :: m.readBytes (a + 1) n

/-- Writes bytes at ascending addresses, modulo 2^32 (R63). -/
def Memory.writeBytes (m : Memory) (a : Word) : List Byte → Memory
  | [] => m
  | v :: vs => (m.write a v).writeBytes (a + 1) vs

/-- A sized read of the reference memory in a byte order (R63). -/
def Memory.readSized (m : Memory) (order : ByteOrder) (sz : ValueSize) (a : Word) : Word :=
  valueOfBytes (arrange order (m.readBytes a sz.bytes))

/-- A sized write of the reference memory in a byte order (R63). -/
def Memory.writeSized (m : Memory) (order : ByteOrder) (sz : ValueSize) (a v : Word) : Memory :=
  m.writeBytes a (arrange order (sizedBytes sz v))

/-- Single bytes written one after the other. -/
def Memory.writeAll (m : Memory) (ws : List (Word × Byte)) : Memory :=
  ws.foldl (fun m w => m.write w.1 w.2) m

/-- The canonical form: rising 32-bit addresses, no byte that an unlisted address reads as. -/
abbrev Memory.wf (m : Memory) : Prop :=
  cellsSorted m.cells ∧ ∀ c ∈ m.cells, c.2 ≠ Memory.unlisted ∧ c.1 < 2 ^ 32

/-! ## The ports (R62, R69, R75, R290) -/

/-- The byte order in which the foreign image holds values; big-endian where the collaborator's own is unknown, which
no read shows (log 8). -/
def Foreign.order (f : Foreign) : ByteOrder :=
  match f.collaborator with
  | .reference order => order
  | .arbitrary => .be

/-- Records a transaction. -/
def logTransaction (t : Transaction) (s : State) : State :=
  { s with foreign.log := t :: s.foreign.log }

/-- The value a read of the foreign port finds, and the environment after it (R62, R63, U7). -/
def Foreign.answerRead (f : Foreign) (sz : ValueSize) (a : Word) : Word × Foreign :=
  match f.collaborator with
  | .reference order => (f.mem.readSized order sz a, f)
  | .arbitrary =>
    match f.readAnswers with
    | v :: vs => (truncate sz v, { f with readAnswers := vs })
    | [] => (truncate sz (Config.foreignRead f.draws), { f with draws := f.draws + 1 })

/-- `MemRead(a, n)`; a disabled port answers its sentinel and reads nothing (R75). -/
def memRead (sz : ValueSize) (a : Word) (s : State) : Word × State :=
  if s.accessEnable then
    let answer := s.foreign.answerRead sz a
    (answer.1, logTransaction (.read a sz answer.1) { s with foreign := answer.2 })
  else (truncate sz Config.drySentinel, s)

/-- `MemWrite(a, n, v)`; a disabled port drops the write (R75). -/
def memWrite (sz : ValueSize) (a v : Word) (s : State) : State :=
  if s.accessEnable then
    logTransaction (.write a sz (truncate sz v))
      { s with foreign.mem := s.foreign.mem.writeSized s.foreign.order sz a v }
  else s

/-- What the collaborator of a call answers, and the environment after it: foreign memory may hold anything (R290,
R294, U7). -/
def Foreign.answerCall (f : Foreign) : BitVec 64 × Foreign :=
  match f.callAnswers with
  | c :: cs => (c.result, { f with mem := f.mem.writeAll c.writes, callAnswers := cs })
  | [] =>
    (Config.foreignReturn f.draws,
      { f with mem := Memory.writeAll ⟨[]⟩ (Config.foreignMemory f.draws), draws := f.draws + 1 })

/-- One transaction of a call port: `t` is the transaction as a function of the 64-bit return (R290). -/
def callPort (t : BitVec 64 → Transaction) (s : State) : BitVec 64 × State :=
  let answer := s.foreign.answerCall
  (answer.1, logTransaction (t answer.1) { s with foreign := answer.2 })

/-! ## The gate (R143, R144) -/

/-- `is_execution_allowed` (R143). -/
def executionAllowed (p : PointerMode) (s : State) : Bool :=
  match p with
  | .noPointer => true
  | .pointer => s.loadedPointer != 0

/-- The effective gate (R144). -/
def gate (p : PointerMode) (s : State) : Bool := executionAllowed p s && s.accessEnable

/-! ## Registers (R21, R22) -/

/-- `ireg[r] <- v`. -/
def setIreg (r : Reg) (v : Word) (s : State) : State := { s with ireg := s.ireg.set r.val v r.isLt }

/-- `freg[r] <- v`. -/
def setFreg (r : Reg) (v : Word) (s : State) : State := { s with freg := s.freg.set r.val v r.isLt }

/-! ## The cursor (R167) -/

/-- `pc <- pc + n ; rem <- rem - n`, modulo 2^32: the length check R166 keeps `n` within `rem` in a run. -/
def advance (n : Nat) (s : State) : State :=
  { s with pc := s.pc + BitVec.ofNat 32 n, rem := s.rem - BitVec.ofNat 32 n }

/-! ## The fatal transition, `initialize`, the end of a run (R334, R34, R164) -/

/-- The 8-bit number of a fault code (R320). -/
def FaultCode.number : FaultCode → Byte
  | .none => 0
  | .badLength => 1
  | .truncated => 2
  | .unknownOpcode => 3
  | .unterminatedConditional => 4
  | .unterminatedTimer => 5
  | .registerRange => 6
  | .argcountRange => 7
  | .badPointerMode => 8
  | .badValueSize => 9
  | .badSubopcode => 10

/-- `fault_bytes` (R31): the 8 bytes at `pc` when `rem >= 8`, else all zero. -/
def faultBytes (s : State) : Vector Byte 8 :=
  if 8 ≤ s.rem.toNat then
    let at' := fun k => s.stream.read (s.pc.toNat + k)
    #v[at' 0, at' 1, at' 2, at' 3, at' 4, at' 5, at' 6, at' 7]
  else Vector.replicate 8 0

/-- The record a fatal error leaves (R31, R334 step 1). -/
def faultRecord (code : FaultCode) (info : Word) (s : State) : FaultRecord := ⟨code, s.pc, info, faultBytes s⟩

/-- `raise Fatal(code, info)` (R334): the record, `run_state`, one transaction on the fatal port; everything else keeps
its value. -/
def raiseFatal (code : FaultCode) (info : Word) (s : State) : State :=
  logTransaction (.fatal (faultRecord code info s))
    { s with fault := faultRecord code info s, runState := .fatal }

/-- `initialize` (R34, R351): every element but the stream buffer; the inputs, the parameters and the foreign system are
not touched. It is the only exit from the fatal state (R335). That the buffer keeps what it held, where R34 leaves its
contents unspecified and R40 and R351 say only that it is not written or cleared, is a DESIGN CHOICE (log 30, unsafe). -/
def initializeBlock (s : State) : State :=
  { s with
    pc := 0, rem := 0, ireg := Vector.replicate 8 0, freg := Vector.replicate 8 0, conditionFlag := false,
    loadedPointer := 0, timeDependenceDelay := 0, executionCount := 0, runState := .idle, fault := .clear }

/-- Run start (R35). -/
def startRun (length : Word) (s : State) : State :=
  { s with pc := 0, rem := length, conditionFlag := false, loadedPointer := 0, runState := .running }

/-- The normal end of a run (R164). -/
def finishRun (s : State) : State := { s with executionCount := s.executionCount + 1, runState := .done }

/-! ## conditional_skip_scanner (R169 to R173) -/

/-- The two patterns a skip may search (R169). -/
inductive SkipTarget where
  | terminator
  | resetTimer
deriving DecidableEq, Repr

/-- The 8 bytes of a pattern (R169): constants of the scanner, whatever `OPC` is. -/
def SkipTarget.pattern : SkipTarget → List Byte
  | .terminator => [0xD0, 0x00, 0x00, 0x00, 0xDE, 0xAD, 0xCA, 0xFE]
  | .resetTimer => [0x0D, 0x00, 0x00, 0x00, 0x00, 0x00, 0x00, 0x00]

/-- The fatal error of a failed search (R171, R324, R325). -/
def SkipTarget.failure : SkipTarget → FaultCode
  | .terminator => .unterminatedConditional
  | .resetTimer => .unterminatedTimer

/-- The `info` of a failed search: the pattern's first byte (R171). -/
def SkipTarget.info : SkipTarget → Word
  | .terminator => 0xD0
  | .resetTimer => 0x0D

/-- `find_pattern` (R170): the least offset at which the pattern lies wholly inside the window. -/
def findPattern (pattern : List Byte) : List Byte → Option Nat
  | [] => none
  | b :: bs => if pattern.isPrefixOf (b :: bs) then some 0 else (findPattern pattern bs).map (· + 1)

/-- `skip_to` (R171), after the skipping instruction's own bytes were consumed. -/
def skipTo (target : SkipTarget) (s : State) : State :=
  match findPattern target.pattern s.remaining with
  | none => raiseFatal target.failure target.info s
  | some k => advance k s

end Sys2Proof.Machine
end

