-- ==== Sys2Proof/Machine/Calls.lean ====
section
/-! DEFINITION. Raw execution, system call, procedure call (`47_external_calls.md` R290 to R294). -/

namespace Sys2Proof.Machine

/-- `args[0..7]`: the supplied arguments, then zeros (R293). -/
def callArguments (args : List Word) : List Word := args ++ List.replicate (8 - args.length) 0

/-- ExecuteAssembly (R291): one transaction, also with an empty span. -/
def execExecasm (payload : List Byte) (s : State) : Result :=
  .next (advance (8 + payload.length)
    (if gate .noPointer s then (callPort (fun _ => .execRaw payload) s).2 else s))

/-- PerformSystemCall (R292). -/
def execSyscall (code : HalfWord) (s : State) : Result :=
  .next (advance 8 (if gate .noPointer s then (callPort (fun _ => .sysCall code) s).2 else s))

/-- ProcedureCall (R293): the low half is written first, so equal indices keep the high half. -/
def execCall (rlo rhi : Reg) (target : Word) (args : List Word) (s : State) : Result :=
  .next (advance (8 + argBytes args.length)
    (if gate .noPointer s then
      let answer := callPort (fun ret => .foreignCall target (callArguments args) args.length ret) s
      setIreg rhi (answer.1.extractLsb' 32 32) (setIreg rlo (answer.1.extractLsb' 0 32) answer.2)
    else s))

end Sys2Proof.Machine
end

