-- ==== Sys2Proof/Machine/Conditionals.lean ====
section
/-! DEFINITION. The nine conditional instructions (`43_conditionals.md` R210 to R222). -/

namespace Sys2Proof.Machine

/-- What a conditional does once its comparison result is known: the flag, the 16 bytes, and the skip when the result
is false (R212). -/
def concludeConditional (c : Bool) (s : State) : State :=
  let t := advance 16 (setConditionFlag c s)
  if c then t else skipTo .terminator t

/-- The common shape (R210): with the gate, one read, the predicate on it, the conclusion; without, 16 bytes. -/
def conditional (p : PointerMode) (sz : ValueSize) (addr : Word) (cond : Word → Bool) (s : State) : State :=
  if gate p s then
    let answer := memRead sz (effectiveAddress p addr s) s
    concludeConditional (cond answer.1) answer.2
  else advance 16 s

/-- IfEqual (R213). -/
def execIfeq (p : PointerMode) (sz : ValueSize) (addr value : Word) (s : State) : Result :=
  .next (conditional p sz addr (fun m => condEqual m (truncate sz value)) s)

/-- IfNotEqual (R214). -/
def execIfne (p : PointerMode) (sz : ValueSize) (addr value : Word) (s : State) : Result :=
  .next (conditional p sz addr (fun m => condNotEqual m (truncate sz value)) s)

/-- IfGreater (R215). -/
def execIfgt (p : PointerMode) (sz : ValueSize) (addr value : Word) (s : State) : Result :=
  .next (conditional p sz addr (fun m => orderedCompare s.params.ordered .gt sz m (truncate sz value)) s)

/-- IfLess (R216). -/
def execIflt (p : PointerMode) (sz : ValueSize) (addr value : Word) (s : State) : Result :=
  .next (conditional p sz addr (fun m => orderedCompare s.params.ordered .lt sz m (truncate sz value)) s)

/-- IfGreaterOrEqual (R217). -/
def execIfge (p : PointerMode) (sz : ValueSize) (addr value : Word) (s : State) : Result :=
  .next (conditional p sz addr (fun m => orderedCompare s.params.ordered .ge sz m (truncate sz value)) s)

/-- IfLessOrEqual (R218). -/
def execIfle (p : PointerMode) (sz : ValueSize) (addr value : Word) (s : State) : Result :=
  .next (conditional p sz addr (fun m => orderedCompare s.params.ordered .le sz m (truncate sz value)) s)

/-- And (R219). -/
def execIfand (p : PointerMode) (sz : ValueSize) (addr value : Word) (s : State) : Result :=
  .next (conditional p sz addr (fun m => condAnd m (truncate sz value)) s)

/-- Or (R220). -/
def execIfor (p : PointerMode) (sz : ValueSize) (addr value : Word) (s : State) : Result :=
  .next (conditional p sz addr (fun m => condOr m (truncate sz value)) s)

/-- IfValueBetween (R221). -/
def execIfbetween (p : PointerMode) (sz : ValueSize) (addr lower upper : Word) (s : State) : Result :=
  .next (conditional p sz addr (fun m => condBetween m (truncate sz lower) (truncate sz upper)) s)

end Sys2Proof.Machine
end

