-- ==== Sys2Proof/Machine/Float.lean ====
section
/-! DEFINITION. The float arithmetic `fp` and the conversion `int` (`45_registers_arith.md` R270, R271): IEEE-754
binary32 patterns, exact results rounded to nearest with ties to even, subnormals kept, no flags, no traps. Where
IEEE-754 returns a NaN the result is some quiet NaN (U2, log 5). The format itself is standard binary32, as R271 says. -/

namespace Sys2Proof.Machine

/-- The sign bit of a pattern. -/
def floatSign (f : Word) : Bool := f.getLsbD 31

/-- The exponent field of a pattern. -/
def floatExponent (f : Word) : Nat := (f.extractLsb' 23 8).toNat

/-- The fraction field of a pattern. -/
def floatFraction (f : Word) : Nat := (f.extractLsb' 0 23).toNat

/-- A NaN of any kind. -/
def isNaN (f : Word) : Bool := floatExponent f == 255 && floatFraction f != 0

/-- A quiet NaN: the top fraction bit is set. -/
def isQuietNaN (f : Word) : Bool := floatExponent f == 255 && f.getLsbD 22

/-- An infinity of either sign. -/
def isInfinite (f : Word) : Bool := floatExponent f == 255 && floatFraction f == 0

/-- A finite number: its value is `(-1)^sign * significand * 2^(scale - 149)`. -/
def isFinite (f : Word) : Bool := floatExponent f != 255

/-- The integer significand of a finite pattern, with the hidden bit of a normal number. -/
def significand (f : Word) : Nat :=
  if floatExponent f = 0 then floatFraction f else 2 ^ 23 + floatFraction f

/-- The exponent of the significand's unit, above 2^(-149). -/
def scale (f : Word) : Nat := floatExponent f - 1

/-- Zero of either sign. -/
def isZero (f : Word) : Bool := floatExponent f == 0 && floatFraction f == 0

/-- A pattern from its sign and its low 31 bits. -/
def withSign (sign : Bool) (bits : Nat) : Word := BitVec.ofBool sign ++ BitVec.ofNat 31 bits

/-- The low 31 bits of an infinity. -/
def infinityBits : Nat := 0x7F800000

/-- `m / 2^k` rounded to the nearest integer, a tie to the even one. -/
def divRoundEven (m k : Nat) : Nat :=
  let t := m / 2 ^ k
  let r := m % 2 ^ k
  if 2 ^ k < 2 * r ∨ (2 * r = 2 ^ k ∧ t % 2 = 1) then t + 1 else t

/-- The binary32 pattern nearest to `(-1)^sign * m * 2^e`, ties to even; an overflow gives an infinity, a result below
the smallest normal number is a subnormal or a zero (R271). The unit of the result is `2^q`; a significand of exactly
`2^24` after rounding carries into the exponent field by the addition. -/
def roundToFloat (sign : Bool) (m : Nat) (e : Int) : Word :=
  if m = 0 then withSign sign 0
  else
    let q : Int := max (m.log2 + e - 23) (-149)
    let mant := if q ≤ e then m * 2 ^ (e - q).toNat else divRoundEven m (q - e).toNat
    let bits := (q + 149).toNat * 2 ^ 23 + mant
    withSign sign (if infinityBits ≤ bits then infinityBits else bits)

/-- The quiet NaN an operation returns where IEEE-754 returns a NaN: its sign and payload are free (U2). -/
def freeNaN (op : FloatOp) (a b : Word) : Word :=
  let c := Config.nanChoice op a b
  BitVec.ofBool (c.getLsbD 22) ++ (0xFF : BitVec 8) ++ (1 : BitVec 1) ++ c.extractLsb' 0 22

/-- A signed significand, at the unit `2^(common - 149)`. -/
def alignedSignificand (f : Word) (common : Nat) : Int :=
  let m : Int := (significand f * 2 ^ (scale f - common) : Nat)
  if floatSign f then -m else m

/-- The sum of two finite patterns: exact, then rounded; an exact zero is `-0` only when both operands are negative. -/
def addFinite (a b : Word) : Word :=
  let common := min (scale a) (scale b)
  let sum := alignedSignificand a common + alignedSignificand b common
  if sum = 0 then withSign (floatSign a && floatSign b) 0
  else roundToFloat (sum < 0) sum.natAbs ((common : Int) - 149)

/-- The sum of two patterns, `nan` being the NaN to return. -/
def addPatterns (nan a b : Word) : Word :=
  if isNaN a || isNaN b then nan
  else if isInfinite a then (if isInfinite b && floatSign a != floatSign b then nan else a)
  else if isInfinite b then b
  else addFinite a b

/-- The pattern with its sign bit inverted. -/
def negatePattern (f : Word) : Word := f ^^^ 0x80000000

/-- `fp.add` (R262, R266, R271). -/
def floatAdd (a b : Word) : Word := addPatterns (freeNaN .add a b) a b

/-- `fp.sub` (R263, R267, R271). -/
def floatSub (a b : Word) : Word := addPatterns (freeNaN .sub a b) a (negatePattern b)

/-- The sign of a product or a quotient. -/
def productSign (a b : Word) : Bool := floatSign a != floatSign b

/-- `fp.mul` (R264, R268, R271). -/
def floatMul (a b : Word) : Word :=
  if isNaN a || isNaN b then freeNaN .mul a b
  else if isInfinite a || isInfinite b then
    if isZero a || isZero b then freeNaN .mul a b else withSign (productSign a b) infinityBits
  else roundToFloat (productSign a b) (significand a * significand b) ((scale a + scale b : Nat) - 298)

/-- The quotient of two finite patterns, the divisor not zero: 50 extra quotient bits and one sticky bit for the
remainder decide the rounding. -/
def divFinite (a b : Word) : Word :=
  let n := significand a * 2 ^ 50
  let sticky := if n % significand b = 0 then 0 else 1
  roundToFloat (productSign a b) (2 * (n / significand b) + sticky) ((scale a : Int) - scale b - 51)

/-- `fp.div` (R265, R269, R271). -/
def floatDiv (a b : Word) : Word :=
  if isNaN a || isNaN b then freeNaN .div a b
  else if isInfinite a then (if isInfinite b then freeNaN .div a b else withSign (productSign a b) infinityBits)
  else if isInfinite b then withSign (productSign a b) 0
  else if isZero b then (if isZero a then freeNaN .div a b else withSign (productSign a b) infinityBits)
  else divFinite a b

/-- The integer a finite pattern truncates to, toward zero (R270). -/
def truncatedInteger (f : Word) : Int :=
  let m : Int := (significand f * 2 ^ scale f / 2 ^ 149 : Nat)
  if floatSign f then -m else m

/-- `int(f)` (R270): in range the truncated integer, else the free value `f2i_invalid` (U3). -/
def floatToInteger (f : Word) : Word :=
  if isFinite f && (-(2 ^ 31 : Int) ≤ truncatedInteger f && truncatedInteger f ≤ 2 ^ 31 - 1) then
    BitVec.ofInt 32 (truncatedInteger f)
  else Config.f2iInvalid f

end Sys2Proof.Machine
end

