-- ==== Sys2Proof/Machine/FloatArith.lean ====
section
/-! DEFINITION. FloatOperation (`45_registers_arith.md` R251, R252, R262 to R271): no flag, no gate, no trap. -/

namespace Sys2Proof.Machine

/-- A FloatOperation's result written to its float destination (R251). -/
def floatResult (d : Reg) (v : Word) (s : State) : Result := .next (advance 8 (setFreg d v s))

/-- `fadd fD, fS` (R262). -/
def execFadd (d r : Reg) (s : State) : Result := floatResult d (floatAdd (s.freg.get d) (s.freg.get r)) s

/-- `fsub fD, fS` (R263). -/
def execFsub (d r : Reg) (s : State) : Result := floatResult d (floatSub (s.freg.get d) (s.freg.get r)) s

/-- `fmul fD, fS` (R264). -/
def execFmul (d r : Reg) (s : State) : Result := floatResult d (floatMul (s.freg.get d) (s.freg.get r)) s

/-- `fdiv fD, fS` (R265). -/
def execFdiv (d r : Reg) (s : State) : Result := floatResult d (floatDiv (s.freg.get d) (s.freg.get r)) s

/-- `faddi fD, V` (R266). -/
def execFaddi (d : Reg) (value : Word) (s : State) : Result := floatResult d (floatAdd (s.freg.get d) value) s

/-- `fsubi fD, V` (R267). -/
def execFsubi (d : Reg) (value : Word) (s : State) : Result := floatResult d (floatSub (s.freg.get d) value) s

/-- `fmuli fD, V` (R268). -/
def execFmuli (d : Reg) (value : Word) (s : State) : Result := floatResult d (floatMul (s.freg.get d) value) s

/-- `fdivi fD, V` (R269). -/
def execFdivi (d : Reg) (value : Word) (s : State) : Result := floatResult d (floatDiv (s.freg.get d) value) s

/-- `f2i rD, fS` (R270): the destination is an integer register. -/
def execF2i (d r : Reg) (s : State) : Result := .next (advance 8 (setIreg d (floatToInteger (s.freg.get r)) s))

end Sys2Proof.Machine
end

