-- ==== Sys2Proof/Machine/IntegerArith.lean ====
section
/-! DEFINITION. IntegerOperation (`45_registers_arith.md` R251 to R261): modulo 2^32, unsigned truncating division, no
flag, no gate. -/

namespace Sys2Proof.Machine

/-- Unsigned division (R253); a zero divisor gives the free value `int_div_zero` of the dividend (U1). -/
def divideUnsigned (a b : Word) : Word := if b = 0 then Config.intDivZero a else a / b

/-- An IntegerOperation's result written to its destination (R251). -/
def integerResult (d : Reg) (v : Word) (s : State) : Result := .next (advance 8 (setIreg d v s))

/-- `iadd rD, rS` (R254). -/
def execIadd (d r : Reg) (s : State) : Result := integerResult d (s.ireg.get d + s.ireg.get r) s

/-- `isub rD, rS` (R255). -/
def execIsub (d r : Reg) (s : State) : Result := integerResult d (s.ireg.get d - s.ireg.get r) s

/-- `imul rD, rS` (R256). -/
def execImul (d r : Reg) (s : State) : Result := integerResult d (s.ireg.get d * s.ireg.get r) s

/-- `idiv rD, rS` (R257). -/
def execIdiv (d r : Reg) (s : State) : Result := integerResult d (divideUnsigned (s.ireg.get d) (s.ireg.get r)) s

/-- `iaddi rD, V` (R258). -/
def execIaddi (d : Reg) (value : Word) (s : State) : Result := integerResult d (s.ireg.get d + value) s

/-- `isubi rD, V` (R259). -/
def execIsubi (d : Reg) (value : Word) (s : State) : Result := integerResult d (s.ireg.get d - value) s

/-- `imuli rD, V` (R260). -/
def execImuli (d : Reg) (value : Word) (s : State) : Result := integerResult d (s.ireg.get d * value) s

/-- `idivi rD, V` (R261). -/
def execIdivi (d : Reg) (value : Word) (s : State) : Result := integerResult d (divideUnsigned (s.ireg.get d) value) s

end Sys2Proof.Machine
end

