-- ==== Sys2Proof/Machine/Pointer.lean ====
section
/-! DEFINITION. Pointer control (`46_pointer.md` R280 to R283). -/

namespace Sys2Proof.Machine

/-- `loaded_pointer <- v`. -/
def setLoadedPointer (v : Word) (s : State) : State := { s with loadedPointer := v }

/-- LoadPointer (R281): the value read when it lies within both inclusive bounds, else 0. -/
def execLdptr (p : PointerMode) (addr lower upper : Word) (s : State) : Result :=
  .next (advance 16
    (if gate p s then
      let answer := memRead .word (effectiveAddress p addr s) s
      setLoadedPointer (if lower ≤ answer.1 ∧ answer.1 ≤ upper then answer.1 else 0) answer.2
    else s))

/-- LoadPointerDirectly (R282). -/
def execLdptrd (addr : Word) (s : State) : Result := .next (advance 8 (setLoadedPointer addr s))

/-- AddOffsetToPointer (R283). -/
def execAddptr (offset : Word) (s : State) : Result :=
  .next (advance 8 (setLoadedPointer (s.loadedPointer + offset) s))

end Sys2Proof.Machine
end

