-- ==== Sys2Proof/Machine/Search.lean ====
section
/-! DEFINITION. SearchTemplate (`48_search_template.md` R305 to R312). -/

namespace Sys2Proof.Machine

/-- Whether the template stands at an address: byte reads in ascending order, stopping at the first mismatch (R308). -/
def matchTemplate : List Byte → Word → State → Bool × State
  | [], _, s => (true, s)
  | b :: bs, a, s =>
    let answer := memRead .byte a s
    if answer.1 = b.setWidth 32 then matchTemplate bs (a + 1) answer.2 else (false, answer.2)

/-- The scan over `n` candidates from address `a`, with `k` matches to pass over (R308): the address found or 0. -/
def searchLoop (template : List Byte) : Nat → Word → Nat → State → Word × State
  | 0, _, _, s => (0, s)
  | n + 1, a, k, s =>
    let hit := matchTemplate template a s
    if hit.1 then
      if k = 0 then (a, hit.2) else searchLoop template n (a + 1) (k - 1) hit.2
    else searchLoop template n (a + 1) k hit.2

/-- The number of candidates: addresses `a` with `start <= a` and `a + TLEN <= end`, unbounded (R307). With `TLEN = 0` and
`start = end` there is one, as R308's loop has it, where R307's last sentence says none (DESIGN CHOICE, log 29). -/
def candidateCount (start limit tlen : Nat) : Nat := limit + 1 - (start + tlen)

/-- The search (R307 to R309): nothing is read and nothing is found in a dry run. -/
def searchTemplate (index startHi endHi : HalfWord) (template : List Byte) (s : State) : Word × State :=
  if gate .noPointer s then
    searchLoop template (candidateCount (highHalf startHi).toNat (highHalf endHi).toNat template.length)
      (highHalf startHi) index.toNat s
  else (0, s)

/-- The line the search writes: LoadPointerDirectly with the address found (R310). -/
def pointerLine (m : OpcodeMap) (found : Word) : List Byte := [m.value .ldptrd, 0, 0, 0] ++ be32Bytes found

/-- The rewrite and the new length (R310, R311): the line at the cursor, the bytes after the template moved down by
`pad`. The bytes moved are read before any is written, as the ascending move of R310 does (log 22). -/
def rewriteStream (found : Word) (pad : Nat) (s : State) : State :=
  let start := s.pc.toNat
  let moved := if pad = 0 then [] else s.stream.slice (start + 8 + pad) (s.rem.toNat - pad - 8)
  { s with
    stream := (s.stream.writeBytes start (pointerLine s.params.opc found)).writeBytes (start + 8) moved
    rem := s.rem - BitVec.ofNat 32 pad }

/-- SearchTemplate (R305 to R312): the cursor does not advance. -/
def execSearch (index startHi endHi : HalfWord) (template : List Byte) (s : State) : Result :=
  let result := searchTemplate index startHi endHi template s
  .next (rewriteStream result.1 (padded template.length) result.2)

end Sys2Proof.Machine
end

