-- ==== Sys2Proof/Machine/Timer.lean ====
section
/-! DEFINITION. Timer gating and stream control (`44_timer_stream_control.md` R230 to R235). -/

namespace Sys2Proof.Machine

/-- Whether AddTimeDependence gates its block off in this run (R231); no division when the delay is 0. -/
def timerSkips (delay : Word) (s : State) : Bool := delay != 0 && s.executionCount % delay != 0

/-- AddTimeDependence (R231): the delay is stored in every case. -/
def execTimedep (delay : Word) (s : State) : Result :=
  let t := advance 8 { s with timeDependenceDelay := delay }
  .next (if timerSkips delay s then skipTo .resetTimer t else t)

/-- ResetTimer (R232). -/
def execResettimer (s : State) : Result := .next (advance 8 { s with timeDependenceDelay := 0 })

/-- Terminator (R233). -/
def execTerm (s : State) : Result := .next (advance 8 { s with conditionFlag := false, loadedPointer := 0 })

/-- NoOperation (R234). -/
def execNop (s : State) : Result := .next (advance 8 s)

/-- TimerTermination (R235). -/
def execTimerterm (s : State) : Result := .next (advance 8 s)

end Sys2Proof.Machine
end

