-- ==== Sys2Proof/Machine/Transfers.lean ====
section
/-! DEFINITION. Register load and store (`45_registers_arith.md` R245 to R250). -/

namespace Sys2Proof.Machine

/-- LoadInteger (R247): the value read is zero-extended and replaces the whole register. -/
def execLdi (p : PointerMode) (sz : ValueSize) (r : Reg) (addr : Word) (s : State) : Result :=
  .next (advance 8
    (if gate p s then
      let answer := memRead sz (effectiveAddress p addr s) s
      setIreg r answer.1 answer.2
    else s))

/-- StoreInteger (R248). -/
def execSti (p : PointerMode) (sz : ValueSize) (r : Reg) (addr : Word) (s : State) : Result :=
  .next (advance 8 (if gate p s then memWrite sz (effectiveAddress p addr s) (s.ireg.get r) s else s))

/-- LoadFloat (R249): the pattern unchanged. -/
def execLdf (p : PointerMode) (r : Reg) (addr : Word) (s : State) : Result :=
  .next (advance 8
    (if gate p s then
      let answer := memRead .word (effectiveAddress p addr s) s
      setFreg r answer.1 answer.2
    else s))

/-- StoreFloat (R250). -/
def execStf (p : PointerMode) (r : Reg) (addr : Word) (s : State) : Result :=
  .next (advance 8 (if gate p s then memWrite .word (effectiveAddress p addr s) (s.freg.get r) s else s))

end Sys2Proof.Machine
end

