-- ==== Sys2Proof/Machine/Writes.lean ====
section
/-! DEFINITION. The write instructions (`42_writes.md` R190 to R195). -/

namespace Sys2Proof.Machine

/-- The one-byte writes of StringWrite, at ascending addresses (R192). -/
def writeString : List Byte → Word → State → State
  | [], _, s => s
  | b :: bs, a, s => writeString bs (a + 1) (memWrite .byte a (b.setWidth 32) s)

/-- `count` writes of a running value, stepping value and address modulo 2^32 (R193, R194). -/
def writeSeries (sz : ValueSize) (stride incr : Word) : Nat → Word → Word → State → State
  | 0, _, _, s => s
  | n + 1, a, v, s => writeSeries sz stride incr n (a + stride) (v + incr) (memWrite sz a v s)

/-- One iteration of Corrupter: a read, and a write after a match (R195). -/
def corruptWord (find repl a : Word) (s : State) : State :=
  let answer := memRead .word a s
  if answer.1 = find then memWrite .word a repl answer.2 else answer.2

/-- `n` iterations of Corrupter from address `a` (R195). -/
def corruptLoop (find repl : Word) : Nat → Word → State → State
  | 0, _, s => s
  | n + 1, a, s => corruptLoop find repl n (a + 4) (corruptWord find repl a s)

/-- The iterations of Corrupter: `ceil((END - BEGIN) / 4)` when `BEGIN < END`, else none (R195). -/
def corruptCount (first limit : Word) : Nat := (limit.toNat - first.toNat + 3) / 4

/-- RamWrite (R191). -/
def execRamwrite (p : PointerMode) (sz : ValueSize) (addr value : Word) (s : State) : Result :=
  .next (advance 16 (if gate p s then memWrite sz (effectiveAddress p addr s) value s else s))

/-- StringWrite (R192). -/
def execStrwrite (p : PointerMode) (addr : Word) (data : List Byte) (s : State) : Result :=
  .next (advance (8 + padded data.length)
    (if gate p s then writeString data (effectiveAddress p addr s) s else s))

/-- SkipWrite (R193). -/
def execSkipwrite (p : PointerMode) (sz : ValueSize) (count : HalfWord) (addr value stride incr : Word)
    (s : State) : Result :=
  .next (advance 24
    (if gate p s then writeSeries sz stride incr count.toNat (effectiveAddress p addr s) value s else s))

/-- FillMemoryArea (R194): step 4, increment 0, `floor(SPAN / 4)` words. -/
def execFill (p : PointerMode) (addr value span : Word) (s : State) : Result :=
  .next (advance 16
    (if gate p s then writeSeries .word 4 0 (span.toNat / 4) (effectiveAddress p addr s) value s else s))

/-- Corrupter (R195). -/
def execCorrupt (first limit find repl : Word) (s : State) : Result :=
  .next (advance 24
    (if gate .noPointer s then corruptLoop find repl (corruptCount first limit) first s else s))

end Sys2Proof.Machine
end

