-- ==== Sys2Proof/Machine/Dispatch.lean ====
section
/-! DEFINITION. One arm per instruction, each one call of its meaning. -/

namespace Sys2Proof.Machine

def exec (i : Instr) (s : State) : Host.Outcome State Fault Refusal :=
  match i with
  | .ramwrite p sz addr value => Sys2Proof.Machine.execRamwrite p sz addr value s
  | .strwrite p addr data => Sys2Proof.Machine.execStrwrite p addr data s
  | .skipwrite p sz count addr value stride incr => Sys2Proof.Machine.execSkipwrite p sz count addr value stride incr s
  | .ifeq p sz addr value => Sys2Proof.Machine.execIfeq p sz addr value s
  | .ifne p sz addr value => Sys2Proof.Machine.execIfne p sz addr value s
  | .ifgt p sz addr value => Sys2Proof.Machine.execIfgt p sz addr value s
  | .iflt p sz addr value => Sys2Proof.Machine.execIflt p sz addr value s
  | .ifge p sz addr value => Sys2Proof.Machine.execIfge p sz addr value s
  | .ifle p sz addr value => Sys2Proof.Machine.execIfle p sz addr value s
  | .ifand p sz addr value => Sys2Proof.Machine.execIfand p sz addr value s
  | .ifor p sz addr value => Sys2Proof.Machine.execIfor p sz addr value s
  | .ifbetween p sz addr lower upper => Sys2Proof.Machine.execIfbetween p sz addr lower upper s
  | .timedep delay => Sys2Proof.Machine.execTimedep delay s
  | .resettimer => Sys2Proof.Machine.execResettimer s
  | .ldi p sz r addr => Sys2Proof.Machine.execLdi p sz r addr s
  | .sti p sz r addr => Sys2Proof.Machine.execSti p sz r addr s
  | .ldf p r addr => Sys2Proof.Machine.execLdf p r addr s
  | .stf p r addr => Sys2Proof.Machine.execStf p r addr s
  | .iadd d r => Sys2Proof.Machine.execIadd d r s
  | .isub d r => Sys2Proof.Machine.execIsub d r s
  | .imul d r => Sys2Proof.Machine.execImul d r s
  | .idiv d r => Sys2Proof.Machine.execIdiv d r s
  | .iaddi d value => Sys2Proof.Machine.execIaddi d value s
  | .isubi d value => Sys2Proof.Machine.execIsubi d value s
  | .imuli d value => Sys2Proof.Machine.execImuli d value s
  | .idivi d value => Sys2Proof.Machine.execIdivi d value s
  | .fadd d r => Sys2Proof.Machine.execFadd d r s
  | .fsub d r => Sys2Proof.Machine.execFsub d r s
  | .fmul d r => Sys2Proof.Machine.execFmul d r s
  | .fdiv d r => Sys2Proof.Machine.execFdiv d r s
  | .faddi d value => Sys2Proof.Machine.execFaddi d value s
  | .fsubi d value => Sys2Proof.Machine.execFsubi d value s
  | .fmuli d value => Sys2Proof.Machine.execFmuli d value s
  | .fdivi d value => Sys2Proof.Machine.execFdivi d value s
  | .f2i d r => Sys2Proof.Machine.execF2i d r s
  | .fill p addr value span => Sys2Proof.Machine.execFill p addr value span s
  | .ldptr p addr lower upper => Sys2Proof.Machine.execLdptr p addr lower upper s
  | .addptr offset => Sys2Proof.Machine.execAddptr offset s
  | .ldptrd addr => Sys2Proof.Machine.execLdptrd addr s
  | .search index startHi endHi template => Sys2Proof.Machine.execSearch index startHi endHi template s
  | .execasm payload => Sys2Proof.Machine.execExecasm payload s
  | .syscall code => Sys2Proof.Machine.execSyscall code s
  | .term => Sys2Proof.Machine.execTerm s
  | .nop => Sys2Proof.Machine.execNop s
  | .timerterm => Sys2Proof.Machine.execTimerterm s
  | .corrupt first limit find repl => Sys2Proof.Machine.execCorrupt first limit find repl s
  | .call rlo rhi target args => Sys2Proof.Machine.execCall rlo rhi target args s

end Sys2Proof.Machine
end

