-- ==== Sys2Proof/Machine/Fetch.lean ====
section
/-! DEFINITION. The phases CHECK, FETCH and VALIDATE of one iteration (`41_dispatch_fsm.md` R162 to R168): what the block
does before it executes an instruction. -/

namespace Sys2Proof.Machine

/-- The fault code of a decode error (R320). -/
def decodeFaultCode : DecodeError → FaultCode
  | .unknownOpcode _ => .unknownOpcode
  | .badPointerMode _ => .badPointerMode
  | .badValueSize _ => .badValueSize
  | .badSubopcode _ => .badSubopcode
  | .registerRange _ => .registerRange
  | .argcountRange _ => .argcountRange
  | .truncated _ => .truncated

/-- The `fault_info` of a decode error (R320). -/
def decodeFaultInfo : DecodeError → Word
  | .unknownOpcode b => b.setWidth 32
  | .badPointerMode p => p.setWidth 32
  | .badValueSize sz => sz.setWidth 32
  | .badSubopcode t => t.setWidth 32
  | .registerRange r => r.setWidth 32
  | .argcountRange n => n.setWidth 32
  | .truncated n => BitVec.ofNat 32 n

/-- What CHECK, FETCH and VALIDATE find. -/
inductive FetchResult where
  /-- the window leaves the stream buffer (log 18) -/
  | outside
  /-- `rem = 0`: the run ends (R164) -/
  | finished
  /-- a fatal error of CHECK, FETCH or VALIDATE (R168) -/
  | fatal (code : FaultCode) (info : Word)
  /-- the instruction to execute -/
  | instruction (i : Instr)
deriving DecidableEq, Repr

/-- CHECK, FETCH and VALIDATE, in the order of R162 and R168. -/
def fetchInstruction (s : State) : FetchResult :=
  if s.rem = 0 then .finished
  else if s.streamMax < s.logicalLength then .outside
  else if s.rem.toNat % 8 ≠ 0 then .fatal .badLength s.rem
  else
    match decode s.params.opc s.remaining with
    | .error e => .fatal (decodeFaultCode e) (decodeFaultInfo e)
    | .ok i => .instruction i

/-- An instruction of the opcode table placed at the cursor of a running block, the run ending right after it: what a
host's `load` and `run` do for a stream that holds that instruction alone (R340, R352, log 21). -/
def placeInstruction (s : State) (nbits w : Nat) : State :=
  { s with
    stream := s.stream.writeBytes s.pc.toNat (tableBytes s.params.opc nbits w)
    rem := BitVec.ofNat 32 (tableLength s.params.opc nbits w)
    runState := .running
    host := [] }

end Sys2Proof.Machine
end

