-- ==== Sys2Proof/Machine/HostPort.lean ====
section
/-! DEFINITION. The host's commands (`60_exceptions.md` R333, R340, `70_reset_and_hazards.md` R350 to R353) and the inputs
it drives (`10_state.md` R32). -/

namespace Sys2Proof.Machine

/-- Whether `run(L)` is accepted (R340). -/
def runAccepted (length : Word) (s : State) : Bool :=
  (s.runState == .idle || s.runState == .done) && decide (length.toNat ≤ s.streamMax)

/-- `run(L)`: run start, or refused by the block without any change (R35, R340). -/
def hostRun (length : Word) (s : State) : State := if runAccepted length s then startRun length s else s

/-- `load(i, b)` (R340): the model refuses it during a run and outside the buffer (U8, log 17). -/
def hostLoad (index : Word) (value : Byte) (s : State) : Result :=
  if s.runState = .running then .refused .loadWhileRunning
  else if index.toNat < s.streamMax then
    .next { s with stream := s.stream.write index.toNat value }
  else .refused .loadOutsideBuffer

/-- Driving `access_enable` (R32, R352): the model refuses a change during a run (U13, log 17). -/
def hostDrive (enable : Bool) (s : State) : Result :=
  if s.runState = .running ∧ enable ≠ s.accessEnable then .refused .accessEnableWhileRunning
  else .next { s with accessEnable := enable }

/-- A host event other than a pause. -/
def hostCommand (e : HostEvent) (s : State) : Result :=
  match e with
  | .pause => .next s
  | .reinit => .next (initializeBlock s)
  | .load index value => hostLoad index value s
  | .run length => .next (hostRun length s)
  | .drive enable => hostDrive enable s

end Sys2Proof.Machine
end

