-- ==== Sys2Proof/Machine/Step.lean ====
section
/-! DEFINITION. One step of the machine: the host's command at this step boundary, or one iteration of the dispatch loop
(`41_dispatch_fsm.md` R162). A block that is not running executes no step (R30, R335): its state stays (log 15). -/

namespace Sys2Proof.Machine

/-- One iteration of the dispatch loop when the block is running (R162). -/
def blockStep (s : State) : Host.Outcome State Fault Refusal :=
  match s.runState with
  | .running =>
    match fetchInstruction s with
    | .outside => .fault .streamRange
    | .finished => .next (finishRun s)
    | .fatal code info => .next (raiseFatal code info s)
    | .instruction i => exec i s
  | .idle | .done | .fatal => .next s

/-- One step: what the host does at this boundary comes first; a pause, or no event, leaves the step to the block. -/
def step (s : State) : Host.Outcome State Fault Refusal :=
  match s.host with
  | [] => blockStep s
  | .pause :: es => blockStep { s with host := es }
  | e :: es => hostCommand e { s with host := es }

/-- The state with an instruction of `spec/opcode_table.json` where the next step fetches (log 21). -/
def State.withFetchWord (s : State) (nbits w : Nat) : State := placeInstruction s nbits w

end Sys2Proof.Machine
end

