-- ==== Sys2Proof/Safety.lean ====
section
/-! DEFINITION. The terms the statements use: the invariant of a sound state, and the spec's own words for the gate, sized
values, the layout of values in memory, series of port accesses, the scanner's matches, the conclusion of a conditional,
the search and its reads, and binary32 rounding, each written from the spec and not from the meanings. -/

namespace Sys2Proof.Machine

/-! ## The sound state -/

/-- The invariant of the block's state. -/
structure State.Inv (s : State) : Prop where
  /-- The opcode map is legal (R97). -/
  opcodes : s.params.opc.legal
  /-- The reference memory has its canonical form (log 9). -/
  memory : s.foreign.mem.wf
  /-- The stream buffer lists bytes of the buffer only, in rising order (R25). -/
  stream : s.stream.wf s.streamMax
  /-- The logical stream lies inside the buffer (R23, R76). -/
  window : s.logicalLength ≤ s.streamMax
  /-- In a run the logical length is whole lines, but for a run whose length was not a multiple of 8, which is still at
  its start (R163, R176). -/
  lines : s.runState = .running → s.logicalLength % 8 = 0 ∨ s.pc = 0
  /-- The fatal state is the state with a fault recorded (R30, R31, R334). -/
  fatal : s.runState = .fatal ↔ s.fault.code ≠ .none
  /-- With no fault recorded the whole record is clear (R31). -/
  record : s.fault.code = .none → s.fault = .clear
  /-- A finished run has consumed its stream (R164). -/
  done : s.runState = .done → s.rem = 0
  /-- IDLE is the state after `initialize` (R30, R34). -/
  idle : s.runState = .idle → initializeBlock s = s

/-- A byte of the stream at an index. -/
def State.streamByte (s : State) (i : Nat) : Byte := s.stream.read i

/-- A byte of foreign memory. -/
def State.foreignByte (s : State) (a : Word) : Byte := s.foreign.mem.read a

/-- `t` differs from `s` in the foreign system alone: what a port operation may change (R40). -/
def onlyForeign (s t : State) : Prop := t = { s with foreign := t.foreign }

/-! ## The gate and the operands -/

/-- `gate(P)` of R144 holds: accesses are enabled, and a pointer-mode operand has a loaded pointer. -/
def GateOpen (p : PointerMode) (s : State) : Prop := s.accessEnable = true ∧ (p = .pointer → s.loadedPointer ≠ 0)

/-- The pointer mode with which an instruction consults the gate (R144): none for the instructions that are not gated,
and none for SearchTemplate, whose rewrite is not (R309). -/
def gateMode : Instr → Option PointerMode
  | .ramwrite p .. | .strwrite p .. | .skipwrite p .. | .fill p .. | .ifeq p .. | .ifne p .. | .ifgt p ..
  | .iflt p .. | .ifge p .. | .ifle p .. | .ifand p .. | .ifor p .. | .ifbetween p .. | .ldi p .. | .sti p ..
  | .ldf p .. | .stf p .. | .ldptr p .. => some p
  | .execasm .. | .syscall .. | .call .. | .corrupt .. => some .noPointer
  | .search .. | .timedep .. | .resettimer | .iadd .. | .isub .. | .imul .. | .idiv .. | .iaddi .. | .isubi ..
  | .imuli .. | .idivi .. | .fadd .. | .fsub .. | .fmul .. | .fdiv .. | .faddi .. | .fsubi .. | .fmuli ..
  | .fdivi .. | .f2i .. | .addptr .. | .ldptrd .. | .term | .nop | .timerterm => none

/-- `trunc_{8s}(v)` as a number (R104, R146). -/
def sized (sz : ValueSize) (v : Word) : Nat := v.toNat % 2 ^ (8 * sz.bytes)

/-- The byte a sized value has at offset `k` from its address, in a byte order (R63). -/
def orderedByte (order : ByteOrder) (sz : ValueSize) (v : Word) (k : Nat) : Byte :=
  match order with
  | .be => v.extractLsb' (8 * (sz.bytes - 1 - k)) 8
  | .le => v.extractLsb' (8 * k) 8

/-- The address `k` bytes above `a`, modulo 2^32 (R63). -/
def offset (a : Word) (k : Nat) : Word := a + BitVec.ofNat 32 k

/-- `t` is `s` with a sized value stored at an address: its bytes in the collaborator's order under the reference memory
(R63), every other byte as before. -/
def StoresValue (sz : ValueSize) (a v : Word) (s t : State) : Prop :=
  (∀ order, s.foreign.collaborator = .reference order →
    ∀ k < sz.bytes, t.foreignByte (offset a k) = orderedByte order sz v k) ∧
  ∀ b, (∀ k < sz.bytes, b ≠ offset a k) → t.foreignByte b = s.foreignByte b

/-- `t` is `s` after an `n`-byte instruction whose one foreign access stores a sized value: the cursor moves, one write
transaction is issued, memory takes the value, nothing else changes. -/
def StoreEffect (n : Nat) (sz : ValueSize) (a v : Word) (s t : State) : Prop :=
  t = { s with
    pc := s.pc + BitVec.ofNat 32 n
    rem := s.rem - BitVec.ofNat 32 n
    foreign.mem := t.foreign.mem
    foreign.log := .write a sz (BitVec.ofNat 32 (sized sz v)) :: s.foreign.log } ∧
  StoresValue sz a v s t

/-- The address and the value of the `i`-th write of a series (R193). -/
def seriesTerm (start step : Word) (i : Nat) : Word := start + BitVec.ofNat 32 i * step

/-- `t` is `s` after an `n`-byte instruction that writes `count` sized values, the `i`-th at `a + i * stride` with the value
`v + i * incr`: the transactions in order, each byte as the last write that covers it leaves it, every byte that no
write covers as before, nothing else changed (R193). -/
def SeriesEffect (n : Nat) (sz : ValueSize) (count : Nat) (a stride v incr : Word) (s t : State) : Prop :=
  t = { s with
    pc := s.pc + BitVec.ofNat 32 n
    rem := s.rem - BitVec.ofNat 32 n
    foreign.mem := t.foreign.mem
    foreign.log := ((List.range count).map fun i =>
      Transaction.write (seriesTerm a stride i) sz (BitVec.ofNat 32 (sized sz (seriesTerm v incr i)))).reverse
      ++ s.foreign.log } ∧
  (∀ order, s.foreign.collaborator = .reference order → ∀ i < count, ∀ k < sz.bytes,
    (∀ j, i < j → j < count → ∀ l < sz.bytes,
      offset (seriesTerm a stride j) l ≠ offset (seriesTerm a stride i) k) →
    t.foreignByte (offset (seriesTerm a stride i) k) = orderedByte order sz (seriesTerm v incr i) k) ∧
  ∀ b, (∀ i < count, ∀ k < sz.bytes, b ≠ offset (seriesTerm a stride i) k) → t.foreignByte b = s.foreignByte b

/-- `w` is the value that stands at an address under the reference memory in a byte order (R63). -/
def HoldsValue (order : ByteOrder) (sz : ValueSize) (s : State) (a w : Word) : Prop :=
  w.toNat < 2 ^ (8 * sz.bytes) ∧ ∀ k < sz.bytes, s.foreignByte (offset a k) = orderedByte order sz w k

/-! ## Series of port accesses (R65, R69) -/

/-- One access of the foreign-memory port. -/
inductive PortAccess where
  | read (size : ValueSize) (addr : Word)
  | write (size : ValueSize) (addr value : Word)
deriving DecidableEq, Repr

/-- The state after one access. -/
def PortAccess.perform : PortAccess → State → State
  | .read sz a, s => (memRead sz a s).2
  | .write sz a v, s => memWrite sz a v s

/-- The state after a series of accesses, the first one first. -/
def performAll (xs : List PortAccess) (s : State) : State := xs.foldl (fun s x => x.perform s) s

/-- The access writes a byte of foreign memory. -/
def PortAccess.Writes (x : PortAccess) (b : Word) : Prop :=
  match x with
  | .read .. => False
  | .write sz a _ => ∃ k < sz.bytes, b = offset a k

/-- What an arbitrary collaborator answers to the `k`-th read from now on, before it is cut to the size of the access: the
answers fixed in advance, then the free values (log 10). -/
def nextAnswer (s : State) (k : Nat) : Word :=
  match s.foreign.readAnswers[k]? with
  | some v => v
  | none => Config.foreignRead (s.foreign.draws + (k - s.foreign.readAnswers.length))

/-- `t` is `s` with the answers to `n` reads used up (log 10). -/
def AnswersUsed (n : Nat) (s t : State) : Prop :=
  t.foreign.readAnswers = s.foreign.readAnswers.drop n ∧
  t.foreign.draws = s.foreign.draws + (n - s.foreign.readAnswers.length)

/-! ## Registers an instruction may write (R21, R22, R40) -/

/-- The integer registers an instruction writes. -/
def integerTargets : Instr → List Reg
  | .ldi _ _ r _ => [r]
  | .iadd d _ | .isub d _ | .imul d _ | .idiv d _ | .iaddi d _ | .isubi d _ | .imuli d _ | .idivi d _ => [d]
  | .f2i d _ => [d]
  | .call rlo rhi _ _ => [rlo, rhi]
  | .ramwrite .. | .strwrite .. | .skipwrite .. | .fill .. | .corrupt .. | .ifeq .. | .ifne .. | .ifgt .. | .iflt ..
  | .ifge .. | .ifle .. | .ifand .. | .ifor .. | .ifbetween .. | .timedep .. | .resettimer | .sti .. | .ldf ..
  | .stf .. | .fadd .. | .fsub .. | .fmul .. | .fdiv .. | .faddi .. | .fsubi .. | .fmuli .. | .fdivi .. | .ldptr ..
  | .addptr .. | .ldptrd .. | .search .. | .execasm .. | .syscall .. | .term | .nop | .timerterm => []

/-- The float registers an instruction writes. -/
def floatTargets : Instr → List Reg
  | .ldf _ r _ => [r]
  | .fadd d _ | .fsub d _ | .fmul d _ | .fdiv d _ | .faddi d _ | .fsubi d _ | .fmuli d _ | .fdivi d _ => [d]
  | .ramwrite .. | .strwrite .. | .skipwrite .. | .fill .. | .corrupt .. | .ifeq .. | .ifne .. | .ifgt .. | .iflt ..
  | .ifge .. | .ifle .. | .ifand .. | .ifor .. | .ifbetween .. | .timedep .. | .resettimer | .ldi .. | .sti ..
  | .stf .. | .iadd .. | .isub .. | .imul .. | .idiv .. | .iaddi .. | .isubi .. | .imuli .. | .idivi .. | .f2i ..
  | .ldptr .. | .addptr .. | .ldptrd .. | .search .. | .execasm .. | .syscall .. | .call .. | .term | .nop
  | .timerterm => []

/-- The nine conditionals (R210). -/
def isConditional : Instr → Bool
  | .ifeq .. | .ifne .. | .ifgt .. | .iflt .. | .ifge .. | .ifle .. | .ifand .. | .ifor .. | .ifbetween .. => true
  | .ramwrite .. | .strwrite .. | .skipwrite .. | .fill .. | .corrupt .. | .timedep .. | .resettimer | .ldi ..
  | .sti .. | .ldf .. | .stf .. | .iadd .. | .isub .. | .imul .. | .idiv .. | .iaddi .. | .isubi .. | .imuli ..
  | .idivi .. | .fadd .. | .fsub .. | .fmul .. | .fdiv .. | .faddi .. | .fsubi .. | .fmuli .. | .fdivi .. | .f2i ..
  | .ldptr .. | .addptr .. | .ldptrd .. | .search .. | .execasm .. | .syscall .. | .call .. | .term | .nop
  | .timerterm => false

/-! ## The fatal transition, the skips -/

/-- The 8 bytes at the cursor when the logical stream holds them, else zeros (R31). -/
def bytesAtCursor (s : State) : Vector Byte 8 :=
  if 8 ≤ s.rem.toNat then Vector.ofFn fun k => s.streamByte (s.pc.toNat + k.val) else Vector.replicate 8 0

/-- The state a fatal error leaves (R334). -/
def fatalState (code : FaultCode) (info : Word) (s : State) : State :=
  { s with
    fault := { code := code, pc := s.pc, info := info, bytes := bytesAtCursor s }
    runState := .fatal
    foreign.log := .fatal { code := code, pc := s.pc, info := info, bytes := bytesAtCursor s } :: s.foreign.log }

/-- The terminator line (R101, R169). -/
def terminatorLine : List Byte := [0xD0, 0x00, 0x00, 0x00, 0xDE, 0xAD, 0xCA, 0xFE]

/-- The reset-timer line (R101, R169). -/
def resetTimerLine : List Byte := [0x0D, 0x00, 0x00, 0x00, 0x00, 0x00, 0x00, 0x00]

/-- The pattern stands at offset `k` from the cursor, wholly inside the logical stream (R170). -/
def MatchesAt (pattern : List Byte) (s : State) (k : Nat) : Prop :=
  k + pattern.length ≤ s.rem.toNat ∧
  ∀ j (h : j < pattern.length), s.streamByte (s.pc.toNat + k + j) = pattern[j]

/-- `u` is `s` after `skip_to` (R171): at the first match, or fatal when there is none. -/
def Skips (pattern : List Byte) (code : FaultCode) (info : Word) (s u : State) : Prop :=
  (∀ k, MatchesAt pattern s k → (∀ j < k, ¬ MatchesAt pattern s j) →
    u = { s with pc := s.pc + BitVec.ofNat 32 k, rem := s.rem - BitVec.ofNat 32 k }) ∧
  ((∀ k, ¬ MatchesAt pattern s k) → u = fatalState code info s)

/-- `u` is `s` after a conditional whose read is done and whose comparison gave `c` (R210, R212, R324). -/
def Concludes (c : Prop) (s u : State) : Prop :=
  (c → u = { s with conditionFlag := true, pc := s.pc + 16, rem := s.rem - 16 }) ∧
  (¬ c → Skips terminatorLine .unterminatedConditional 0xD0
    { s with conditionFlag := false, pc := s.pc + 16, rem := s.rem - 16 } u)

/-- With its gate open, the conditional `i` reads its operand once and concludes with the predicate `cond` on the value
read (R210). -/
def ConditionalTests (i : Instr) (p : PointerMode) (sz : ValueSize) (addr : Word) (s : State)
    (cond : Word → Prop) : Prop :=
  ∃ u, exec i s = .next u ∧
    Concludes (cond (memRead sz (effectiveAddress p addr s) s).1) (memRead sz (effectiveAddress p addr s) s).2 u

/-! ## Calls and the search -/

/-- The 64-bit value the next foreign call returns (R290): an answer fixed in advance, or a free value (log 11). -/
def nextReturn (s : State) : BitVec 64 :=
  match s.foreign.callAnswers with
  | c :: _ => c.result
  | [] => Config.foreignReturn s.foreign.draws

/-- What a call transaction does to the foreign system (R290, R294): the transaction is issued, an answer fixed in advance
is used up, and foreign memory may change: where the answer is fixed, at the addresses it lists only; with none left
it may hold anything (log 11). -/
def CallEffect (x : Transaction) (s t : State) : Prop :=
  t.foreign.log = x :: s.foreign.log ∧
  t.foreign.collaborator = s.foreign.collaborator ∧
  t.foreign.readAnswers = s.foreign.readAnswers ∧
  match s.foreign.callAnswers with
  | c :: cs =>
    t.foreign.callAnswers = cs ∧ t.foreign.draws = s.foreign.draws ∧
      ∀ b, (∀ w ∈ c.writes, w.1 ≠ b) → t.foreignByte b = s.foreignByte b
  | [] => t.foreign.callAnswers = [] ∧ t.foreign.draws = s.foreign.draws + 1

/-- The template stands at an address of foreign memory (R307). -/
def TemplateAt (template : List Byte) (s : State) (a : Word) : Prop :=
  ∀ j (h : j < template.length), s.foreignByte (offset a j) = template[j]

/-- `a` is a candidate of the search: the template lies wholly inside the range, no wrap (R307). An empty template with
`start = end` has the candidate `start` (DESIGN CHOICE, log 29). -/
def Candidate (startHi endHi : HalfWord) (template : List Byte) (a : Nat) : Prop :=
  startHi.toNat * 65536 ≤ a ∧ a + template.length ≤ endHi.toNat * 65536

/-- `a` is the candidate that matches with exactly `n` matching candidates below it (R307). -/
def NthMatch (startHi endHi : HalfWord) (template : List Byte) (s : State) (n a : Nat) : Prop :=
  Candidate startHi endHi template a ∧ TemplateAt template s (BitVec.ofNat 32 a) ∧
  ∃ earlier : Finset Nat, earlier.card = n ∧
    ∀ b, b ∈ earlier ↔ b < a ∧ Candidate startHi endHi template b ∧ TemplateAt template s (BitVec.ofNat 32 b)

/-- How many bytes of a candidate are read under the reference memory: up to the first mismatch, and with it (R308). -/
def comparedBytes (template : List Byte) (s : State) (a : Word) : Nat :=
  min template.length
    ((List.range template.length).findIdx (fun j => s.foreignByte (offset a j) != template.getD j 0) + 1)

/-- The reads of one candidate under the reference memory, in order (R308). -/
def candidateReads (template : List Byte) (s : State) (a : Word) : List Transaction :=
  (List.range (comparedBytes template s a)).map fun j =>
    .read (offset a j) .byte ((s.foreignByte (offset a j)).setWidth 32)

/-- The reads of one candidate whoever answers (R308): one byte at a time in ascending order, all equal to the template's
on a hit, otherwise equal ones and then the first that differs. -/
def CandidateReads (template : List Byte) (a : Word) (reads : List Transaction) (hit : Bool) : Prop :=
  let equal := fun n : Nat => (List.range n).map fun j =>
    Transaction.read (offset a j) .byte ((template.getD j 0).setWidth 32)
  if hit then reads = equal template.length
  else ∃ j w, j < template.length ∧ w.toNat < 256 ∧ w ≠ (template.getD j 0).setWidth 32 ∧
    reads = equal j ++ [.read (offset a j) .byte w]

/-- The candidates a search visits whoever answers, each with its reads and whether it matched (R307, R308): from `start`
upward, either up to the match with `index` matches before it, which is found, or all of them with too few matches,
which finds 0. -/
def SearchVisits (start candidates : Nat) (template : List Byte) (index : Nat) (found : Word)
    (visits : List (List Transaction × Bool)) : Prop :=
  visits.length ≤ candidates ∧
  (∀ i reads hit, visits[i]? = some (reads, hit) →
    CandidateReads template (BitVec.ofNat 32 (start + i)) reads hit) ∧
  (visits.countP (·.2) = index + 1 ∧ visits.getLast?.map (·.2) = some true ∧
      found = BitVec.ofNat 32 (start + (visits.length - 1)) ∨
    visits.length = candidates ∧ visits.countP (·.2) ≤ index ∧ found = 0)

/-! ## binary32 (R271) -/

/-- A finite binary32 pattern. -/
def IsFinite (f : Word) : Prop := (f.extractLsb' 23 8).toNat ≠ 255

/-- A quiet NaN pattern: exponent all ones, top fraction bit set. -/
def IsQuietNaN (f : Word) : Prop := (f.extractLsb' 23 8).toNat = 255 ∧ f.getLsbD 22 = true

/-- A NaN pattern, quiet or signalling. -/
def IsNaN (f : Word) : Prop := (f.extractLsb' 23 8).toNat = 255 ∧ (f.extractLsb' 0 23).toNat ≠ 0

/-- The infinity of a sign. -/
def infinity (sign : Bool) : Word := if sign then 0xFF800000 else 0x7F800000

/-- The zero of a sign. -/
def zero (sign : Bool) : Word := if sign then 0x80000000 else 0x00000000

/-- The number a finite pattern stands for. -/
def floatValue (f : Word) : ℚ :=
  (if f.getLsbD 31 then -1 else 1) *
    (if (f.extractLsb' 23 8).toNat = 0 then ((f.extractLsb' 0 23).toNat : ℚ) / 2 ^ 149
     else ((2 ^ 23 + (f.extractLsb' 0 23).toNat : ℕ) : ℚ) * 2 ^ (f.extractLsb' 23 8).toNat / 2 ^ 150)

/-- `r` is the number `x` rounded to binary32, to nearest with ties to even, `sign` being the sign of a zero result:
past the midpoint above the largest finite number it is an infinity; otherwise no finite pattern is nearer, and of two
nearest numbers `r` is the one with the even significand. -/
def RoundsTo (x : ℚ) (sign : Bool) (r : Word) : Prop :=
  if 2 ^ 128 - 2 ^ 103 ≤ |x| then r = infinity sign
  else
    IsFinite r ∧ r.getLsbD 31 = sign ∧
    (∀ g, IsFinite g → |x - floatValue r| ≤ |x - floatValue g|) ∧
    ∀ g, IsFinite g → floatValue g ≠ floatValue r → |x - floatValue g| = |x - floatValue r| → r.getLsbD 0 = false

/-- A rational number truncated toward zero (R270). -/
def truncateToward (x : ℚ) : Int := if x < 0 then ⌈x⌉ else ⌊x⌋

end Sys2Proof.Machine
end

