-- ==== Sys2Proof/Certificates/Slice0/Obligations.lean ====
section
/-! DEFINITION. The statements for the provers. Each says what the rules of `spec/` named in its docstring say of the
model; where a clause rests on a choice of the model its docstring names the log entry. -/

section

open Sys2Proof Sys2Proof.Machine

/-! ## Encoding -/

/-- Decoding the encoding of a well-formed instruction gives the instruction, whatever bytes follow, for every legal opcode
map (R97 to R99). -/
def Obligations.DecodeInvertsEncode : Prop :=
  ∀ m : OpcodeMap, m.legal → ∀ i : Instr, i.wellFormed = true → ∀ tail, decode m (encode m i ++ tail) = .ok i

/-- What the decoder accepts is a well-formed instruction that lies wholly inside the bytes it was given (R102, R166). -/
def Obligations.DecodedInstructionFits : Prop :=
  ∀ m bs i, decode m bs = .ok i → i.wellFormed = true ∧ i.length ≤ bs.length

/-- Decoding depends on the instruction's own bytes only (R138). -/
def Obligations.DecodingReadsOnlyItsOwnBytes : Prop :=
  ∀ m bs i, decode m bs = .ok i → ∀ tail, decode m (bs.take i.length ++ tail) = .ok i

/-- The one-line formats MARK, IMM, SYS, ARITH and REG, every ignored byte and nibble taking any value (R95, R98, R101). -/
def Obligations.OneLineFormatsDecode : Prop :=
  ∀ m : OpcodeMap, m.legal → ∀ (x1 x2 x3 x4 x5 x6 x7 : Byte) (rest : List Byte),
    (∀ e ∈ [(Opcode.resettimer, Instr.resettimer), (.term, .term), (.nop, .nop), (.timerterm, .timerterm)],
      decode m ([m.value e.1, x1, x2, x3, x4, x5, x6, x7] ++ rest) = .ok e.2) ∧
    (∀ v, ∀ e ∈ [(Opcode.timedep, Instr.timedep), (.addptr, .addptr), (.ldptrd, .ldptrd)],
      decode m ([m.value e.1, x1, x2, x3] ++ be32Bytes v ++ rest) = .ok (e.2 v)) ∧
    (∀ c, decode m ([m.value .syscall, x1] ++ be16Bytes c ++ [x4, x5, x6, x7] ++ rest) = .ok (.syscall c)) ∧
    (∀ d r : Reg, ∀ e ∈ [((0 : Byte), Instr.iadd), (1, .isub), (2, .imul), (3, .idiv)],
      decode m ([m.value .integerOperation, e.1, regByte d, regByte r, x4, x5, x6, x7] ++ rest) = .ok (e.2 d r)) ∧
    (∀ d r : Reg, ∀ e ∈ [((0 : Byte), Instr.fadd), (1, .fsub), (2, .fmul), (3, .fdiv), (8, .f2i)],
      decode m ([m.value .floatOperation, e.1, regByte d, regByte r, x4, x5, x6, x7] ++ rest) = .ok (e.2 d r)) ∧
    (∀ (d : Reg) (v : Word), ∀ e ∈ [((4 : Byte), Instr.iaddi), (5, .isubi), (6, .imuli), (7, .idivi)],
      decode m ([m.value .integerOperation, e.1, regByte d, x3] ++ be32Bytes v ++ rest) = .ok (e.2 d v)) ∧
    (∀ (d : Reg) (v : Word), ∀ e ∈ [((4 : Byte), Instr.faddi), (5, .fsubi), (6, .fmuli), (7, .fdivi)],
      decode m ([m.value .floatOperation, e.1, regByte d, x3] ++ be32Bytes v ++ rest) = .ok (e.2 d v)) ∧
    (∀ (p : PointerMode) (sz : ValueSize) (r : Reg) (a : Word), ∀ e ∈ [(Opcode.ldi, Instr.ldi), (.sti, .sti)],
      decode m ([m.value e.1, p.nibble ++ sz.nibble, x2, regByte r] ++ be32Bytes a ++ rest) = .ok (e.2 p sz r a)) ∧
    (∀ (p : PointerMode) (n : BitVec 4) (r : Reg) (a : Word), ∀ e ∈ [(Opcode.ldf, Instr.ldf), (.stf, .stf)],
      decode m ([m.value e.1, p.nibble ++ n, x2, regByte r] ++ be32Bytes a ++ rest) = .ok (e.2 p r a))

/-- The fixed formats of several lines, OPD, SKIP and COR, every ignored byte and nibble taking any value (R95, R98). -/
def Obligations.OperandFormatsDecode : Prop :=
  ∀ m : OpcodeMap, m.legal → ∀ (p : PointerMode) (sz : ValueSize) (n : BitVec 4) (a v w u z : Word) (c : HalfWord)
    (x1 x2 x3 : Byte) (rest : List Byte),
    (∀ e ∈ [(Opcode.ramwrite, Instr.ramwrite), (.ifeq, .ifeq), (.ifne, .ifne), (.ifgt, .ifgt), (.iflt, .iflt),
        (.ifge, .ifge), (.ifle, .ifle), (.ifand, .ifand), (.ifor, .ifor)],
      decode m ([m.value e.1, p.nibble ++ sz.nibble, x2, x3] ++ be32Bytes a ++ be32Bytes v ++ be32Bytes w ++ rest)
        = .ok (e.2 p sz a v)) ∧
    decode m ([m.value .ifbetween, p.nibble ++ sz.nibble, x2, x3] ++ be32Bytes a ++ be32Bytes v ++ be32Bytes w ++ rest)
      = .ok (.ifbetween p sz a v w) ∧
    (∀ e ∈ [(Opcode.fill, Instr.fill), (.ldptr, .ldptr)],
      decode m ([m.value e.1, p.nibble ++ n, x2, x3] ++ be32Bytes a ++ be32Bytes v ++ be32Bytes w ++ rest)
        = .ok (e.2 p a v w)) ∧
    decode m ([m.value .skipwrite, p.nibble ++ sz.nibble] ++ be16Bytes c ++ be32Bytes a ++ be32Bytes v ++ be32Bytes w
      ++ be32Bytes u ++ be32Bytes z ++ rest) = .ok (.skipwrite p sz c a v w u) ∧
    decode m ([m.value .corrupt, x1, x2, x3] ++ be32Bytes a ++ be32Bytes v ++ be32Bytes w ++ be32Bytes u ++ be32Bytes z
      ++ rest) = .ok (.corrupt a v w u)

/-- The formats with a count field, STR, ASM, SRCH and CALL, padding and ignored bytes taking any value (R95, R98, R99). -/
def Obligations.CountedFormatsDecode : Prop :=
  ∀ m : OpcodeMap, m.legal → ∀ (p : PointerMode) (n : BitVec 4) (a : Word) (data pad rest : List Byte)
    (x1 x4 x5 x6 x7 : Byte),
    (data.length < 65536 → pad.length = padded data.length - data.length →
      decode m ([m.value .strwrite, p.nibble ++ n] ++ be16Bytes (BitVec.ofNat 16 data.length) ++ be32Bytes a ++ data
        ++ pad ++ rest) = .ok (.strwrite p a data)) ∧
    (∀ lines < 65536, data.length = 8 * lines →
      decode m ([m.value .execasm, x1] ++ be16Bytes (BitVec.ofNat 16 lines) ++ [x4, x5, x6, x7] ++ data ++ rest)
        = .ok (.execasm data)) ∧
    (∀ idx sh eh : HalfWord, data.length < 256 → pad.length = padded data.length - data.length →
      decode m ([m.value .search] ++ be16Bytes idx ++ [BitVec.ofNat 8 data.length] ++ be16Bytes sh ++ be16Bytes eh
        ++ data ++ pad ++ rest) = .ok (.search idx sh eh data)) ∧
    (∀ (rlo rhi : Reg) (args : List Word), args.length ≤ 8 → pad.length = 4 * (args.length % 2) →
      decode m ([m.value .call, regByte rlo, regByte rhi, BitVec.ofNat 8 args.length] ++ be32Bytes a
        ++ args.flatMap be32Bytes ++ pad ++ rest) = .ok (.call rlo rhi a args))

/-- A few words written out from the formats of R98 decode to the instructions they stand for under the default opcode map,
which is the model's choice of R97's defaults (log 1). One of them, a NoOperation with ignored bytes that are not zero,
rests on R95 and R101; the others stand in the spec's examples. -/
def Obligations.SampleWordsDecode : Prop :=
  decode .default [0x00, 0x02, 0, 0, 0x80, 0, 0x10, 0, 0, 0, 0, 0xAA, 0, 0, 0, 0]
    = .ok (.ramwrite .noPointer .word 0x80001000 0xAA) ∧
  decode .default [0x01, 0, 0, 3, 0x10, 0, 0, 0, 0x41, 0x42, 0x43, 0, 0, 0, 0, 0]
    = .ok (.strwrite .noPointer 0x10000000 [0x41, 0x42, 0x43]) ∧
  decode .default [0x0B, 0x02, 0, 0, 0x10, 0, 0, 0, 0, 0, 0, 0x10, 0, 0, 0, 0x20]
    = .ok (.ifbetween .noPointer .word 0x10000000 0x10 0x20) ∧
  decodeTableWord 64 0x1310000100000008 = some (.stf .pointer 1 8) ∧
  decodeTableWord 64 0x1508020500000000 = some (.f2i 2 5) ∧
  decodeTableWord 64 0xD1000000DEADCAFE = some .nop ∧
  decode .default [0xA8, 0, 0, 4, 0x10, 0, 0x10, 1, 0xDE, 0xAD, 0xBE, 0xEF, 0, 0, 0, 0]
    = .ok (.search 0 0x1000 0x1001 [0xDE, 0xAD, 0xBE, 0xEF]) ∧
  decode .default [0xF8, 0, 1, 1, 2, 0, 0, 0, 0, 0, 0, 0x2A, 0, 0, 0, 0] = .ok (.call 0 1 0x02000000 [0x2A])

/-- A first byte that is no value of the opcode map is rejected, and only such a byte (R96, R165, R323). -/
def Obligations.UnknownOpcodeIsRejected : Prop :=
  ∀ m b0 b1 b2 b3 b4 b5 b6 b7 rest,
    (∀ op, m.value op ≠ b0) ↔ decode m ([b0, b1, b2, b3, b4, b5, b6, b7] ++ rest) = .error (.unknownOpcode b0)

/-- A reserved pointer mode is reported first, then a reserved value size, before any other field, the length and the
gate are looked at (R93, R94, R168, R328, R329). -/
def Obligations.PointerModeAndSizeErrors : Prop :=
  ∀ m : OpcodeMap, m.legal → ∀ (b1 b2 b3 b4 b5 b6 b7 : Byte) (rest : List Byte),
    (∀ op ∈ [Opcode.ramwrite, .strwrite, .skipwrite, .ifeq, .ifne, .ifgt, .iflt, .ifge, .ifle, .ifand, .ifor,
        .ifbetween, .ldi, .sti, .ldf, .stf, .fill, .ldptr],
      2 ≤ b1.toNat / 16 →
        decode m ([m.value op, b1, b2, b3, b4, b5, b6, b7] ++ rest)
          = .error (.badPointerMode (BitVec.ofNat 4 (b1.toNat / 16)))) ∧
    (∀ op ∈ [Opcode.ramwrite, .skipwrite, .ifeq, .ifne, .ifgt, .iflt, .ifge, .ifle, .ifand, .ifor, .ifbetween, .ldi,
        .sti],
      b1.toNat / 16 < 2 → 3 ≤ b1.toNat % 16 →
        decode m ([m.value op, b1, b2, b3, b4, b5, b6, b7] ++ rest)
          = .error (.badValueSize (BitVec.ofNat 4 (b1.toNat % 16))))

/-- The register index and sub-opcode errors of the formats REG and ARITH, in the order of their bytes (R168, R246, R252,
R326, R330). -/
def Obligations.RegisterAndSubopcodeErrors : Prop :=
  ∀ m : OpcodeMap, m.legal → ∀ (b1 b2 b3 b4 b5 b6 b7 : Byte) (rest : List Byte),
    (∀ op ∈ [Opcode.ldi, .sti], b1.toNat / 16 < 2 → b1.toNat % 16 < 3 → 8 ≤ b3.toNat →
      decode m ([m.value op, b1, b2, b3, b4, b5, b6, b7] ++ rest) = .error (.registerRange b3)) ∧
    (∀ op ∈ [Opcode.ldf, .stf], b1.toNat / 16 < 2 → 8 ≤ b3.toNat →
      decode m ([m.value op, b1, b2, b3, b4, b5, b6, b7] ++ rest) = .error (.registerRange b3)) ∧
    (∀ e ∈ [(Opcode.integerOperation, 8), (.floatOperation, 9)],
      (e.2 ≤ b1.toNat →
        decode m ([m.value e.1, b1, b2, b3, b4, b5, b6, b7] ++ rest) = .error (.badSubopcode b1)) ∧
      (b1.toNat < e.2 → 8 ≤ b2.toNat →
        decode m ([m.value e.1, b1, b2, b3, b4, b5, b6, b7] ++ rest) = .error (.registerRange b2)) ∧
      (b1.toNat < e.2 → b2.toNat < 8 → b1.toNat < 4 ∨ b1.toNat = 8 → 8 ≤ b3.toNat →
        decode m ([m.value e.1, b1, b2, b3, b4, b5, b6, b7] ++ rest) = .error (.registerRange b3)))

/-- ProcedureCall checks its low register, its high register, its argument count, in this order, before its length (R293,
R327). -/
def Obligations.CallFieldErrors : Prop :=
  ∀ m : OpcodeMap, m.legal → ∀ (b1 b2 b3 b4 b5 b6 b7 : Byte) (rest : List Byte),
    (8 ≤ b1.toNat → decode m ([m.value .call, b1, b2, b3, b4, b5, b6, b7] ++ rest) = .error (.registerRange b1)) ∧
    (b1.toNat < 8 → 8 ≤ b2.toNat →
      decode m ([m.value .call, b1, b2, b3, b4, b5, b6, b7] ++ rest) = .error (.registerRange b2)) ∧
    (b1.toNat < 8 → b2.toNat < 8 → 8 < b3.toNat →
      decode m ([m.value .call, b1, b2, b3, b4, b5, b6, b7] ++ rest) = .error (.argcountRange b3))

/-- An instruction whose fields are valid and whose length exceeds the bytes left is rejected with that length (R166,
R322). -/
def Obligations.TruncatedInstructionIsRejected : Prop :=
  ∀ m : OpcodeMap, m.legal → ∀ i : Instr, i.wellFormed = true → ∀ k, 8 ≤ k → k < i.length →
    decode m ((encode m i).take k) = .error (.truncated i.length)

/-- The byte-order converter: values of two and four bytes, round trips both ways, and the same value in a big-endian and in
a little-endian datapath (R131 to R134). -/
def Obligations.ConverterIsBigEndianOnEveryHost : Prop :=
  (∀ b0 b1 : Byte, (readU16 b0 b1).toNat = b0.toNat * 256 + b1.toNat) ∧
  (∀ b0 b1 b2 b3 : Byte,
    (readU32 b0 b1 b2 b3).toNat = b0.toNat * 2 ^ 24 + b1.toNat * 2 ^ 16 + b2.toNat * 2 ^ 8 + b3.toNat) ∧
  (∀ x : Word, be32Bytes x = [x.extractLsb' 24 8, x.extractLsb' 16 8, x.extractLsb' 8 8, x.extractLsb' 0 8] ∧
    readU32 (x.extractLsb' 24 8) (x.extractLsb' 16 8) (x.extractLsb' 8 8) (x.extractLsb' 0 8) = x) ∧
  (∀ b0 b1 b2 b3, be32Bytes (readU32 b0 b1 b2 b3) = [b0, b1, b2, b3]) ∧
  (∀ x : HalfWord, be16Bytes x = [x.extractLsb' 8 8, x.extractLsb' 0 8] ∧
    readU16 (x.extractLsb' 8 8) (x.extractLsb' 0 8) = x) ∧
  (∀ b0 b1, be16Bytes (readU16 b0 b1) = [b0, b1]) ∧
  (∀ b0 b1 b2 b3, nativeWord .be b0 b1 b2 b3 = b0 ++ b1 ++ b2 ++ b3 ∧ nativeWord .le b0 b1 b2 b3 = b3 ++ b2 ++ b1 ++ b0) ∧
  (∀ host b0 b1 b2 b3, convertU32 host b0 b1 b2 b3 = readU32 b0 b1 b2 b3) ∧
  ∀ host b0 b1, convertU16 host b0 b1 = readU16 b0 b1

/-- Effective addresses and sized values (R141, R146): the address field or its sum with the loaded pointer modulo 2^32, and
the low-order bytes that the value size selects. -/
def Obligations.OperandsAreFormed : Prop :=
  (∀ addr s, effectiveAddress .noPointer addr s = addr) ∧
  (∀ addr s, (effectiveAddress .pointer addr s).toNat = (s.loadedPointer.toNat + addr.toNat) % 2 ^ 32) ∧
  ∀ sz v, (truncate sz v).toNat = sized sz v

/-! ## Steps, runs, faults, the host -/

/-- A running block whose remaining bytes decode to an instruction executes exactly that instruction; a pause of the host is
used up first (R162, R165). The remaining bytes are the logical stream from the cursor to its end (R24). -/
def Obligations.StepRunsTheDecodedInstruction : Prop :=
  (∀ s i, s.runState = .running → s.rem ≠ 0 → s.rem.toNat % 8 = 0 → s.logicalLength ≤ s.streamMax →
    decode s.params.opc s.remaining = .ok i →
    (s.host = [] → step s = exec i s) ∧
    ∀ es, s.host = .pause :: es → step s = exec i { s with host := es }) ∧
  ∀ s : State, s.remaining.length = s.rem.toNat ∧
    ∀ k < s.rem.toNat, s.remaining[k]? = some (s.streamByte (s.pc.toNat + k))

/-- The check that finds no byte left ends the run normally: the counter is incremented modulo 2^32, the run state becomes
DONE, nothing else changes; a run that raises a fatal error leaves the counter (R164). -/
def Obligations.RunEndsWhenNothingRemains : Prop :=
  (∀ s, s.host = [] → s.runState = .running → s.rem = 0 →
    step s = .next { s with
      executionCount := BitVec.ofNat 32 ((s.executionCount.toNat + 1) % 2 ^ 32)
      runState := .done }) ∧
  ∀ s t, s.host = [] → s.runState = .running → step s = .next t → t.runState = .fatal →
    t.executionCount = s.executionCount

/-- A remaining length that is not a multiple of 8 is fatal at the check, with `rem` as the info and nothing executed
(R163, R321, R334). -/
def Obligations.MisalignedLengthIsFatal : Prop :=
  ∀ s, s.host = [] → s.runState = .running → s.logicalLength ≤ s.streamMax → s.rem.toNat % 8 ≠ 0 →
    step s = .next (fatalState .badLength s.rem s) ∧ FaultCode.badLength.number = 1

/-- A rejected instruction takes the fatal transition with its code and info and does nothing else (R168, R320, R334). -/
def Obligations.RejectedInstructionIsFatal : Prop :=
  (∀ s e, s.host = [] → s.runState = .running → s.rem ≠ 0 → s.rem.toNat % 8 = 0 → s.logicalLength ≤ s.streamMax →
    decode s.params.opc s.remaining = .error e →
    step s = .next (fatalState (decodeFaultCode e) (decodeFaultInfo e) s)) ∧
  (∀ n : Nat, n < 2 ^ 32 → (decodeFaultCode (.truncated n)).number = 2 ∧ (decodeFaultInfo (.truncated n)).toNat = n) ∧
  (∀ b, (decodeFaultCode (.unknownOpcode b)).number = 3 ∧ (decodeFaultInfo (.unknownOpcode b)).toNat = b.toNat) ∧
  (∀ b, (decodeFaultCode (.registerRange b)).number = 6 ∧ (decodeFaultInfo (.registerRange b)).toNat = b.toNat) ∧
  (∀ b, (decodeFaultCode (.argcountRange b)).number = 7 ∧ (decodeFaultInfo (.argcountRange b)).toNat = b.toNat) ∧
  (∀ n, (decodeFaultCode (.badPointerMode n)).number = 8 ∧ (decodeFaultInfo (.badPointerMode n)).toNat = n.toNat) ∧
  (∀ n, (decodeFaultCode (.badValueSize n)).number = 9 ∧ (decodeFaultInfo (.badValueSize n)).toNat = n.toNat) ∧
  ∀ b, (decodeFaultCode (.badSubopcode b)).number = 10 ∧ (decodeFaultInfo (.badSubopcode b)).toNat = b.toNat

/-- A block that is not running executes no step (R30, R335); that its step leaves the state as it is, rather than being
absent, is the model's choice (log 15). -/
def Obligations.StoppedBlockStaysAsItIs : Prop :=
  ∀ s, s.host = [] → s.runState ≠ .running → step s = .next s

/-- `initialize` is accepted in every state, sets every element to the table of R34 and touches neither the inputs nor the
foreign system (R34, R351). That the stream buffer keeps its contents, which R34 leaves unspecified, is the model's
choice (log 30). -/
def Obligations.InitializeResetsEveryElement : Prop :=
  ∀ s es, s.host = .reinit :: es → ∃ t, step s = .next t ∧
    (∀ r : Reg, t.ireg.get r = 0 ∧ t.freg.get r = 0) ∧ t.conditionFlag = false ∧ t.loadedPointer = 0 ∧
    t.timeDependenceDelay = 0 ∧ t.executionCount = 0 ∧ t.pc = 0 ∧ t.rem = 0 ∧ t.runState = .idle ∧
    t.fault.code.number = 0 ∧ t.fault.pc = 0 ∧ t.fault.info = 0 ∧ (∀ k : Fin 8, t.fault.bytes.get k = 0) ∧
    t.stream = s.stream ∧ t.accessEnable = s.accessEnable ∧ t.params = s.params ∧ t.foreign = s.foreign ∧ t.host = es

/-- `run(L)` starts a run in IDLE and DONE when `L` is within the buffer, whatever its alignment, and writes five elements
alone; in RUNNING and FATAL, or with a longer `L`, it changes nothing (R35, R340). -/
def Obligations.RunCommandStartsOrIsRefused : Prop :=
  ∀ s len es, s.host = .run len :: es →
    (((s.runState = .idle ∨ s.runState = .done) ∧ len.toNat ≤ 8 * s.params.streamLines.toNat) →
      step s = .next { s with
        pc := 0, rem := len, conditionFlag := false, loadedPointer := 0, runState := .running, host := es }) ∧
    (¬ ((s.runState = .idle ∨ s.runState = .done) ∧ len.toNat ≤ 8 * s.params.streamLines.toNat) →
      step s = .next { s with host := es })

/-- `load(i, b)` outside a run writes one byte of the stream, and driving `access_enable` outside a run sets it; the model
refuses what R32 and R340 forbid (U8, U13, log 17). -/
def Obligations.LoadAndDriveCommands : Prop :=
  (∀ s i b es, s.host = .load i b :: es → s.runState ≠ .running → i.toNat < s.streamMax →
    ∃ t, step s = .next t ∧ t = { s with stream := t.stream, host := es } ∧ t.streamByte i.toNat = b ∧
      ∀ k, k ≠ i.toNat → t.streamByte k = s.streamByte k) ∧
  (∀ s i b es, s.host = .load i b :: es → s.runState = .running → step s = .refused .loadWhileRunning) ∧
  (∀ s i b es, s.host = .load i b :: es → s.runState ≠ .running → s.streamMax ≤ i.toNat →
    step s = .refused .loadOutsideBuffer) ∧
  (∀ s e es, s.host = .drive e :: es → s.runState ≠ .running ∨ e = s.accessEnable →
    step s = .next { s with accessEnable := e, host := es }) ∧
  ∀ s e es, s.host = .drive e :: es → s.runState = .running → e ≠ s.accessEnable →
    step s = .refused .accessEnableWhileRunning

/-- The state the machine starts in has the values of R34; no stream byte has a value of the model's choosing (log 14). -/
def Obligations.ResetStateHasTheResetValues : Prop :=
  (∀ r : Reg, State.reset.ireg.get r = 0 ∧ State.reset.freg.get r = 0) ∧ State.reset.conditionFlag = false ∧
  State.reset.loadedPointer = 0 ∧ State.reset.timeDependenceDelay = 0 ∧ State.reset.executionCount = 0 ∧
  State.reset.pc = 0 ∧ State.reset.rem = 0 ∧ State.reset.runState = .idle ∧ State.reset.fault.code.number = 0 ∧
  State.reset.fault.pc = 0 ∧ State.reset.fault.info = 0 ∧ (∀ k : Fin 8, State.reset.fault.bytes.get k = 0) ∧
  ∀ i, State.reset.streamByte i = Config.streamUnwritten i

/-- The state after reset is sound. -/
def Obligations.ResetMeetsTheInvariant : Prop := State.reset.Inv

/-- Every step from a sound state ends in a sound state: canonical memory and stream, the logical stream inside the buffer
and made of whole lines, the fault record in step with the run state (R23, R30, R31, R76, R163, R176, R334). -/
def Obligations.StepKeepsTheInvariant : Prop := ∀ s t : State, s.Inv → step s = .next t → t.Inv

/-- From a sound state no step ends in a fault, and a refusal is one of the host actions that R32 and R340 forbid (log 17,
18). -/
def Obligations.SoundStateStopsOnForbiddenHostActions : Prop :=
  ∀ s : State, s.Inv →
    (∃ t, step s = .next t) ∨
    (∃ i b es, s.host = .load i b :: es ∧ (s.runState = .running ∨ s.streamMax ≤ i.toNat)) ∨
    ∃ e es, s.host = .drive e :: es ∧ s.runState = .running ∧ e ≠ s.accessEnable

/-- The cursor never moves backward, the logical length never grows and changes by whole lines (R23, R24, R163, R174). -/
def Obligations.CursorNeverMovesBack : Prop :=
  ∀ s t : State, s.Inv → s.host = [] → step s = .next t →
    s.pc.toNat ≤ t.pc.toNat ∧ t.logicalLength ≤ s.logicalLength ∧ t.logicalLength % 8 = s.logicalLength % 8

/-- Every run ends, normally or in a fatal error (R174). The bound counts two steps a line, since a SearchTemplate with an
empty template takes a step and removes no line (log 23). -/
def Obligations.EveryRunEnds : Prop :=
  ∀ s : State, s.Inv → s.host = [] → s.runState = .running →
    ∃ k ≤ 2 * (s.rem.toNat / 8) + 1, ∃ t : State, Host.Core.run Sys2Proof.core k s = .next t ∧
      (t.runState = .done ∨ t.runState = .fatal)

/-! ## What no instruction does -/

/-- Every instruction completes; no instruction writes the counter, the inputs, the parameters, the host's list or the
choice of the collaborator; only SearchTemplate writes the stream; only a failed skip of a conditional or of an
AddTimeDependence changes the run state or the fault record (R25, R29, R32, R40). -/
def Obligations.InstructionsWriteOnlyTheirState : Prop :=
  ∀ i s, ∃ t, exec i s = .next t ∧
    t.executionCount = s.executionCount ∧ t.accessEnable = s.accessEnable ∧ t.params = s.params ∧ t.host = s.host ∧
    t.foreign.collaborator = s.foreign.collaborator ∧
    ((∀ x sh eh tm, i ≠ .search x sh eh tm) → t.stream = s.stream) ∧
    (t.runState = s.runState ∧ t.fault = s.fault ∨
      t.runState = .fatal ∧
        (isConditional i = true ∧ t.fault.code = .unterminatedConditional ∨
          (∃ d, i = .timedep d) ∧ t.fault.code = .unterminatedTimer))

/-- An instruction writes no register but the ones R21 and R22 list for it. -/
def Obligations.RegistersAreWrittenOnlyAsListed : Prop :=
  ∀ i s t, exec i s = .next t → ∀ r : Reg,
    (r ∉ integerTargets i → t.ireg.get r = s.ireg.get r) ∧ (r ∉ floatTargets i → t.freg.get r = s.freg.get r)

/-- `condition_flag`, `loaded_pointer` and `time_dependence_delay` have no writers among the instructions but those of R26,
R27 and R28. -/
def Obligations.VmFieldsAreWrittenOnlyAsListed : Prop :=
  ∀ i s t, exec i s = .next t →
    (isConditional i = false → i ≠ .term → t.conditionFlag = s.conditionFlag) ∧
    ((∀ p a lo hi, i ≠ .ldptr p a lo hi) → (∀ o, i ≠ .addptr o) → (∀ a, i ≠ .ldptrd a) → i ≠ .term →
      t.loadedPointer = s.loadedPointer) ∧
    ((∀ d, i ≠ .timedep d) → i ≠ .resettimer → t.timeDependenceDelay = s.timeDependenceDelay)

/-- An instruction whose gate is false only advances the cursor by its length: no transaction, no register, no flag, no
pointer, no skip (R144, R145, R331). -/
def Obligations.SuppressedInstructionOnlyAdvances : Prop :=
  ∀ i p s, gateMode i = some p → ¬ GateOpen p s →
    exec i s = .next { s with
      pc := s.pc + BitVec.ofNat 32 i.length
      rem := s.rem - BitVec.ofNat 32 i.length }

/-- In a dry run a step reads nothing of the foreign system and changes nothing of it: two states that differ in it alone
step alike, and the only transaction issued is the report of a fatal error (R75, R144, R364). -/
def Obligations.DryRunNeverTouchesTheForeignSystem : Prop :=
  ∀ s : State, s.accessEnable = false → s.host = [] → s.logicalLength ≤ s.streamMax →
    ∃ (t : State) (new : List Transaction), (∀ x ∈ new, ∃ r, x = Transaction.fatal r) ∧
      step s = .next { t with foreign := { s.foreign with log := new ++ s.foreign.log } } ∧
      ∀ f : Foreign, step { s with foreign := f } = .next { t with foreign := { f with log := new ++ f.log } }

/-! ## Memory -/

/-- A read of the enabled port under the reference memory returns the value that stands there, in the memory's byte order,
and changes nothing; it is one transaction (R62, R63). -/
def Obligations.ReferenceReadReturnsMemory : Prop :=
  ∀ order sz a s, s.accessEnable = true → s.foreign.collaborator = .reference order →
    HoldsValue order sz s a (memRead sz a s).1 ∧
    (memRead sz a s).2 = { s with foreign.log := .read a sz (memRead sz a s).1 :: s.foreign.log }

/-- Under the reference memory a read returns the most recent write to each byte (R69): after any series of reads and
writes of any sizes at any addresses, a byte is as the last write that covers it left it, a byte that no write covers
is as before, and a read of any size returns the bytes that stand there. -/
def Obligations.ReadReturnsTheValueWritten : Prop :=
  ∀ order (s : State), s.accessEnable = true → s.foreign.collaborator = .reference order →
    (∀ before after sz a v, ∀ k < sz.bytes, (∀ x ∈ after, ¬ x.Writes (offset a k)) →
      (performAll (before ++ .write sz a v :: after) s).foreignByte (offset a k) = orderedByte order sz v k) ∧
    (∀ xs b, (∀ x ∈ xs, ¬ x.Writes b) → (performAll xs s).foreignByte b = s.foreignByte b) ∧
    (∀ xs sz a, HoldsValue order sz (performAll xs s) a (memRead sz a (performAll xs s)).1) ∧
    ∀ before after sz a v, (∀ x ∈ after, ∀ k < sz.bytes, ¬ x.Writes (offset a k)) →
      (memRead sz a (performAll (before ++ .write sz a v :: after) s)).1.toNat = sized sz v

/-- A read of the enabled port with an arbitrary collaborator returns the next answer fixed in advance, else a free value,
in the size of the access, and nothing of memory (R62; how answers are held is the model's choice, log 10). -/
def Obligations.ArbitraryReadReturnsTheNextAnswer : Prop :=
  ∀ sz a (s : State), s.accessEnable = true → s.foreign.collaborator = .arbitrary →
    (∀ v vs, s.foreign.readAnswers = v :: vs →
      (memRead sz a s).1.toNat = sized sz v ∧
      (memRead sz a s).2 = { s with
        foreign.readAnswers := vs, foreign.log := .read a sz (memRead sz a s).1 :: s.foreign.log }) ∧
    (s.foreign.readAnswers = [] →
      (memRead sz a s).1.toNat = sized sz (Config.foreignRead s.foreign.draws) ∧
      (memRead sz a s).2 = { s with
        foreign.draws := s.foreign.draws + 1, foreign.log := .read a sz (memRead sz a s).1 :: s.foreign.log })

/-- RamWrite, StoreInteger and StoreFloat with an open gate: one write of the sized value at the effective address (R191,
R248, R250). -/
def Obligations.SizedStoresWriteTheirValue : Prop :=
  (∀ p sz addr value s, GateOpen p s → ∃ t, exec (.ramwrite p sz addr value) s = .next t ∧
    StoreEffect 16 sz (effectiveAddress p addr s) value s t) ∧
  (∀ p sz r addr s, GateOpen p s → ∃ t, exec (.sti p sz r addr) s = .next t ∧
    StoreEffect 8 sz (effectiveAddress p addr s) (s.ireg.get r) s t) ∧
  ∀ p r addr s, GateOpen p s → ∃ t, exec (.stf p r addr) s = .next t ∧
    StoreEffect 8 .word (effectiveAddress p addr s) (s.freg.get r) s t

/-- StringWrite with an open gate: its data bytes at ascending addresses, one transaction each, no byte beyond them (R192). -/
def Obligations.StringWriteStoresItsBytes : Prop :=
  ∀ p addr data s, data.length < 65536 → GateOpen p s → ∃ t, exec (.strwrite p addr data) s = .next t ∧
    t = { s with
      pc := s.pc + BitVec.ofNat 32 (8 + 8 * ((data.length + 7) / 8))
      rem := s.rem - BitVec.ofNat 32 (8 + 8 * ((data.length + 7) / 8))
      foreign.mem := t.foreign.mem
      foreign.log := ((List.range data.length).map fun k =>
        Transaction.write (offset (effectiveAddress p addr s) k) .byte ((data.getD k 0).setWidth 32)).reverse
        ++ s.foreign.log } ∧
    (∀ k (h : k < data.length), t.foreignByte (offset (effectiveAddress p addr s) k) = data[k]) ∧
    ∀ b, (∀ k < data.length, b ≠ offset (effectiveAddress p addr s) k) → t.foreignByte b = s.foreignByte b

/-- SkipWrite with an open gate: `COUNT` sized writes, the address stepping by `STEP` and the 32-bit value by `INCR` (R193). -/
def Obligations.SkipWriteWritesTheSeries : Prop :=
  ∀ p sz count addr value stride incr s, GateOpen p s →
    ∃ t, exec (.skipwrite p sz count addr value stride incr) s = .next t ∧
      SeriesEffect 24 sz count.toNat (effectiveAddress p addr s) stride value incr s t

/-- FillMemoryArea with an open gate: `floor(SPAN / 4)` words of the fill value, every one of them standing in the reference
memory afterwards, the last `SPAN mod 4` bytes not written (R194). -/
def Obligations.FillWritesTheArea : Prop :=
  ∀ p addr value span s, GateOpen p s → ∃ t, exec (.fill p addr value span) s = .next t ∧
    SeriesEffect 16 .word (span.toNat / 4) (effectiveAddress p addr s) 4 value 0 s t ∧
    ∀ order, s.foreign.collaborator = .reference order → ∀ i < span.toNat / 4, ∀ k < 4,
      t.foreignByte (offset (effectiveAddress p addr s) (4 * i + k)) = orderedByte order .word value k

/-- Corrupter with accesses enabled: no byte outside the words scanned changes and no block state but the cursor; under the
reference memory each word from `BEGIN` in steps of 4 that equals `FIND` becomes `REPL` and every other one stays.
Whoever answers, each word is read once, in order, and one write follows each read that answers `FIND` (R65, R195); how an
arbitrary collaborator's answers are held is the model's choice (log 10). -/
def Obligations.CorrupterReplacesMatchingWords : Prop :=
  ∀ first limit find repl s, GateOpen .noPointer s → ∃ t, exec (.corrupt first limit find repl) s = .next t ∧
    t = { s with pc := s.pc + 24, rem := s.rem - 24, foreign := t.foreign } ∧
    (∀ b, (∀ k < (limit.toNat - first.toNat + 3) / 4, ∀ j < 4, b ≠ offset first (4 * k + j)) →
      t.foreignByte b = s.foreignByte b) ∧
    (∀ order, s.foreign.collaborator = .reference order →
      (∀ k < (limit.toNat - first.toNat + 3) / 4, ∀ w, HoldsValue order .word s (offset first (4 * k)) w →
        HoldsValue order .word t (offset first (4 * k)) (if w = find then repl else w)) ∧
      t.foreign = { s.foreign with
        mem := t.foreign.mem
        log := ((List.range ((limit.toNat - first.toNat + 3) / 4)).flatMap fun k =>
          let a := offset first (4 * k)
          let w := s.foreign.mem.readSized order .word a
          Transaction.read a .word w :: if w = find then [.write a .word repl] else []).reverse ++ s.foreign.log }) ∧
    (s.foreign.collaborator = .arbitrary →
      AnswersUsed ((limit.toNat - first.toNat + 3) / 4) s t ∧
      t.foreign = { s.foreign with
        mem := t.foreign.mem
        readAnswers := t.foreign.readAnswers
        draws := t.foreign.draws
        log := ((List.range ((limit.toNat - first.toNat + 3) / 4)).flatMap fun k =>
          Transaction.read (offset first (4 * k)) .word (nextAnswer s k) ::
            if nextAnswer s k = find then [.write (offset first (4 * k)) .word repl] else []).reverse
          ++ s.foreign.log })

/-! ## Conditionals, timer, stream control -/

/-- IfEqual and IfNotEqual with an open gate (R210 to R214). -/
def Obligations.EqualityConditionals : Prop :=
  ∀ p sz addr value s, GateOpen p s →
    ConditionalTests (.ifeq p sz addr value) p sz addr s (fun m => m.toNat = sized sz value) ∧
    ConditionalTests (.ifne p sz addr value) p sz addr s (fun m => m.toNat ≠ sized sz value)

/-- The four ordered conditionals with an open gate, `ordered_cmp` at its default: true unsigned orderings (R211, R215 to
R218, R222). -/
def Obligations.OrderedConditionals : Prop :=
  ∀ p sz addr value s, GateOpen p s → s.params.ordered = .unsigned →
    ConditionalTests (.ifgt p sz addr value) p sz addr s (fun m => m.toNat > sized sz value) ∧
    ConditionalTests (.iflt p sz addr value) p sz addr s (fun m => m.toNat < sized sz value) ∧
    ConditionalTests (.ifge p sz addr value) p sz addr s (fun m => m.toNat ≥ sized sz value) ∧
    ConditionalTests (.ifle p sz addr value) p sz addr s (fun m => m.toNat ≤ sized sz value)

/-- The four ordered conditionals with an open gate under the original hardware's unknown comparison: a function of the
kind, the size, the value read and the sized operand alone decides, whatever it is (R222, U4, log 3). -/
def Obligations.OrderedConditionalsOfTheOriginal : Prop :=
  ∀ p sz addr value s, GateOpen p s → s.params.ordered = .original →
    ConditionalTests (.ifgt p sz addr value) p sz addr s
      (fun m => Config.orderedCmp .gt sz m (BitVec.ofNat 32 (sized sz value)) = true) ∧
    ConditionalTests (.iflt p sz addr value) p sz addr s
      (fun m => Config.orderedCmp .lt sz m (BitVec.ofNat 32 (sized sz value)) = true) ∧
    ConditionalTests (.ifge p sz addr value) p sz addr s
      (fun m => Config.orderedCmp .ge sz m (BitVec.ofNat 32 (sized sz value)) = true) ∧
    ConditionalTests (.ifle p sz addr value) p sz addr s
      (fun m => Config.orderedCmp .le sz m (BitVec.ofNat 32 (sized sz value)) = true)

/-- And, Or and IfValueBetween with an open gate (R219 to R221). -/
def Obligations.BitwiseAndBetweenConditionals : Prop :=
  ∀ p sz addr value upper s, GateOpen p s →
    ConditionalTests (.ifand p sz addr value) p sz addr s (fun m => m.toNat &&& sized sz value ≠ 0) ∧
    ConditionalTests (.ifor p sz addr value) p sz addr s (fun m => m.toNat ||| sized sz value ≠ 0) ∧
    ConditionalTests (.ifbetween p sz addr value upper) p sz addr s
      (fun m => sized sz value < m.toNat ∧ m.toNat < sized sz upper)

/-- AddTimeDependence stores its delay in every case and skips to the reset-timer line exactly when the delay is not 0 and
does not divide the run counter (R231, R325). -/
def Obligations.TimeDependenceGatesByRunCount : Prop :=
  ∀ delay s, ∃ u, exec (.timedep delay) s = .next u ∧
    if delay.toNat ≠ 0 ∧ s.executionCount.toNat % delay.toNat ≠ 0 then
      Skips resetTimerLine .unterminatedTimer 0x0D
        { s with timeDependenceDelay := delay, pc := s.pc + 8, rem := s.rem - 8 } u
    else u = { s with timeDependenceDelay := delay, pc := s.pc + 8, rem := s.rem - 8 }

/-- ResetTimer clears the delay, Terminator the flag and the pointer, NoOperation and TimerTermination nothing; each advances
one line and changes nothing else (R232 to R235). -/
def Obligations.StreamControlInstructions : Prop :=
  ∀ s,
    exec .resettimer s = .next { s with timeDependenceDelay := 0, pc := s.pc + 8, rem := s.rem - 8 } ∧
    exec .term s = .next { s with conditionFlag := false, loadedPointer := 0, pc := s.pc + 8, rem := s.rem - 8 } ∧
    exec .nop s = .next { s with pc := s.pc + 8, rem := s.rem - 8 } ∧
    exec .timerterm s = .next { s with pc := s.pc + 8, rem := s.rem - 8 }

/-! ## Registers, arithmetic, pointer -/

/-- LoadInteger and LoadFloat with an open gate: one read, its value replaces the whole register (R247, R249). -/
def Obligations.RegisterLoads : Prop :=
  (∀ p sz (r : Reg) addr s, GateOpen p s →
    (memRead sz (effectiveAddress p addr s) s).1.toNat < 2 ^ (8 * sz.bytes) ∧
    exec (.ldi p sz r addr) s = .next { (memRead sz (effectiveAddress p addr s) s).2 with
      ireg := s.ireg.set r.val (memRead sz (effectiveAddress p addr s) s).1 r.isLt
      pc := s.pc + 8, rem := s.rem - 8 }) ∧
  ∀ p (r : Reg) addr s, GateOpen p s →
    exec (.ldf p r addr) s = .next { (memRead .word (effectiveAddress p addr s) s).2 with
      freg := s.freg.set r.val (memRead .word (effectiveAddress p addr s) s).1 r.isLt
      pc := s.pc + 8, rem := s.rem - 8 }

/-- Addition, subtraction and multiplication of integer registers are modulo 2^32; both operands are read before the
write, and nothing but the destination and the cursor changes (R253 to R256, R258 to R260). -/
def Obligations.IntegerArithmeticIsModular : Prop :=
  ∀ (d r : Reg) (v : Word) (s : State),
    (∀ e ∈ [(Instr.iadd d r, ((s.ireg.get d).toNat + (s.ireg.get r).toNat) % 2 ^ 32),
        (.isub d r, ((s.ireg.get d).toNat + 2 ^ 32 - (s.ireg.get r).toNat) % 2 ^ 32),
        (.imul d r, (s.ireg.get d).toNat * (s.ireg.get r).toNat % 2 ^ 32),
        (.iaddi d v, ((s.ireg.get d).toNat + v.toNat) % 2 ^ 32),
        (.isubi d v, ((s.ireg.get d).toNat + 2 ^ 32 - v.toNat) % 2 ^ 32),
        (.imuli d v, (s.ireg.get d).toNat * v.toNat % 2 ^ 32)],
      ∃ t, exec e.1 s = .next t ∧ t = { s with ireg := t.ireg, pc := s.pc + 8, rem := s.rem - 8 } ∧
        (t.ireg.get d).toNat = e.2 ∧ ∀ k, k ≠ d → t.ireg.get k = s.ireg.get k)

/-- Integer division is unsigned and truncating; a zero divisor gives `int_div_zero` of the dividend, whatever it is (R253,
R257, R261, U1, log 4), and the instruction completes. -/
def Obligations.IntegerDivisionTruncates : Prop :=
  ∀ (d r : Reg) (v : Word) (s : State),
    (∀ e ∈ [(Instr.idiv d r, s.ireg.get r), (.idivi d v, v)],
      ∃ t, exec e.1 s = .next t ∧ t = { s with ireg := t.ireg, pc := s.pc + 8, rem := s.rem - 8 } ∧
        (e.2 ≠ 0 → (t.ireg.get d).toNat = (s.ireg.get d).toNat / e.2.toNat) ∧
        (e.2 = 0 → t.ireg.get d = Config.intDivZero (s.ireg.get d)) ∧ ∀ k, k ≠ d → t.ireg.get k = s.ireg.get k)

/-- The eight float forms write `fp.op` of the old destination and the second operand to the destination alone (R251, R252,
R262 to R269). -/
def Obligations.FloatInstructionsWriteTheirResult : Prop :=
  ∀ (d r : Reg) (v : Word) (s : State),
    (∀ e ∈ [(Instr.fadd d r, floatAdd (s.freg.get d) (s.freg.get r)), (.fsub d r, floatSub (s.freg.get d) (s.freg.get r)),
        (.fmul d r, floatMul (s.freg.get d) (s.freg.get r)), (.fdiv d r, floatDiv (s.freg.get d) (s.freg.get r)),
        (.faddi d v, floatAdd (s.freg.get d) v), (.fsubi d v, floatSub (s.freg.get d) v),
        (.fmuli d v, floatMul (s.freg.get d) v), (.fdivi d v, floatDiv (s.freg.get d) v)],
      ∃ t, exec e.1 s = .next t ∧ t = { s with freg := t.freg, pc := s.pc + 8, rem := s.rem - 8 } ∧
        t.freg.get d = e.2 ∧ ∀ k, k ≠ d → t.freg.get k = s.freg.get k)

/-- NaNs and infinities of the four operations: a NaN operand and every invalid operation give a quiet NaN, division of a
finite nonzero number by zero the infinity of the exclusive-or of the signs, the other operations with an infinity what
IEEE-754 says (R271). Which quiet NaN results is open (U2, log 5). -/
def Obligations.FloatSpecialCases : Prop :=
  ∀ a b : Word,
    (IsNaN a ∨ IsNaN b → IsQuietNaN (floatAdd a b) ∧ IsQuietNaN (floatSub a b) ∧ IsQuietNaN (floatMul a b) ∧
      IsQuietNaN (floatDiv a b)) ∧
    ∀ x y : Bool,
      IsQuietNaN (floatAdd (infinity x) (infinity (!x))) ∧ IsQuietNaN (floatSub (infinity x) (infinity x)) ∧
      IsQuietNaN (floatMul (infinity x) (zero y)) ∧ IsQuietNaN (floatMul (zero y) (infinity x)) ∧
      IsQuietNaN (floatDiv (infinity x) (infinity y)) ∧ IsQuietNaN (floatDiv (zero x) (zero y)) ∧
      floatAdd (infinity x) (infinity x) = infinity x ∧ floatSub (infinity x) (infinity (!x)) = infinity x ∧
      floatMul (infinity x) (infinity y) = infinity (x != y) ∧
      (IsFinite a →
        floatAdd (infinity x) a = infinity x ∧ floatAdd a (infinity x) = infinity x ∧
        floatSub (infinity x) a = infinity x ∧ floatSub a (infinity x) = infinity (!x) ∧
        floatDiv (infinity x) a = infinity (x != a.getLsbD 31) ∧ floatDiv a (infinity x) = zero (a.getLsbD 31 != x) ∧
        (floatValue a ≠ 0 →
          floatMul (infinity x) a = infinity (x != a.getLsbD 31) ∧
          floatMul a (infinity x) = infinity (a.getLsbD 31 != x) ∧
          floatDiv a (zero x) = infinity (a.getLsbD 31 != x)))

/-- Sums, differences and products of finite numbers are the exact results rounded to nearest, ties to even, with
subnormals kept (R271). -/
def Obligations.FloatSumsAndProductsAreCorrectlyRounded : Prop :=
  ∀ a b : Word, IsFinite a → IsFinite b →
    RoundsTo (floatValue a + floatValue b)
      (if floatValue a + floatValue b = 0 then a.getLsbD 31 && b.getLsbD 31 else floatValue a + floatValue b < 0)
      (floatAdd a b) ∧
    RoundsTo (floatValue a - floatValue b)
      (if floatValue a - floatValue b = 0 then a.getLsbD 31 && !b.getLsbD 31 else floatValue a - floatValue b < 0)
      (floatSub a b) ∧
    RoundsTo (floatValue a * floatValue b) (a.getLsbD 31 != b.getLsbD 31) (floatMul a b)

/-- Quotients of finite numbers by finite nonzero numbers are the exact results rounded to nearest, ties to even, with
subnormals kept (R271). -/
def Obligations.FloatQuotientsAreCorrectlyRounded : Prop :=
  ∀ a b : Word, IsFinite a → IsFinite b → floatValue b ≠ 0 →
    RoundsTo (floatValue a / floatValue b) (a.getLsbD 31 != b.getLsbD 31) (floatDiv a b)

/-- The conversion to an integer truncates toward zero; out of range, and for a NaN or an infinity, the result is
`f2i_invalid`, whatever it is (R270, U3, log 6); only the destination changes. -/
def Obligations.FloatToIntegerTruncates : Prop :=
  ∀ (d r : Reg) (s : State), ∃ t, exec (.f2i d r) s = .next t ∧
    t = { s with ireg := t.ireg, pc := s.pc + 8, rem := s.rem - 8 } ∧ (∀ k, k ≠ d → t.ireg.get k = s.ireg.get k) ∧
    (IsFinite (s.freg.get r) → -(2 ^ 31) ≤ truncateToward (floatValue (s.freg.get r)) →
      truncateToward (floatValue (s.freg.get r)) ≤ 2 ^ 31 - 1 →
      (t.ireg.get d).toInt = truncateToward (floatValue (s.freg.get r))) ∧
    (¬ (IsFinite (s.freg.get r) ∧ -(2 ^ 31) ≤ truncateToward (floatValue (s.freg.get r)) ∧
        truncateToward (floatValue (s.freg.get r)) ≤ 2 ^ 31 - 1) →
      t.ireg.get d = Config.f2iInvalid (s.freg.get r))

/-- LoadPointer keeps the value read when it lies within both inclusive bounds and clears the pointer otherwise;
LoadPointerDirectly and AddOffsetToPointer are not gated (R281 to R283). -/
def Obligations.PointerInstructions : Prop :=
  (∀ p addr lower upper s, GateOpen p s →
    ∃ t, exec (.ldptr p addr lower upper) s = .next t ∧
      t = { (memRead .word (effectiveAddress p addr s) s).2 with
        loadedPointer := t.loadedPointer, pc := s.pc + 16, rem := s.rem - 16 } ∧
      (∀ v, v = (memRead .word (effectiveAddress p addr s) s).1 →
        (lower.toNat ≤ v.toNat ∧ v.toNat ≤ upper.toNat → t.loadedPointer = v) ∧
        (¬ (lower.toNat ≤ v.toNat ∧ v.toNat ≤ upper.toNat) → t.loadedPointer = 0))) ∧
  (∀ addr s, exec (.ldptrd addr) s = .next { s with loadedPointer := addr, pc := s.pc + 8, rem := s.rem - 8 }) ∧
  ∀ off s, ∃ t, exec (.addptr off) s = .next t ∧
    t = { s with loadedPointer := t.loadedPointer, pc := s.pc + 8, rem := s.rem - 8 } ∧
    (t.loadedPointer.toNat : Int) = ((s.loadedPointer.toNat : Int) + off.toInt) % 2 ^ 32

/-! ## Calls and the search -/

/-- ExecuteAssembly and PerformSystemCall with accesses enabled: one transaction, the cursor, nothing else of the block
(R290 to R292). What the transaction may do outside the block is the model's rendering of R294 (log 11). -/
def Obligations.RawExecutionAndSystemCall : Prop :=
  (∀ payload s, GateOpen .noPointer s → ∃ t, exec (.execasm payload) s = .next t ∧
    t = { s with
      pc := s.pc + BitVec.ofNat 32 (8 + payload.length)
      rem := s.rem - BitVec.ofNat 32 (8 + payload.length)
      foreign := t.foreign } ∧
    CallEffect (.execRaw payload) s t) ∧
  ∀ code s, GateOpen .noPointer s → ∃ t, exec (.syscall code) s = .next t ∧
    t = { s with pc := s.pc + 8, rem := s.rem - 8, foreign := t.foreign } ∧ CallEffect (.sysCall code) s t

/-- ProcedureCall with accesses enabled: one call with the arguments and zeros in the unsupplied slots, the low half of the
return to `RLO`, then the high half to `RHI`, which keeps it when the indices are equal (R293). What the call may do
outside the block is the model's rendering of R294 (log 11). -/
def Obligations.ProcedureCallSplitsItsReturn : Prop :=
  ∀ (rlo rhi : Reg) (target : Word) (args : List Word) (s : State), args.length ≤ 8 → GateOpen .noPointer s →
    ∃ t all, exec (.call rlo rhi target args) s = .next t ∧
      all.length = 8 ∧ (∀ k < 8, all.getD k 0 = args.getD k 0) ∧
      t = { s with
        ireg := t.ireg
        pc := s.pc + BitVec.ofNat 32 (8 + 4 * (args.length + args.length % 2))
        rem := s.rem - BitVec.ofNat 32 (8 + 4 * (args.length + args.length % 2))
        foreign := t.foreign } ∧
      CallEffect (.foreignCall target all args.length (nextReturn s)) s t ∧
      (t.ireg.get rhi).toNat = (nextReturn s).toNat / 2 ^ 32 ∧
      (rlo ≠ rhi → (t.ireg.get rlo).toNat = (nextReturn s).toNat % 2 ^ 32) ∧
      ∀ k, k ≠ rlo → k ≠ rhi → t.ireg.get k = s.ireg.get k

/-- SearchTemplate: the line at the cursor becomes a LoadPointerDirectly with the address found, the template's lines are
removed by moving the rest of the stream down, `rem` shrinks, every other stream byte and every other element keeps its
value; in a dry run nothing is read and 0 is written (R309 to R311). Otherwise, whoever answers, the candidates are read
from the start upward, byte by byte up to the first mismatch, and the match with `INDEX` matches before it is found, or 0
(R307, R308); under the reference memory these are the matches that stand in memory, and the reads are given one by
one. An empty template with `start = end` has one candidate (the model's choice, log 29); how an arbitrary collaborator's
answers are held is the model's choice (log 10). -/
def Obligations.SearchRewritesTheStream : Prop :=
  ∀ idx startHi endHi template s, 8 + padded template.length ≤ s.rem.toNat →
    ∃ t found, exec (.search idx startHi endHi template) s = .next t ∧
      t = { s with
        stream := t.stream
        rem := s.rem - BitVec.ofNat 32 (padded template.length)
        foreign.readAnswers := t.foreign.readAnswers
        foreign.draws := t.foreign.draws
        foreign.log := t.foreign.log } ∧
      (∀ k < 8, t.streamByte (s.pc.toNat + k)
        = ([s.params.opc.value .ldptrd, 0, 0, 0] ++ be32Bytes found).getD k 0) ∧
      (∀ k, 8 ≤ k → k < s.rem.toNat - padded template.length →
        t.streamByte (s.pc.toNat + k) = s.streamByte (s.pc.toNat + padded template.length + k)) ∧
      (∀ i, i < s.pc.toNat ∨ s.pc.toNat + (s.rem.toNat - padded template.length) ≤ i →
        t.streamByte i = s.streamByte i) ∧
      (s.accessEnable = false → found = 0 ∧ t.foreign = s.foreign) ∧
      (s.accessEnable = true →
        (∃ visits, SearchVisits (startHi.toNat * 65536) (endHi.toNat * 65536 + 1 - (startHi.toNat * 65536 + template.length))
            template idx.toNat found visits ∧
          t.foreign.log = (visits.flatMap (·.1)).reverse ++ s.foreign.log ∧
          (s.foreign.collaborator = .arbitrary →
            AnswersUsed (visits.flatMap (·.1)).length s t ∧
            ∀ k a v, (visits.flatMap (·.1))[k]? = some (.read a .byte v) → v.toNat = sized .byte (nextAnswer s k))) ∧
        ∀ order, s.foreign.collaborator = .reference order →
          t.foreign = { s.foreign with log := t.foreign.log } ∧
          (∀ a, NthMatch startHi endHi template s idx.toNat a →
            found = BitVec.ofNat 32 a ∧
            t.foreign.log = ((List.range (a + 1 - startHi.toNat * 65536)).flatMap fun i =>
              candidateReads template s (BitVec.ofNat 32 (startHi.toNat * 65536 + i))).reverse ++ s.foreign.log) ∧
          ((∀ a, ¬ NthMatch startHi endHi template s idx.toNat a) →
            found = 0 ∧
            t.foreign.log = ((List.range (endHi.toNat * 65536 + 1 - (startHi.toNat * 65536 + template.length))).flatMap
              fun i => candidateReads template s (BitVec.ofNat 32 (startHi.toNat * 65536 + i))).reverse
              ++ s.foreign.log))

/-- The line a SearchTemplate writes is what the very next step decodes and executes (R72, R311): the pointer becomes the
address found, which is the address the search answers and the one the line at the cursor holds. What that address is,
`SearchRewritesTheStream` says. -/
def Obligations.RewrittenLineRunsNext : Prop :=
  ∀ s idx startHi endHi template, s.Inv → s.host = [] → s.runState = .running → s.rem.toNat % 8 = 0 → s.rem ≠ 0 →
    decode s.params.opc s.remaining = .ok (.search idx startHi endHi template) →
    ∃ found t, step s = .next t ∧ t.pc = s.pc ∧ t.rem = s.rem - BitVec.ofNat 32 (padded template.length) ∧
      found = (searchTemplate idx startHi endHi template s).1 ∧
      (∀ k < 8, t.streamByte (t.pc.toNat + k)
        = ([s.params.opc.value .ldptrd, 0, 0, 0] ++ be32Bytes found).getD k 0) ∧
      step t = .next { t with loadedPointer := found, pc := s.pc + 8, rem := t.rem - 8 } ∧
      (s.accessEnable = false → found = 0)

end
end

