-- ==== Sys2Proof/Laws/Memory.lean ====
section
/-! SUPPORT. The laws of cells, of the stream buffer and of the reference foreign memory: a read after a write, and the
canonical form that every operation keeps. -/

namespace Sys2Proof.Machine

/-! ## Cells -/

theorem lookupCell_insertCell (a : Nat) (b : Byte) (cs : List Host.Cell) (x : Nat) :
    lookupCell (insertCell a b cs) x = if a = x then some b else lookupCell cs x := by
  induction cs with
  | nil => simp [insertCell, lookupCell]
  | cons c t ih =>
    obtain ⟨k, v⟩ := c
    by_cases h1 : a < k
    · simp [insertCell, h1, lookupCell]
    · by_cases h2 : a = k
      · subst h2
        by_cases hx : a = x <;> simp [insertCell, lookupCell, hx]
      · by_cases hx : k = x
        · subst hx
          simp [insertCell, h1, h2, lookupCell]
        · simp [insertCell, h1, h2, lookupCell, hx, ih]

theorem lookupCell_eraseCell (a : Nat) (cs : List Host.Cell) (x : Nat) :
    lookupCell (eraseCell a cs) x = if a = x then none else lookupCell cs x := by
  induction cs with
  | nil => simp [eraseCell, lookupCell]
  | cons c t ih =>
    obtain ⟨k, v⟩ := c
    simp only [eraseCell] at ih
    by_cases hk : k = a
    · subst hk
      by_cases hx : k = x
      · subst hx
        simpa [eraseCell] using ih
      · simpa [eraseCell, lookupCell, hx] using ih
    · by_cases hx : k = x
      · subst hx
        simp [eraseCell, lookupCell, hk, Ne.symm hk]
      · simp [eraseCell, lookupCell, hk, hx, ih]

theorem mem_insertCell {a : Nat} {b : Byte} {cs : List Host.Cell} {c : Host.Cell} (h : c ∈ insertCell a b cs) :
    c = (a, b) ∨ c ∈ cs := by
  induction cs with
  | nil => simpa [insertCell] using h
  | cons d t ih =>
    simp only [insertCell] at h
    split at h
    · simpa using h
    · split at h
      · rcases List.mem_cons.1 h with h | h
        · exact .inl h
        · exact .inr (List.mem_cons_of_mem _ h)
      · rcases List.mem_cons.1 h with h | h
        · exact .inr (h ▸ List.mem_cons_self ..)
        · exact (ih h).imp_right (List.mem_cons_of_mem _)

theorem cellsSorted_insertCell {a : Nat} {b : Byte} {cs : List Host.Cell} (h : cellsSorted cs) :
    cellsSorted (insertCell a b cs) := by
  induction cs with
  | nil => simp [insertCell, cellsSorted]
  | cons d t ih =>
    obtain ⟨hd, ht⟩ := List.pairwise_cons.1 h
    simp only [insertCell]
    split
    · rename_i hlt
      refine List.pairwise_cons.2 ⟨fun c hc => ?_, h⟩
      rcases List.mem_cons.1 hc with rfl | hc
      · exact hlt
      · exact lt_trans hlt (hd c hc)
    · split
      · rename_i _ heq
        exact List.pairwise_cons.2 ⟨fun c hc => by simpa [heq] using hd c hc, ht⟩
      · rename_i hlt hne
        refine List.pairwise_cons.2 ⟨fun c hc => ?_, ih ht⟩
        rcases mem_insertCell hc with rfl | hc
        · exact lt_of_le_of_ne (not_lt.1 hlt) (Ne.symm hne)
        · exact hd c hc

theorem mem_eraseCell {a : Nat} {cs : List Host.Cell} {c : Host.Cell} (h : c ∈ eraseCell a cs) : c ∈ cs :=
  (List.mem_filter.1 h).1

theorem cellsSorted_eraseCell {a : Nat} {cs : List Host.Cell} (h : cellsSorted cs) : cellsSorted (eraseCell a cs) :=
  List.Pairwise.filter _ h

/-! ## The stream buffer -/

theorem StreamBuffer.read_write (b : StreamBuffer) (i : Nat) (v : Byte) (x : Nat) :
    (b.write i v).read x = if i = x then v else b.read x := by
  simp only [StreamBuffer.read, StreamBuffer.write, lookupCell_insertCell]
  split <;> simp

theorem StreamBuffer.read_writeBytes (b : StreamBuffer) (i : Nat) (vs : List Byte) (x : Nat) :
    (b.writeBytes i vs).read x = if h : i ≤ x ∧ x - i < vs.length then vs[x - i]'h.2 else b.read x := by
  induction vs generalizing b i with
  | nil => simp [StreamBuffer.writeBytes]
  | cons v vs ih =>
    rw [StreamBuffer.writeBytes, ih]
    by_cases h0 : i = x
    · subst h0
      simp [StreamBuffer.read_write]
    · by_cases h1 : i + 1 ≤ x ∧ x - (i + 1) < vs.length
      · have e : x - i = x - (i + 1) + 1 := by omega
        have h2 : i ≤ x ∧ x - i < (v :: vs).length := by simp only [List.length_cons]; omega
        rw [dif_pos h1, dif_pos h2]
        simp [e]
      · have h2 : ¬(i ≤ x ∧ x - i < (v :: vs).length) := by simp only [List.length_cons]; omega
        rw [dif_neg h1, dif_neg h2, StreamBuffer.read_write, if_neg h0]

@[simp] theorem StreamBuffer.length_slice (b : StreamBuffer) (i n : Nat) : (b.slice i n).length = n := by
  induction n generalizing i with
  | zero => rfl
  | succ n ih => simp [StreamBuffer.slice, ih]

theorem StreamBuffer.getElem_slice (b : StreamBuffer) (i n k : Nat) (h : k < (b.slice i n).length) :
    (b.slice i n)[k] = b.read (i + k) := by
  induction n generalizing i k with
  | zero => simp at h
  | succ n ih =>
    cases k with
    | zero => simp [StreamBuffer.slice]
    | succ k =>
      simp only [StreamBuffer.slice, List.getElem_cons_succ]
      rw [ih]
      congr 1
      omega

@[simp] theorem State.length_remaining (s : State) : s.remaining.length = s.rem.toNat := by simp [State.remaining]

theorem StreamBuffer.wf_write {b : StreamBuffer} {cap i : Nat} {v : Byte} (h : b.wf cap) (hi : i < cap) :
    (b.write i v).wf cap := by
  refine ⟨cellsSorted_insertCell h.1, fun c hc => ?_⟩
  rcases mem_insertCell hc with rfl | hc
  · exact hi
  · exact h.2 c hc

theorem StreamBuffer.wf_writeBytes {b : StreamBuffer} {cap i : Nat} {vs : List Byte} (h : b.wf cap)
    (hi : i + vs.length ≤ cap) : (b.writeBytes i vs).wf cap := by
  induction vs generalizing b i with
  | nil => exact h
  | cons v vs ih =>
    simp only [List.length_cons] at hi
    exact ih (StreamBuffer.wf_write h (by omega)) (by omega)

/-! ## The reference foreign memory -/

theorem Memory.read_write (m : Memory) (a : Word) (v : Byte) (x : Word) :
    (m.write a v).read x = if a = x then v else m.read x := by
  have e : (a.toNat = x.toNat) ↔ a = x := BitVec.toNat_inj
  by_cases hv : v = Memory.unlisted
  · by_cases hx : a = x
    · simp [Memory.write, hv, Memory.read, lookupCell_eraseCell, hx]
    · simp [Memory.write, hv, Memory.read, lookupCell_eraseCell, hx, e]
  · by_cases hx : a = x
    · simp [Memory.write, hv, Memory.read, lookupCell_insertCell, hx]
    · simp [Memory.write, hv, Memory.read, lookupCell_insertCell, hx, e]

theorem Memory.read_writeBytes (m : Memory) (a : Word) (vs : List Byte) (x : Word) (hl : vs.length ≤ 2 ^ 32) :
    (m.writeBytes a vs).read x = if h : (x - a).toNat < vs.length then vs[(x - a).toNat]'h else m.read x := by
  induction vs generalizing m a with
  | nil => simp [Memory.writeBytes]
  | cons v vs ih =>
    simp only [List.length_cons] at hl
    rw [Memory.writeBytes, ih _ _ (by omega)]
    by_cases h0 : a = x
    · subst h0
      have e : (a - (a + 1)).toNat = 2 ^ 32 - 1 := by
        bv_omega
      rw [dif_neg (by omega), Memory.read_write, if_pos rfl]
      simp
    · have hne : (x - a).toNat ≠ 0 := by
        bv_omega
      have e : (x - (a + 1)).toNat + 1 = (x - a).toNat := by
        bv_omega
      by_cases h1 : (x - (a + 1)).toNat < vs.length
      · have h2 : (x - a).toNat < (v :: vs).length := by simp only [List.length_cons]; omega
        rw [dif_pos h1, dif_pos h2]
        simp [← e]
      · have h2 : ¬(x - a).toNat < (v :: vs).length := by simp only [List.length_cons]; omega
        rw [dif_neg h1, dif_neg h2, Memory.read_write, if_neg h0]

theorem Memory.wf_write {m : Memory} (a : Word) (v : Byte) (h : m.wf) : (m.write a v).wf := by
  unfold Memory.write
  split
  · exact ⟨cellsSorted_eraseCell h.1, fun c hc => h.2 c (mem_eraseCell hc)⟩
  · rename_i hv
    refine ⟨cellsSorted_insertCell h.1, fun c hc => ?_⟩
    rcases mem_insertCell hc with rfl | hc
    · exact ⟨hv, a.isLt⟩
    · exact h.2 c hc

theorem Memory.wf_writeBytes {m : Memory} (a : Word) (vs : List Byte) (h : m.wf) : (m.writeBytes a vs).wf := by
  induction vs generalizing m a with
  | nil => exact h
  | cons v vs ih => exact ih _ (Memory.wf_write a v h)

theorem Memory.wf_writeSized {m : Memory} (order : ByteOrder) (sz : ValueSize) (a v : Word) (h : m.wf) :
    (m.writeSized order sz a v).wf := Memory.wf_writeBytes a _ h

theorem Memory.wf_writeAll {m : Memory} (ws : List (Word × Byte)) (h : m.wf) : (m.writeAll ws).wf := by
  induction ws generalizing m with
  | nil => exact h
  | cons w ws ih => exact ih (m := m.write w.1 w.2) (Memory.wf_write w.1 w.2 h)

theorem Memory.wf_empty : Memory.wf ⟨[]⟩ := by simp [Memory.wf, cellsSorted]

end Sys2Proof.Machine
end

