-- ==== Sys2Proof/Laws/State.lean ====
section
/-! SUPPORT. What each update of the state leaves in each field, so that no proof unfolds an update. -/

namespace Sys2Proof.Machine

/-! ### advance -/

@[simp] theorem advance_stream (n : Nat) (s : State) : (advance n s).stream = s.stream := rfl
@[simp] theorem advance_pc (n : Nat) (s : State) : (advance n s).pc = s.pc + BitVec.ofNat 32 n := rfl
@[simp] theorem advance_rem (n : Nat) (s : State) : (advance n s).rem = s.rem - BitVec.ofNat 32 n := rfl
@[simp] theorem advance_ireg (n : Nat) (s : State) : (advance n s).ireg = s.ireg := rfl
@[simp] theorem advance_freg (n : Nat) (s : State) : (advance n s).freg = s.freg := rfl
@[simp] theorem advance_conditionFlag (n : Nat) (s : State) : (advance n s).conditionFlag = s.conditionFlag := rfl
@[simp] theorem advance_loadedPointer (n : Nat) (s : State) : (advance n s).loadedPointer = s.loadedPointer := rfl
@[simp] theorem advance_timeDependenceDelay (n : Nat) (s : State) : (advance n s).timeDependenceDelay = s.timeDependenceDelay := rfl
@[simp] theorem advance_executionCount (n : Nat) (s : State) : (advance n s).executionCount = s.executionCount := rfl
@[simp] theorem advance_runState (n : Nat) (s : State) : (advance n s).runState = s.runState := rfl
@[simp] theorem advance_fault (n : Nat) (s : State) : (advance n s).fault = s.fault := rfl
@[simp] theorem advance_accessEnable (n : Nat) (s : State) : (advance n s).accessEnable = s.accessEnable := rfl
@[simp] theorem advance_params (n : Nat) (s : State) : (advance n s).params = s.params := rfl
@[simp] theorem advance_foreign (n : Nat) (s : State) : (advance n s).foreign = s.foreign := rfl
@[simp] theorem advance_host (n : Nat) (s : State) : (advance n s).host = s.host := rfl

/-! ### setIreg -/

@[simp] theorem setIreg_stream (r : Reg) (v : Word) (s : State) : (setIreg r v s).stream = s.stream := rfl
@[simp] theorem setIreg_pc (r : Reg) (v : Word) (s : State) : (setIreg r v s).pc = s.pc := rfl
@[simp] theorem setIreg_rem (r : Reg) (v : Word) (s : State) : (setIreg r v s).rem = s.rem := rfl
@[simp] theorem setIreg_ireg (r : Reg) (v : Word) (s : State) : (setIreg r v s).ireg = s.ireg.set r.val v r.isLt := rfl
@[simp] theorem setIreg_freg (r : Reg) (v : Word) (s : State) : (setIreg r v s).freg = s.freg := rfl
@[simp] theorem setIreg_conditionFlag (r : Reg) (v : Word) (s : State) : (setIreg r v s).conditionFlag = s.conditionFlag := rfl
@[simp] theorem setIreg_loadedPointer (r : Reg) (v : Word) (s : State) : (setIreg r v s).loadedPointer = s.loadedPointer := rfl
@[simp] theorem setIreg_timeDependenceDelay (r : Reg) (v : Word) (s : State) : (setIreg r v s).timeDependenceDelay = s.timeDependenceDelay := rfl
@[simp] theorem setIreg_executionCount (r : Reg) (v : Word) (s : State) : (setIreg r v s).executionCount = s.executionCount := rfl
@[simp] theorem setIreg_runState (r : Reg) (v : Word) (s : State) : (setIreg r v s).runState = s.runState := rfl
@[simp] theorem setIreg_fault (r : Reg) (v : Word) (s : State) : (setIreg r v s).fault = s.fault := rfl
@[simp] theorem setIreg_accessEnable (r : Reg) (v : Word) (s : State) : (setIreg r v s).accessEnable = s.accessEnable := rfl
@[simp] theorem setIreg_params (r : Reg) (v : Word) (s : State) : (setIreg r v s).params = s.params := rfl
@[simp] theorem setIreg_foreign (r : Reg) (v : Word) (s : State) : (setIreg r v s).foreign = s.foreign := rfl
@[simp] theorem setIreg_host (r : Reg) (v : Word) (s : State) : (setIreg r v s).host = s.host := rfl

/-! ### setFreg -/

@[simp] theorem setFreg_stream (r : Reg) (v : Word) (s : State) : (setFreg r v s).stream = s.stream := rfl
@[simp] theorem setFreg_pc (r : Reg) (v : Word) (s : State) : (setFreg r v s).pc = s.pc := rfl
@[simp] theorem setFreg_rem (r : Reg) (v : Word) (s : State) : (setFreg r v s).rem = s.rem := rfl
@[simp] theorem setFreg_ireg (r : Reg) (v : Word) (s : State) : (setFreg r v s).ireg = s.ireg := rfl
@[simp] theorem setFreg_freg (r : Reg) (v : Word) (s : State) : (setFreg r v s).freg = s.freg.set r.val v r.isLt := rfl
@[simp] theorem setFreg_conditionFlag (r : Reg) (v : Word) (s : State) : (setFreg r v s).conditionFlag = s.conditionFlag := rfl
@[simp] theorem setFreg_loadedPointer (r : Reg) (v : Word) (s : State) : (setFreg r v s).loadedPointer = s.loadedPointer := rfl
@[simp] theorem setFreg_timeDependenceDelay (r : Reg) (v : Word) (s : State) : (setFreg r v s).timeDependenceDelay = s.timeDependenceDelay := rfl
@[simp] theorem setFreg_executionCount (r : Reg) (v : Word) (s : State) : (setFreg r v s).executionCount = s.executionCount := rfl
@[simp] theorem setFreg_runState (r : Reg) (v : Word) (s : State) : (setFreg r v s).runState = s.runState := rfl
@[simp] theorem setFreg_fault (r : Reg) (v : Word) (s : State) : (setFreg r v s).fault = s.fault := rfl
@[simp] theorem setFreg_accessEnable (r : Reg) (v : Word) (s : State) : (setFreg r v s).accessEnable = s.accessEnable := rfl
@[simp] theorem setFreg_params (r : Reg) (v : Word) (s : State) : (setFreg r v s).params = s.params := rfl
@[simp] theorem setFreg_foreign (r : Reg) (v : Word) (s : State) : (setFreg r v s).foreign = s.foreign := rfl
@[simp] theorem setFreg_host (r : Reg) (v : Word) (s : State) : (setFreg r v s).host = s.host := rfl

/-! ### setConditionFlag -/

@[simp] theorem setConditionFlag_stream (c : Bool) (s : State) : (setConditionFlag c s).stream = s.stream := rfl
@[simp] theorem setConditionFlag_pc (c : Bool) (s : State) : (setConditionFlag c s).pc = s.pc := rfl
@[simp] theorem setConditionFlag_rem (c : Bool) (s : State) : (setConditionFlag c s).rem = s.rem := rfl
@[simp] theorem setConditionFlag_ireg (c : Bool) (s : State) : (setConditionFlag c s).ireg = s.ireg := rfl
@[simp] theorem setConditionFlag_freg (c : Bool) (s : State) : (setConditionFlag c s).freg = s.freg := rfl
@[simp] theorem setConditionFlag_conditionFlag (c : Bool) (s : State) : (setConditionFlag c s).conditionFlag = c := rfl
@[simp] theorem setConditionFlag_loadedPointer (c : Bool) (s : State) : (setConditionFlag c s).loadedPointer = s.loadedPointer := rfl
@[simp] theorem setConditionFlag_timeDependenceDelay (c : Bool) (s : State) : (setConditionFlag c s).timeDependenceDelay = s.timeDependenceDelay := rfl
@[simp] theorem setConditionFlag_executionCount (c : Bool) (s : State) : (setConditionFlag c s).executionCount = s.executionCount := rfl
@[simp] theorem setConditionFlag_runState (c : Bool) (s : State) : (setConditionFlag c s).runState = s.runState := rfl
@[simp] theorem setConditionFlag_fault (c : Bool) (s : State) : (setConditionFlag c s).fault = s.fault := rfl
@[simp] theorem setConditionFlag_accessEnable (c : Bool) (s : State) : (setConditionFlag c s).accessEnable = s.accessEnable := rfl
@[simp] theorem setConditionFlag_params (c : Bool) (s : State) : (setConditionFlag c s).params = s.params := rfl
@[simp] theorem setConditionFlag_foreign (c : Bool) (s : State) : (setConditionFlag c s).foreign = s.foreign := rfl
@[simp] theorem setConditionFlag_host (c : Bool) (s : State) : (setConditionFlag c s).host = s.host := rfl

/-! ### setLoadedPointer -/

@[simp] theorem setLoadedPointer_stream (v : Word) (s : State) : (setLoadedPointer v s).stream = s.stream := rfl
@[simp] theorem setLoadedPointer_pc (v : Word) (s : State) : (setLoadedPointer v s).pc = s.pc := rfl
@[simp] theorem setLoadedPointer_rem (v : Word) (s : State) : (setLoadedPointer v s).rem = s.rem := rfl
@[simp] theorem setLoadedPointer_ireg (v : Word) (s : State) : (setLoadedPointer v s).ireg = s.ireg := rfl
@[simp] theorem setLoadedPointer_freg (v : Word) (s : State) : (setLoadedPointer v s).freg = s.freg := rfl
@[simp] theorem setLoadedPointer_conditionFlag (v : Word) (s : State) : (setLoadedPointer v s).conditionFlag = s.conditionFlag := rfl
@[simp] theorem setLoadedPointer_loadedPointer (v : Word) (s : State) : (setLoadedPointer v s).loadedPointer = v := rfl
@[simp] theorem setLoadedPointer_timeDependenceDelay (v : Word) (s : State) : (setLoadedPointer v s).timeDependenceDelay = s.timeDependenceDelay := rfl
@[simp] theorem setLoadedPointer_executionCount (v : Word) (s : State) : (setLoadedPointer v s).executionCount = s.executionCount := rfl
@[simp] theorem setLoadedPointer_runState (v : Word) (s : State) : (setLoadedPointer v s).runState = s.runState := rfl
@[simp] theorem setLoadedPointer_fault (v : Word) (s : State) : (setLoadedPointer v s).fault = s.fault := rfl
@[simp] theorem setLoadedPointer_accessEnable (v : Word) (s : State) : (setLoadedPointer v s).accessEnable = s.accessEnable := rfl
@[simp] theorem setLoadedPointer_params (v : Word) (s : State) : (setLoadedPointer v s).params = s.params := rfl
@[simp] theorem setLoadedPointer_foreign (v : Word) (s : State) : (setLoadedPointer v s).foreign = s.foreign := rfl
@[simp] theorem setLoadedPointer_host (v : Word) (s : State) : (setLoadedPointer v s).host = s.host := rfl

/-! ### finishRun -/

@[simp] theorem finishRun_stream (s : State) : (finishRun s).stream = s.stream := rfl
@[simp] theorem finishRun_pc (s : State) : (finishRun s).pc = s.pc := rfl
@[simp] theorem finishRun_rem (s : State) : (finishRun s).rem = s.rem := rfl
@[simp] theorem finishRun_ireg (s : State) : (finishRun s).ireg = s.ireg := rfl
@[simp] theorem finishRun_freg (s : State) : (finishRun s).freg = s.freg := rfl
@[simp] theorem finishRun_conditionFlag (s : State) : (finishRun s).conditionFlag = s.conditionFlag := rfl
@[simp] theorem finishRun_loadedPointer (s : State) : (finishRun s).loadedPointer = s.loadedPointer := rfl
@[simp] theorem finishRun_timeDependenceDelay (s : State) : (finishRun s).timeDependenceDelay = s.timeDependenceDelay := rfl
@[simp] theorem finishRun_executionCount (s : State) : (finishRun s).executionCount = s.executionCount + 1 := rfl
@[simp] theorem finishRun_runState (s : State) : (finishRun s).runState = .done := rfl
@[simp] theorem finishRun_fault (s : State) : (finishRun s).fault = s.fault := rfl
@[simp] theorem finishRun_accessEnable (s : State) : (finishRun s).accessEnable = s.accessEnable := rfl
@[simp] theorem finishRun_params (s : State) : (finishRun s).params = s.params := rfl
@[simp] theorem finishRun_foreign (s : State) : (finishRun s).foreign = s.foreign := rfl
@[simp] theorem finishRun_host (s : State) : (finishRun s).host = s.host := rfl

/-! ### startRun -/

@[simp] theorem startRun_stream (l : Word) (s : State) : (startRun l s).stream = s.stream := rfl
@[simp] theorem startRun_pc (l : Word) (s : State) : (startRun l s).pc = 0 := rfl
@[simp] theorem startRun_rem (l : Word) (s : State) : (startRun l s).rem = l := rfl
@[simp] theorem startRun_ireg (l : Word) (s : State) : (startRun l s).ireg = s.ireg := rfl
@[simp] theorem startRun_freg (l : Word) (s : State) : (startRun l s).freg = s.freg := rfl
@[simp] theorem startRun_conditionFlag (l : Word) (s : State) : (startRun l s).conditionFlag = false := rfl
@[simp] theorem startRun_loadedPointer (l : Word) (s : State) : (startRun l s).loadedPointer = 0 := rfl
@[simp] theorem startRun_timeDependenceDelay (l : Word) (s : State) : (startRun l s).timeDependenceDelay = s.timeDependenceDelay := rfl
@[simp] theorem startRun_executionCount (l : Word) (s : State) : (startRun l s).executionCount = s.executionCount := rfl
@[simp] theorem startRun_runState (l : Word) (s : State) : (startRun l s).runState = .running := rfl
@[simp] theorem startRun_fault (l : Word) (s : State) : (startRun l s).fault = s.fault := rfl
@[simp] theorem startRun_accessEnable (l : Word) (s : State) : (startRun l s).accessEnable = s.accessEnable := rfl
@[simp] theorem startRun_params (l : Word) (s : State) : (startRun l s).params = s.params := rfl
@[simp] theorem startRun_foreign (l : Word) (s : State) : (startRun l s).foreign = s.foreign := rfl
@[simp] theorem startRun_host (l : Word) (s : State) : (startRun l s).host = s.host := rfl

/-! ### initializeBlock -/

@[simp] theorem initializeBlock_stream (s : State) : (initializeBlock s).stream = s.stream := rfl
@[simp] theorem initializeBlock_pc (s : State) : (initializeBlock s).pc = 0 := rfl
@[simp] theorem initializeBlock_rem (s : State) : (initializeBlock s).rem = 0 := rfl
@[simp] theorem initializeBlock_ireg (s : State) : (initializeBlock s).ireg = Vector.replicate 8 0 := rfl
@[simp] theorem initializeBlock_freg (s : State) : (initializeBlock s).freg = Vector.replicate 8 0 := rfl
@[simp] theorem initializeBlock_conditionFlag (s : State) : (initializeBlock s).conditionFlag = false := rfl
@[simp] theorem initializeBlock_loadedPointer (s : State) : (initializeBlock s).loadedPointer = 0 := rfl
@[simp] theorem initializeBlock_timeDependenceDelay (s : State) : (initializeBlock s).timeDependenceDelay = 0 := rfl
@[simp] theorem initializeBlock_executionCount (s : State) : (initializeBlock s).executionCount = 0 := rfl
@[simp] theorem initializeBlock_runState (s : State) : (initializeBlock s).runState = .idle := rfl
@[simp] theorem initializeBlock_fault (s : State) : (initializeBlock s).fault = .clear := rfl
@[simp] theorem initializeBlock_accessEnable (s : State) : (initializeBlock s).accessEnable = s.accessEnable := rfl
@[simp] theorem initializeBlock_params (s : State) : (initializeBlock s).params = s.params := rfl
@[simp] theorem initializeBlock_foreign (s : State) : (initializeBlock s).foreign = s.foreign := rfl
@[simp] theorem initializeBlock_host (s : State) : (initializeBlock s).host = s.host := rfl

/-! ### logTransaction -/

@[simp] theorem logTransaction_stream (x : Transaction) (s : State) : (logTransaction x s).stream = s.stream := rfl
@[simp] theorem logTransaction_pc (x : Transaction) (s : State) : (logTransaction x s).pc = s.pc := rfl
@[simp] theorem logTransaction_rem (x : Transaction) (s : State) : (logTransaction x s).rem = s.rem := rfl
@[simp] theorem logTransaction_ireg (x : Transaction) (s : State) : (logTransaction x s).ireg = s.ireg := rfl
@[simp] theorem logTransaction_freg (x : Transaction) (s : State) : (logTransaction x s).freg = s.freg := rfl
@[simp] theorem logTransaction_conditionFlag (x : Transaction) (s : State) : (logTransaction x s).conditionFlag = s.conditionFlag := rfl
@[simp] theorem logTransaction_loadedPointer (x : Transaction) (s : State) : (logTransaction x s).loadedPointer = s.loadedPointer := rfl
@[simp] theorem logTransaction_timeDependenceDelay (x : Transaction) (s : State) : (logTransaction x s).timeDependenceDelay = s.timeDependenceDelay := rfl
@[simp] theorem logTransaction_executionCount (x : Transaction) (s : State) : (logTransaction x s).executionCount = s.executionCount := rfl
@[simp] theorem logTransaction_runState (x : Transaction) (s : State) : (logTransaction x s).runState = s.runState := rfl
@[simp] theorem logTransaction_fault (x : Transaction) (s : State) : (logTransaction x s).fault = s.fault := rfl
@[simp] theorem logTransaction_accessEnable (x : Transaction) (s : State) : (logTransaction x s).accessEnable = s.accessEnable := rfl
@[simp] theorem logTransaction_params (x : Transaction) (s : State) : (logTransaction x s).params = s.params := rfl
@[simp] theorem logTransaction_foreign (x : Transaction) (s : State) : (logTransaction x s).foreign = { s.foreign with log := x :: s.foreign.log } := rfl
@[simp] theorem logTransaction_host (x : Transaction) (s : State) : (logTransaction x s).host = s.host := rfl

/-! ### raiseFatal -/

@[simp] theorem raiseFatal_stream (c : FaultCode) (i : Word) (s : State) : (raiseFatal c i s).stream = s.stream := rfl
@[simp] theorem raiseFatal_pc (c : FaultCode) (i : Word) (s : State) : (raiseFatal c i s).pc = s.pc := rfl
@[simp] theorem raiseFatal_rem (c : FaultCode) (i : Word) (s : State) : (raiseFatal c i s).rem = s.rem := rfl
@[simp] theorem raiseFatal_ireg (c : FaultCode) (i : Word) (s : State) : (raiseFatal c i s).ireg = s.ireg := rfl
@[simp] theorem raiseFatal_freg (c : FaultCode) (i : Word) (s : State) : (raiseFatal c i s).freg = s.freg := rfl
@[simp] theorem raiseFatal_conditionFlag (c : FaultCode) (i : Word) (s : State) : (raiseFatal c i s).conditionFlag = s.conditionFlag := rfl
@[simp] theorem raiseFatal_loadedPointer (c : FaultCode) (i : Word) (s : State) : (raiseFatal c i s).loadedPointer = s.loadedPointer := rfl
@[simp] theorem raiseFatal_timeDependenceDelay (c : FaultCode) (i : Word) (s : State) : (raiseFatal c i s).timeDependenceDelay = s.timeDependenceDelay := rfl
@[simp] theorem raiseFatal_executionCount (c : FaultCode) (i : Word) (s : State) : (raiseFatal c i s).executionCount = s.executionCount := rfl
@[simp] theorem raiseFatal_runState (c : FaultCode) (i : Word) (s : State) : (raiseFatal c i s).runState = .fatal := rfl
@[simp] theorem raiseFatal_fault (c : FaultCode) (i : Word) (s : State) : (raiseFatal c i s).fault = faultRecord c i s := rfl
@[simp] theorem raiseFatal_accessEnable (c : FaultCode) (i : Word) (s : State) : (raiseFatal c i s).accessEnable = s.accessEnable := rfl
@[simp] theorem raiseFatal_params (c : FaultCode) (i : Word) (s : State) : (raiseFatal c i s).params = s.params := rfl
@[simp] theorem raiseFatal_foreign (c : FaultCode) (i : Word) (s : State) : (raiseFatal c i s).foreign = { s.foreign with log := .fatal (faultRecord c i s) :: s.foreign.log } := rfl
@[simp] theorem raiseFatal_host (c : FaultCode) (i : Word) (s : State) : (raiseFatal c i s).host = s.host := rfl

/-! ### rewriteStream -/

@[simp] theorem rewriteStream_pc (a : Word) (pad : Nat) (s : State) : (rewriteStream a pad s).pc = s.pc := rfl
@[simp] theorem rewriteStream_rem (a : Word) (pad : Nat) (s : State) : (rewriteStream a pad s).rem = s.rem - BitVec.ofNat 32 pad := rfl
@[simp] theorem rewriteStream_ireg (a : Word) (pad : Nat) (s : State) : (rewriteStream a pad s).ireg = s.ireg := rfl
@[simp] theorem rewriteStream_freg (a : Word) (pad : Nat) (s : State) : (rewriteStream a pad s).freg = s.freg := rfl
@[simp] theorem rewriteStream_conditionFlag (a : Word) (pad : Nat) (s : State) : (rewriteStream a pad s).conditionFlag = s.conditionFlag := rfl
@[simp] theorem rewriteStream_loadedPointer (a : Word) (pad : Nat) (s : State) : (rewriteStream a pad s).loadedPointer = s.loadedPointer := rfl
@[simp] theorem rewriteStream_timeDependenceDelay (a : Word) (pad : Nat) (s : State) : (rewriteStream a pad s).timeDependenceDelay = s.timeDependenceDelay := rfl
@[simp] theorem rewriteStream_executionCount (a : Word) (pad : Nat) (s : State) : (rewriteStream a pad s).executionCount = s.executionCount := rfl
@[simp] theorem rewriteStream_runState (a : Word) (pad : Nat) (s : State) : (rewriteStream a pad s).runState = s.runState := rfl
@[simp] theorem rewriteStream_fault (a : Word) (pad : Nat) (s : State) : (rewriteStream a pad s).fault = s.fault := rfl
@[simp] theorem rewriteStream_accessEnable (a : Word) (pad : Nat) (s : State) : (rewriteStream a pad s).accessEnable = s.accessEnable := rfl
@[simp] theorem rewriteStream_params (a : Word) (pad : Nat) (s : State) : (rewriteStream a pad s).params = s.params := rfl
@[simp] theorem rewriteStream_foreign (a : Word) (pad : Nat) (s : State) : (rewriteStream a pad s).foreign = s.foreign := rfl
@[simp] theorem rewriteStream_host (a : Word) (pad : Nat) (s : State) : (rewriteStream a pad s).host = s.host := rfl

end Sys2Proof.Machine
end

