-- ==== Sys2Proof/Laws/Ports.lean ====
section
/-! SUPPORT. What the port operations can do: they change the foreign system alone, keep its memory in canonical form, and
do nothing when access is disabled (R75). -/

namespace Sys2Proof.Machine

theorem onlyForeign.refl (s : State) : onlyForeign s s := rfl

theorem onlyForeign.trans {s t u : State} (h1 : onlyForeign s t) (h2 : onlyForeign t u) : onlyForeign s u := by
  unfold onlyForeign at *
  rw [h2, h1]

/-! ## Single transactions -/

theorem memRead_onlyForeign (sz : ValueSize) (a : Word) (s : State) : onlyForeign s (memRead sz a s).2 := by
  unfold memRead; split <;> rfl

theorem memWrite_onlyForeign (sz : ValueSize) (a v : Word) (s : State) : onlyForeign s (memWrite sz a v s) := by
  unfold memWrite; split <;> rfl

theorem callPort_onlyForeign (t : BitVec 64 → Transaction) (s : State) : onlyForeign s (callPort t s).2 := rfl

theorem memRead_enabled (sz : ValueSize) (a : Word) {s : State} (h : s.accessEnable = true) :
    memRead sz a s = ((s.foreign.answerRead sz a).1,
      logTransaction (.read a sz (s.foreign.answerRead sz a).1) { s with foreign := (s.foreign.answerRead sz a).2 }) := by
  simp [memRead, h]

theorem memRead_disabled (sz : ValueSize) (a : Word) {s : State} (h : s.accessEnable = false) :
    memRead sz a s = (truncate sz Config.drySentinel, s) := by
  simp [memRead, h]

theorem memWrite_enabled (sz : ValueSize) (a v : Word) {s : State} (h : s.accessEnable = true) :
    memWrite sz a v s = logTransaction (.write a sz (truncate sz v))
      { s with foreign.mem := s.foreign.mem.writeSized s.foreign.order sz a v } := by
  simp [memWrite, h]

theorem memWrite_disabled (sz : ValueSize) (a v : Word) {s : State} (h : s.accessEnable = false) :
    memWrite sz a v s = s := by
  simp [memWrite, h]

theorem answerRead_mem (f : Foreign) (sz : ValueSize) (a : Word) : (f.answerRead sz a).2.mem = f.mem := by
  unfold Foreign.answerRead
  split
  · rfl
  · split <;> rfl

@[simp] theorem memRead_mem (sz : ValueSize) (a : Word) (s : State) :
    (memRead sz a s).2.foreign.mem = s.foreign.mem := by
  unfold memRead
  split
  · exact answerRead_mem _ _ _
  · rfl

theorem memWrite_wf {sz : ValueSize} {a v : Word} {s : State} (h : s.foreign.mem.wf) :
    (memWrite sz a v s).foreign.mem.wf := by
  unfold memWrite
  split
  · exact Memory.wf_writeSized _ _ _ _ h
  · exact h

theorem answerCall_wf {f : Foreign} (h : f.mem.wf) : f.answerCall.2.mem.wf := by
  unfold Foreign.answerCall
  split
  · exact Memory.wf_writeAll _ h
  · exact Memory.wf_writeAll _ Memory.wf_empty

theorem callPort_wf {t : BitVec 64 → Transaction} {s : State} (h : s.foreign.mem.wf) :
    (callPort t s).2.foreign.mem.wf := answerCall_wf (f := s.foreign) h

/-! ## The loops of the multi-access instructions (R66) -/

theorem writeString_onlyForeign (bs : List Byte) (a : Word) (s : State) : onlyForeign s (writeString bs a s) := by
  induction bs generalizing a s with
  | nil => exact .refl s
  | cons b bs ih => exact (memWrite_onlyForeign ..).trans (ih _ _)

theorem writeSeries_onlyForeign (sz : ValueSize) (st inc : Word) (n : Nat) (a v : Word) (s : State) :
    onlyForeign s (writeSeries sz st inc n a v s) := by
  induction n generalizing a v s with
  | zero => exact .refl s
  | succ n ih => exact (memWrite_onlyForeign ..).trans (ih _ _ _)

theorem corruptWord_onlyForeign (find repl a : Word) (s : State) : onlyForeign s (corruptWord find repl a s) := by
  unfold corruptWord
  dsimp only
  split
  · exact (memRead_onlyForeign ..).trans (memWrite_onlyForeign ..)
  · exact memRead_onlyForeign ..

theorem corruptLoop_onlyForeign (find repl : Word) (n : Nat) (a : Word) (s : State) :
    onlyForeign s (corruptLoop find repl n a s) := by
  induction n generalizing a s with
  | zero => exact .refl s
  | succ n ih => exact (corruptWord_onlyForeign ..).trans (ih _ _)

theorem matchTemplate_onlyForeign (bs : List Byte) (a : Word) (s : State) :
    onlyForeign s (matchTemplate bs a s).2 := by
  induction bs generalizing a s with
  | nil => exact .refl s
  | cons b bs ih =>
    rw [matchTemplate]
    split
    · exact (memRead_onlyForeign ..).trans (ih _ _)
    · exact memRead_onlyForeign ..

theorem searchLoop_onlyForeign (t : List Byte) (n : Nat) (a : Word) (k : Nat) (s : State) :
    onlyForeign s (searchLoop t n a k s).2 := by
  induction n generalizing a k s with
  | zero => exact .refl s
  | succ n ih =>
    rw [searchLoop]
    split
    · split
      · exact matchTemplate_onlyForeign ..
      · exact (matchTemplate_onlyForeign ..).trans (ih _ _ _)
    · exact (matchTemplate_onlyForeign ..).trans (ih _ _ _)

theorem searchTemplate_onlyForeign (i sh eh : HalfWord) (t : List Byte) (s : State) :
    onlyForeign s (searchTemplate i sh eh t s).2 := by
  unfold searchTemplate
  split
  · exact searchLoop_onlyForeign ..
  · exact .refl s

theorem writeString_wf {bs : List Byte} {a : Word} {s : State} (h : s.foreign.mem.wf) :
    (writeString bs a s).foreign.mem.wf := by
  induction bs generalizing a s with
  | nil => exact h
  | cons b bs ih => exact ih (memWrite_wf h)

theorem writeSeries_wf {sz : ValueSize} {st inc : Word} {n : Nat} {a v : Word} {s : State} (h : s.foreign.mem.wf) :
    (writeSeries sz st inc n a v s).foreign.mem.wf := by
  induction n generalizing a v s with
  | zero => exact h
  | succ n ih => exact ih (memWrite_wf h)

theorem corruptWord_wf {find repl a : Word} {s : State} (h : s.foreign.mem.wf) :
    (corruptWord find repl a s).foreign.mem.wf := by
  unfold corruptWord
  dsimp only
  split
  · exact memWrite_wf (by simpa using h)
  · simpa using h

theorem corruptLoop_wf {find repl : Word} {n : Nat} {a : Word} {s : State} (h : s.foreign.mem.wf) :
    (corruptLoop find repl n a s).foreign.mem.wf := by
  induction n generalizing a s with
  | zero => exact h
  | succ n ih => exact ih (corruptWord_wf h)

@[simp] theorem matchTemplate_mem (bs : List Byte) (a : Word) (s : State) :
    (matchTemplate bs a s).2.foreign.mem = s.foreign.mem := by
  induction bs generalizing a s with
  | nil => rfl
  | cons b bs ih =>
    rw [matchTemplate]
    split
    · rw [ih, memRead_mem]
    · exact memRead_mem ..

@[simp] theorem searchLoop_mem (t : List Byte) (n : Nat) (a : Word) (k : Nat) (s : State) :
    (searchLoop t n a k s).2.foreign.mem = s.foreign.mem := by
  induction n generalizing a k s with
  | zero => rfl
  | succ n ih =>
    rw [searchLoop]
    split
    · split
      · exact matchTemplate_mem ..
      · rw [ih, matchTemplate_mem]
    · rw [ih, matchTemplate_mem]

@[simp] theorem searchTemplate_mem (i sh eh : HalfWord) (t : List Byte) (s : State) :
    (searchTemplate i sh eh t s).2.foreign.mem = s.foreign.mem := by
  unfold searchTemplate
  split
  · exact searchLoop_mem ..
  · rfl

end Sys2Proof.Machine
end

