-- ==== Sys2Proof/Laws/PortFields.lean ====
section
/-! SUPPORT. Every field but the foreign system keeps its value in a port operation and in the loops over it: the instances of
`onlyForeign`, field by field, so that no proof unfolds a port operation. -/

namespace Sys2Proof.Machine

theorem onlyForeign.eq {s t : State} (h : onlyForeign s t) : t = { s with foreign := t.foreign } := h

/-! ### memRead -/

@[simp] theorem memRead_stream (sz : ValueSize) (a : Word) (s : State) :
    (memRead sz a s).2.stream = s.stream := by
  rw [(memRead_onlyForeign sz a s).eq]

@[simp] theorem memRead_pc (sz : ValueSize) (a : Word) (s : State) :
    (memRead sz a s).2.pc = s.pc := by
  rw [(memRead_onlyForeign sz a s).eq]

@[simp] theorem memRead_rem (sz : ValueSize) (a : Word) (s : State) :
    (memRead sz a s).2.rem = s.rem := by
  rw [(memRead_onlyForeign sz a s).eq]

@[simp] theorem memRead_ireg (sz : ValueSize) (a : Word) (s : State) :
    (memRead sz a s).2.ireg = s.ireg := by
  rw [(memRead_onlyForeign sz a s).eq]

@[simp] theorem memRead_freg (sz : ValueSize) (a : Word) (s : State) :
    (memRead sz a s).2.freg = s.freg := by
  rw [(memRead_onlyForeign sz a s).eq]

@[simp] theorem memRead_conditionFlag (sz : ValueSize) (a : Word) (s : State) :
    (memRead sz a s).2.conditionFlag = s.conditionFlag := by
  rw [(memRead_onlyForeign sz a s).eq]

@[simp] theorem memRead_loadedPointer (sz : ValueSize) (a : Word) (s : State) :
    (memRead sz a s).2.loadedPointer = s.loadedPointer := by
  rw [(memRead_onlyForeign sz a s).eq]

@[simp] theorem memRead_timeDependenceDelay (sz : ValueSize) (a : Word) (s : State) :
    (memRead sz a s).2.timeDependenceDelay = s.timeDependenceDelay := by
  rw [(memRead_onlyForeign sz a s).eq]

@[simp] theorem memRead_executionCount (sz : ValueSize) (a : Word) (s : State) :
    (memRead sz a s).2.executionCount = s.executionCount := by
  rw [(memRead_onlyForeign sz a s).eq]

@[simp] theorem memRead_runState (sz : ValueSize) (a : Word) (s : State) :
    (memRead sz a s).2.runState = s.runState := by
  rw [(memRead_onlyForeign sz a s).eq]

@[simp] theorem memRead_fault (sz : ValueSize) (a : Word) (s : State) :
    (memRead sz a s).2.fault = s.fault := by
  rw [(memRead_onlyForeign sz a s).eq]

@[simp] theorem memRead_accessEnable (sz : ValueSize) (a : Word) (s : State) :
    (memRead sz a s).2.accessEnable = s.accessEnable := by
  rw [(memRead_onlyForeign sz a s).eq]

@[simp] theorem memRead_params (sz : ValueSize) (a : Word) (s : State) :
    (memRead sz a s).2.params = s.params := by
  rw [(memRead_onlyForeign sz a s).eq]

@[simp] theorem memRead_host (sz : ValueSize) (a : Word) (s : State) :
    (memRead sz a s).2.host = s.host := by
  rw [(memRead_onlyForeign sz a s).eq]

/-! ### memWrite -/

@[simp] theorem memWrite_stream (sz : ValueSize) (a v : Word) (s : State) :
    (memWrite sz a v s).stream = s.stream := by
  rw [(memWrite_onlyForeign sz a v s).eq]

@[simp] theorem memWrite_pc (sz : ValueSize) (a v : Word) (s : State) :
    (memWrite sz a v s).pc = s.pc := by
  rw [(memWrite_onlyForeign sz a v s).eq]

@[simp] theorem memWrite_rem (sz : ValueSize) (a v : Word) (s : State) :
    (memWrite sz a v s).rem = s.rem := by
  rw [(memWrite_onlyForeign sz a v s).eq]

@[simp] theorem memWrite_ireg (sz : ValueSize) (a v : Word) (s : State) :
    (memWrite sz a v s).ireg = s.ireg := by
  rw [(memWrite_onlyForeign sz a v s).eq]

@[simp] theorem memWrite_freg (sz : ValueSize) (a v : Word) (s : State) :
    (memWrite sz a v s).freg = s.freg := by
  rw [(memWrite_onlyForeign sz a v s).eq]

@[simp] theorem memWrite_conditionFlag (sz : ValueSize) (a v : Word) (s : State) :
    (memWrite sz a v s).conditionFlag = s.conditionFlag := by
  rw [(memWrite_onlyForeign sz a v s).eq]

@[simp] theorem memWrite_loadedPointer (sz : ValueSize) (a v : Word) (s : State) :
    (memWrite sz a v s).loadedPointer = s.loadedPointer := by
  rw [(memWrite_onlyForeign sz a v s).eq]

@[simp] theorem memWrite_timeDependenceDelay (sz : ValueSize) (a v : Word) (s : State) :
    (memWrite sz a v s).timeDependenceDelay = s.timeDependenceDelay := by
  rw [(memWrite_onlyForeign sz a v s).eq]

@[simp] theorem memWrite_executionCount (sz : ValueSize) (a v : Word) (s : State) :
    (memWrite sz a v s).executionCount = s.executionCount := by
  rw [(memWrite_onlyForeign sz a v s).eq]

@[simp] theorem memWrite_runState (sz : ValueSize) (a v : Word) (s : State) :
    (memWrite sz a v s).runState = s.runState := by
  rw [(memWrite_onlyForeign sz a v s).eq]

@[simp] theorem memWrite_fault (sz : ValueSize) (a v : Word) (s : State) :
    (memWrite sz a v s).fault = s.fault := by
  rw [(memWrite_onlyForeign sz a v s).eq]

@[simp] theorem memWrite_accessEnable (sz : ValueSize) (a v : Word) (s : State) :
    (memWrite sz a v s).accessEnable = s.accessEnable := by
  rw [(memWrite_onlyForeign sz a v s).eq]

@[simp] theorem memWrite_params (sz : ValueSize) (a v : Word) (s : State) :
    (memWrite sz a v s).params = s.params := by
  rw [(memWrite_onlyForeign sz a v s).eq]

@[simp] theorem memWrite_host (sz : ValueSize) (a v : Word) (s : State) :
    (memWrite sz a v s).host = s.host := by
  rw [(memWrite_onlyForeign sz a v s).eq]

/-! ### callPort -/

@[simp] theorem callPort_stream (t : BitVec 64 → Transaction) (s : State) :
    (callPort t s).2.stream = s.stream := by
  rw [(callPort_onlyForeign t s).eq]

@[simp] theorem callPort_pc (t : BitVec 64 → Transaction) (s : State) :
    (callPort t s).2.pc = s.pc := by
  rw [(callPort_onlyForeign t s).eq]

@[simp] theorem callPort_rem (t : BitVec 64 → Transaction) (s : State) :
    (callPort t s).2.rem = s.rem := by
  rw [(callPort_onlyForeign t s).eq]

@[simp] theorem callPort_ireg (t : BitVec 64 → Transaction) (s : State) :
    (callPort t s).2.ireg = s.ireg := by
  rw [(callPort_onlyForeign t s).eq]

@[simp] theorem callPort_freg (t : BitVec 64 → Transaction) (s : State) :
    (callPort t s).2.freg = s.freg := by
  rw [(callPort_onlyForeign t s).eq]

@[simp] theorem callPort_conditionFlag (t : BitVec 64 → Transaction) (s : State) :
    (callPort t s).2.conditionFlag = s.conditionFlag := by
  rw [(callPort_onlyForeign t s).eq]

@[simp] theorem callPort_loadedPointer (t : BitVec 64 → Transaction) (s : State) :
    (callPort t s).2.loadedPointer = s.loadedPointer := by
  rw [(callPort_onlyForeign t s).eq]

@[simp] theorem callPort_timeDependenceDelay (t : BitVec 64 → Transaction) (s : State) :
    (callPort t s).2.timeDependenceDelay = s.timeDependenceDelay := by
  rw [(callPort_onlyForeign t s).eq]

@[simp] theorem callPort_executionCount (t : BitVec 64 → Transaction) (s : State) :
    (callPort t s).2.executionCount = s.executionCount := by
  rw [(callPort_onlyForeign t s).eq]

@[simp] theorem callPort_runState (t : BitVec 64 → Transaction) (s : State) :
    (callPort t s).2.runState = s.runState := by
  rw [(callPort_onlyForeign t s).eq]

@[simp] theorem callPort_fault (t : BitVec 64 → Transaction) (s : State) :
    (callPort t s).2.fault = s.fault := by
  rw [(callPort_onlyForeign t s).eq]

@[simp] theorem callPort_accessEnable (t : BitVec 64 → Transaction) (s : State) :
    (callPort t s).2.accessEnable = s.accessEnable := by
  rw [(callPort_onlyForeign t s).eq]

@[simp] theorem callPort_params (t : BitVec 64 → Transaction) (s : State) :
    (callPort t s).2.params = s.params := by
  rw [(callPort_onlyForeign t s).eq]

@[simp] theorem callPort_host (t : BitVec 64 → Transaction) (s : State) :
    (callPort t s).2.host = s.host := by
  rw [(callPort_onlyForeign t s).eq]

/-! ### writeString -/

@[simp] theorem writeString_stream (bs : List Byte) (a : Word) (s : State) :
    (writeString bs a s).stream = s.stream := by
  rw [(writeString_onlyForeign bs a s).eq]

@[simp] theorem writeString_pc (bs : List Byte) (a : Word) (s : State) :
    (writeString bs a s).pc = s.pc := by
  rw [(writeString_onlyForeign bs a s).eq]

@[simp] theorem writeString_rem (bs : List Byte) (a : Word) (s : State) :
    (writeString bs a s).rem = s.rem := by
  rw [(writeString_onlyForeign bs a s).eq]

@[simp] theorem writeString_ireg (bs : List Byte) (a : Word) (s : State) :
    (writeString bs a s).ireg = s.ireg := by
  rw [(writeString_onlyForeign bs a s).eq]

@[simp] theorem writeString_freg (bs : List Byte) (a : Word) (s : State) :
    (writeString bs a s).freg = s.freg := by
  rw [(writeString_onlyForeign bs a s).eq]

@[simp] theorem writeString_conditionFlag (bs : List Byte) (a : Word) (s : State) :
    (writeString bs a s).conditionFlag = s.conditionFlag := by
  rw [(writeString_onlyForeign bs a s).eq]

@[simp] theorem writeString_loadedPointer (bs : List Byte) (a : Word) (s : State) :
    (writeString bs a s).loadedPointer = s.loadedPointer := by
  rw [(writeString_onlyForeign bs a s).eq]

@[simp] theorem writeString_timeDependenceDelay (bs : List Byte) (a : Word) (s : State) :
    (writeString bs a s).timeDependenceDelay = s.timeDependenceDelay := by
  rw [(writeString_onlyForeign bs a s).eq]

@[simp] theorem writeString_executionCount (bs : List Byte) (a : Word) (s : State) :
    (writeString bs a s).executionCount = s.executionCount := by
  rw [(writeString_onlyForeign bs a s).eq]

@[simp] theorem writeString_runState (bs : List Byte) (a : Word) (s : State) :
    (writeString bs a s).runState = s.runState := by
  rw [(writeString_onlyForeign bs a s).eq]

@[simp] theorem writeString_fault (bs : List Byte) (a : Word) (s : State) :
    (writeString bs a s).fault = s.fault := by
  rw [(writeString_onlyForeign bs a s).eq]

@[simp] theorem writeString_accessEnable (bs : List Byte) (a : Word) (s : State) :
    (writeString bs a s).accessEnable = s.accessEnable := by
  rw [(writeString_onlyForeign bs a s).eq]

@[simp] theorem writeString_params (bs : List Byte) (a : Word) (s : State) :
    (writeString bs a s).params = s.params := by
  rw [(writeString_onlyForeign bs a s).eq]

@[simp] theorem writeString_host (bs : List Byte) (a : Word) (s : State) :
    (writeString bs a s).host = s.host := by
  rw [(writeString_onlyForeign bs a s).eq]

/-! ### writeSeries -/

@[simp] theorem writeSeries_stream (sz : ValueSize) (st inc : Word) (n : Nat) (a v : Word) (s : State) :
    (writeSeries sz st inc n a v s).stream = s.stream := by
  rw [(writeSeries_onlyForeign sz st inc n a v s).eq]

@[simp] theorem writeSeries_pc (sz : ValueSize) (st inc : Word) (n : Nat) (a v : Word) (s : State) :
    (writeSeries sz st inc n a v s).pc = s.pc := by
  rw [(writeSeries_onlyForeign sz st inc n a v s).eq]

@[simp] theorem writeSeries_rem (sz : ValueSize) (st inc : Word) (n : Nat) (a v : Word) (s : State) :
    (writeSeries sz st inc n a v s).rem = s.rem := by
  rw [(writeSeries_onlyForeign sz st inc n a v s).eq]

@[simp] theorem writeSeries_ireg (sz : ValueSize) (st inc : Word) (n : Nat) (a v : Word) (s : State) :
    (writeSeries sz st inc n a v s).ireg = s.ireg := by
  rw [(writeSeries_onlyForeign sz st inc n a v s).eq]

@[simp] theorem writeSeries_freg (sz : ValueSize) (st inc : Word) (n : Nat) (a v : Word) (s : State) :
    (writeSeries sz st inc n a v s).freg = s.freg := by
  rw [(writeSeries_onlyForeign sz st inc n a v s).eq]

@[simp] theorem writeSeries_conditionFlag (sz : ValueSize) (st inc : Word) (n : Nat) (a v : Word) (s : State) :
    (writeSeries sz st inc n a v s).conditionFlag = s.conditionFlag := by
  rw [(writeSeries_onlyForeign sz st inc n a v s).eq]

@[simp] theorem writeSeries_loadedPointer (sz : ValueSize) (st inc : Word) (n : Nat) (a v : Word) (s : State) :
    (writeSeries sz st inc n a v s).loadedPointer = s.loadedPointer := by
  rw [(writeSeries_onlyForeign sz st inc n a v s).eq]

@[simp] theorem writeSeries_timeDependenceDelay (sz : ValueSize) (st inc : Word) (n : Nat) (a v : Word) (s : State) :
    (writeSeries sz st inc n a v s).timeDependenceDelay = s.timeDependenceDelay := by
  rw [(writeSeries_onlyForeign sz st inc n a v s).eq]

@[simp] theorem writeSeries_executionCount (sz : ValueSize) (st inc : Word) (n : Nat) (a v : Word) (s : State) :
    (writeSeries sz st inc n a v s).executionCount = s.executionCount := by
  rw [(writeSeries_onlyForeign sz st inc n a v s).eq]

@[simp] theorem writeSeries_runState (sz : ValueSize) (st inc : Word) (n : Nat) (a v : Word) (s : State) :
    (writeSeries sz st inc n a v s).runState = s.runState := by
  rw [(writeSeries_onlyForeign sz st inc n a v s).eq]

@[simp] theorem writeSeries_fault (sz : ValueSize) (st inc : Word) (n : Nat) (a v : Word) (s : State) :
    (writeSeries sz st inc n a v s).fault = s.fault := by
  rw [(writeSeries_onlyForeign sz st inc n a v s).eq]

@[simp] theorem writeSeries_accessEnable (sz : ValueSize) (st inc : Word) (n : Nat) (a v : Word) (s : State) :
    (writeSeries sz st inc n a v s).accessEnable = s.accessEnable := by
  rw [(writeSeries_onlyForeign sz st inc n a v s).eq]

@[simp] theorem writeSeries_params (sz : ValueSize) (st inc : Word) (n : Nat) (a v : Word) (s : State) :
    (writeSeries sz st inc n a v s).params = s.params := by
  rw [(writeSeries_onlyForeign sz st inc n a v s).eq]

@[simp] theorem writeSeries_host (sz : ValueSize) (st inc : Word) (n : Nat) (a v : Word) (s : State) :
    (writeSeries sz st inc n a v s).host = s.host := by
  rw [(writeSeries_onlyForeign sz st inc n a v s).eq]

/-! ### corruptLoop -/

@[simp] theorem corruptLoop_stream (find repl : Word) (n : Nat) (a : Word) (s : State) :
    (corruptLoop find repl n a s).stream = s.stream := by
  rw [(corruptLoop_onlyForeign find repl n a s).eq]

@[simp] theorem corruptLoop_pc (find repl : Word) (n : Nat) (a : Word) (s : State) :
    (corruptLoop find repl n a s).pc = s.pc := by
  rw [(corruptLoop_onlyForeign find repl n a s).eq]

@[simp] theorem corruptLoop_rem (find repl : Word) (n : Nat) (a : Word) (s : State) :
    (corruptLoop find repl n a s).rem = s.rem := by
  rw [(corruptLoop_onlyForeign find repl n a s).eq]

@[simp] theorem corruptLoop_ireg (find repl : Word) (n : Nat) (a : Word) (s : State) :
    (corruptLoop find repl n a s).ireg = s.ireg := by
  rw [(corruptLoop_onlyForeign find repl n a s).eq]

@[simp] theorem corruptLoop_freg (find repl : Word) (n : Nat) (a : Word) (s : State) :
    (corruptLoop find repl n a s).freg = s.freg := by
  rw [(corruptLoop_onlyForeign find repl n a s).eq]

@[simp] theorem corruptLoop_conditionFlag (find repl : Word) (n : Nat) (a : Word) (s : State) :
    (corruptLoop find repl n a s).conditionFlag = s.conditionFlag := by
  rw [(corruptLoop_onlyForeign find repl n a s).eq]

@[simp] theorem corruptLoop_loadedPointer (find repl : Word) (n : Nat) (a : Word) (s : State) :
    (corruptLoop find repl n a s).loadedPointer = s.loadedPointer := by
  rw [(corruptLoop_onlyForeign find repl n a s).eq]

@[simp] theorem corruptLoop_timeDependenceDelay (find repl : Word) (n : Nat) (a : Word) (s : State) :
    (corruptLoop find repl n a s).timeDependenceDelay = s.timeDependenceDelay := by
  rw [(corruptLoop_onlyForeign find repl n a s).eq]

@[simp] theorem corruptLoop_executionCount (find repl : Word) (n : Nat) (a : Word) (s : State) :
    (corruptLoop find repl n a s).executionCount = s.executionCount := by
  rw [(corruptLoop_onlyForeign find repl n a s).eq]

@[simp] theorem corruptLoop_runState (find repl : Word) (n : Nat) (a : Word) (s : State) :
    (corruptLoop find repl n a s).runState = s.runState := by
  rw [(corruptLoop_onlyForeign find repl n a s).eq]

@[simp] theorem corruptLoop_fault (find repl : Word) (n : Nat) (a : Word) (s : State) :
    (corruptLoop find repl n a s).fault = s.fault := by
  rw [(corruptLoop_onlyForeign find repl n a s).eq]

@[simp] theorem corruptLoop_accessEnable (find repl : Word) (n : Nat) (a : Word) (s : State) :
    (corruptLoop find repl n a s).accessEnable = s.accessEnable := by
  rw [(corruptLoop_onlyForeign find repl n a s).eq]

@[simp] theorem corruptLoop_params (find repl : Word) (n : Nat) (a : Word) (s : State) :
    (corruptLoop find repl n a s).params = s.params := by
  rw [(corruptLoop_onlyForeign find repl n a s).eq]

@[simp] theorem corruptLoop_host (find repl : Word) (n : Nat) (a : Word) (s : State) :
    (corruptLoop find repl n a s).host = s.host := by
  rw [(corruptLoop_onlyForeign find repl n a s).eq]

/-! ### searchTemplate -/

@[simp] theorem searchTemplate_stream (i sh eh : HalfWord) (t : List Byte) (s : State) :
    (searchTemplate i sh eh t s).2.stream = s.stream := by
  rw [(searchTemplate_onlyForeign i sh eh t s).eq]

@[simp] theorem searchTemplate_pc (i sh eh : HalfWord) (t : List Byte) (s : State) :
    (searchTemplate i sh eh t s).2.pc = s.pc := by
  rw [(searchTemplate_onlyForeign i sh eh t s).eq]

@[simp] theorem searchTemplate_rem (i sh eh : HalfWord) (t : List Byte) (s : State) :
    (searchTemplate i sh eh t s).2.rem = s.rem := by
  rw [(searchTemplate_onlyForeign i sh eh t s).eq]

@[simp] theorem searchTemplate_ireg (i sh eh : HalfWord) (t : List Byte) (s : State) :
    (searchTemplate i sh eh t s).2.ireg = s.ireg := by
  rw [(searchTemplate_onlyForeign i sh eh t s).eq]

@[simp] theorem searchTemplate_freg (i sh eh : HalfWord) (t : List Byte) (s : State) :
    (searchTemplate i sh eh t s).2.freg = s.freg := by
  rw [(searchTemplate_onlyForeign i sh eh t s).eq]

@[simp] theorem searchTemplate_conditionFlag (i sh eh : HalfWord) (t : List Byte) (s : State) :
    (searchTemplate i sh eh t s).2.conditionFlag = s.conditionFlag := by
  rw [(searchTemplate_onlyForeign i sh eh t s).eq]

@[simp] theorem searchTemplate_loadedPointer (i sh eh : HalfWord) (t : List Byte) (s : State) :
    (searchTemplate i sh eh t s).2.loadedPointer = s.loadedPointer := by
  rw [(searchTemplate_onlyForeign i sh eh t s).eq]

@[simp] theorem searchTemplate_timeDependenceDelay (i sh eh : HalfWord) (t : List Byte) (s : State) :
    (searchTemplate i sh eh t s).2.timeDependenceDelay = s.timeDependenceDelay := by
  rw [(searchTemplate_onlyForeign i sh eh t s).eq]

@[simp] theorem searchTemplate_executionCount (i sh eh : HalfWord) (t : List Byte) (s : State) :
    (searchTemplate i sh eh t s).2.executionCount = s.executionCount := by
  rw [(searchTemplate_onlyForeign i sh eh t s).eq]

@[simp] theorem searchTemplate_runState (i sh eh : HalfWord) (t : List Byte) (s : State) :
    (searchTemplate i sh eh t s).2.runState = s.runState := by
  rw [(searchTemplate_onlyForeign i sh eh t s).eq]

@[simp] theorem searchTemplate_fault (i sh eh : HalfWord) (t : List Byte) (s : State) :
    (searchTemplate i sh eh t s).2.fault = s.fault := by
  rw [(searchTemplate_onlyForeign i sh eh t s).eq]

@[simp] theorem searchTemplate_accessEnable (i sh eh : HalfWord) (t : List Byte) (s : State) :
    (searchTemplate i sh eh t s).2.accessEnable = s.accessEnable := by
  rw [(searchTemplate_onlyForeign i sh eh t s).eq]

@[simp] theorem searchTemplate_params (i sh eh : HalfWord) (t : List Byte) (s : State) :
    (searchTemplate i sh eh t s).2.params = s.params := by
  rw [(searchTemplate_onlyForeign i sh eh t s).eq]

@[simp] theorem searchTemplate_host (i sh eh : HalfWord) (t : List Byte) (s : State) :
    (searchTemplate i sh eh t s).2.host = s.host := by
  rw [(searchTemplate_onlyForeign i sh eh t s).eq]

end Sys2Proof.Machine
end

