-- ==== Sys2Proof/Laws/Scanner.lean ====
section
/-! SUPPORT. What the scanner and a skip can do (R170 to R172). -/

namespace Sys2Proof.Machine

theorem findPattern_le {pat w : List Byte} {k : Nat} (h : findPattern pat w = some k) : k + pat.length ≤ w.length := by
  induction w generalizing k with
  | nil => simp [findPattern] at h
  | cons b bs ih =>
    rw [findPattern] at h
    split at h
    · rename_i hp
      obtain rfl : 0 = k := by simpa using h
      have := (List.isPrefixOf_iff_prefix.1 hp).length_le
      omega
    · cases hf : findPattern pat bs with
      | none => simp [hf] at h
      | some j =>
        obtain rfl : j + 1 = k := by simpa [hf] using h
        have := ih hf
        simp only [List.length_cons]
        omega

@[simp] theorem SkipTarget.length_pattern (t : SkipTarget) : t.pattern.length = 8 := by cases t <;> rfl

/-- A skip raises its target's fatal error, or moves the cursor by an offset that leaves at least 8 bytes. -/
theorem skipTo_cases (t : SkipTarget) (s : State) :
    (findPattern t.pattern s.remaining = none ∧ skipTo t s = raiseFatal t.failure t.info s) ∨
    ∃ k, findPattern t.pattern s.remaining = some k ∧ k + 8 ≤ s.rem.toNat ∧ skipTo t s = advance k s := by
  unfold skipTo
  cases h : findPattern t.pattern s.remaining with
  | none => exact .inl ⟨rfl, rfl⟩
  | some k =>
    have := findPattern_le h
    simp only [SkipTarget.length_pattern, State.length_remaining] at this
    exact .inr ⟨k, rfl, this, rfl⟩

/-- An advance within `rem` adds to `pc` what it takes from `rem`. -/
theorem advance_rem_toNat {n : Nat} {s : State} (h : n ≤ s.rem.toNat) : (advance n s).rem.toNat = s.rem.toNat - n := by
  have := s.rem.isLt
  rw [advance_rem, BitVec.toNat_sub_of_le]
  · simp only [BitVec.toNat_ofNat]; omega
  · rw [BitVec.le_def]; simp only [BitVec.toNat_ofNat]; omega

theorem advance_pc_toNat {n : Nat} {s : State} (h : s.pc.toNat + n < 2 ^ 32) :
    (advance n s).pc.toNat = s.pc.toNat + n := by
  rw [advance_pc, BitVec.toNat_add]
  simp only [BitVec.toNat_ofNat]
  omega

/-- What the scanner finds is the first occurrence (R170). -/
theorem findPattern_some {pat w : List Byte} {k : Nat} (h : findPattern pat w = some k) :
    pat <+: w.drop k ∧ ∀ j < k, ¬ pat <+: w.drop j := by
  induction w generalizing k with
  | nil => cases h
  | cons b bs ih =>
    simp only [findPattern] at h
    split at h
    · cases h
      refine ⟨List.isPrefixOf_iff_prefix.1 ‹_›, fun j hj => absurd hj (Nat.not_lt_zero _)⟩
    · rename_i hn
      simp only [Option.map_eq_some_iff] at h
      obtain ⟨k', hk', rfl⟩ := h
      refine ⟨by simpa using (ih hk').1, fun j hj => ?_⟩
      cases j with
      | zero => simpa using hn
      | succ j => simpa using (ih hk').2 j (by omega)

theorem findPattern_none {pat w : List Byte} (hp : pat ≠ []) (h : findPattern pat w = none) (j : Nat) :
    ¬ pat <+: w.drop j := by
  induction w generalizing j with
  | nil => simpa using hp
  | cons b bs ih =>
    simp only [findPattern] at h
    split at h
    · cases h
    · rename_i hn
      cases j with
      | zero => simpa using hn
      | succ j => simpa using ih (by simpa using h) j

/-- `MatchesAt` in terms of the remaining bytes. -/
theorem matchesAt_iff (pat : List Byte) (s : State) (k : Nat) (hp : pat ≠ []) :
    MatchesAt pat s k ↔ pat <+: s.remaining.drop k := by
  have hget : ∀ j, j < s.rem.toNat → s.remaining[j]? = some (s.streamByte (s.pc.toNat + j)) := by
    intro j hj
    rw [List.getElem?_eq_getElem (by simpa using hj)]
    simp [State.remaining, StreamBuffer.getElem_slice, State.streamByte]
  unfold MatchesAt
  constructor
  · rintro ⟨h1, h2⟩
    rw [List.prefix_iff_getElem?]
    intro j hj
    rw [List.getElem?_drop, hget _ (by omega), ← h2 j hj, Nat.add_assoc]
  · intro h
    have hl := h.length_le
    have : 0 < pat.length := List.length_pos_iff.2 hp
    simp only [List.length_drop, State.length_remaining] at hl
    refine ⟨by omega, fun j hj => ?_⟩
    rw [List.prefix_iff_getElem?] at h
    have := h j hj
    rw [List.getElem?_drop, hget _ (by omega)] at this
    rw [Nat.add_assoc]
    simpa using this

theorem faultBytes_eq (s : State) : faultBytes s = bytesAtCursor s := by
  unfold faultBytes bytesAtCursor
  split
  · apply Vector.ext
    intro i hi
    simp only [Vector.getElem_ofFn, State.streamByte]
    rcases (by omega : i = 0 ∨ i = 1 ∨ i = 2 ∨ i = 3 ∨ i = 4 ∨ i = 5 ∨ i = 6 ∨ i = 7) with
      rfl | rfl | rfl | rfl | rfl | rfl | rfl | rfl <;> rfl
  · rfl

theorem raiseFatal_eq (c : FaultCode) (i : Word) (s : State) : raiseFatal c i s = fatalState c i s := by
  simp only [raiseFatal, fatalState, logTransaction, faultRecord, faultBytes_eq]

/-- All that `skip_to` can do (R171, R172). -/
theorem skipTo_skips (t : SkipTarget) (s : State) : Skips t.pattern t.failure t.info s (skipTo t s) := by
  have hp : t.pattern ≠ [] := by cases t <;> simp [SkipTarget.pattern]
  unfold skipTo
  cases h : findPattern t.pattern s.remaining with
  | none =>
    refine ⟨fun k hk => absurd ((matchesAt_iff _ _ _ hp).1 hk) (findPattern_none hp h k), fun _ => raiseFatal_eq _ _ _⟩
  | some k =>
    obtain ⟨h1, h2⟩ := findPattern_some h
    refine ⟨fun k' hk' hl => ?_, fun hn => absurd ((matchesAt_iff _ _ _ hp).2 h1) (hn k)⟩
    have : k' = k := by
      rcases Nat.lt_trichotomy k' k with hlt | he | hgt
      · exact absurd ((matchesAt_iff _ _ _ hp).1 hk') (h2 k' hlt)
      · exact he
      · exact absurd ((matchesAt_iff _ _ _ hp).2 h1) (hl k hgt)
    subst this
    rfl
end Sys2Proof.Machine
end

