-- ==== Sys2Proof/Laws/Effects.lean ====
section
/-! SUPPORT. What the gate and the foreign-memory port do, in the terms the statements use (R63, R65, R69, R144). -/

namespace Sys2Proof.Machine

/-- The gate of the model is the gate of R144. -/
theorem gate_iff (p : PointerMode) (s : State) : gate p s = true ↔ GateOpen p s := by
  unfold gate GateOpen executionAllowed
  cases p <;> simp [and_comm]

theorem gate_of_open {p : PointerMode} {s : State} (h : GateOpen p s) : gate p s = true := (gate_iff p s).2 h

theorem gate_of_not_open {p : PointerMode} {s : State} (h : ¬ GateOpen p s) : gate p s = false := by
  simpa using mt (gate_iff p s).1 h

/-! ## Values and their bytes -/

theorem toNat_truncate (sz : ValueSize) (v : Word) : (truncate sz v).toNat = sized sz v := by
  cases sz <;> simp [truncate, sized, ValueSize.bytes] <;> omega

theorem truncate_eq (sz : ValueSize) (v : Word) : truncate sz v = BitVec.ofNat 32 (sized sz v) := by
  apply BitVec.eq_of_toNat_eq
  rw [toNat_truncate, BitVec.toNat_ofNat, Nat.mod_eq_of_lt]
  exact lt_of_le_of_lt (Nat.mod_le _ _) v.isLt

@[simp] theorem length_arrange_sizedBytes (order : ByteOrder) (sz : ValueSize) (v : Word) :
    (arrange order (sizedBytes sz v)).length = sz.bytes := by
  cases order <;> cases sz <;> rfl

/-- The bytes a sized value is written as, by their offsets (R63). -/
theorem getElem_arrange_sizedBytes (order : ByteOrder) (sz : ValueSize) (v : Word) (k : Nat)
    (h : k < (arrange order (sizedBytes sz v)).length) :
    (arrange order (sizedBytes sz v))[k] = orderedByte order sz v k := by
  have hk : k < sz.bytes := by simpa using h
  cases order <;> cases sz <;> simp only [ValueSize.bytes] at hk <;>
    (rcases (by omega : k = 0 ∨ k = 1 ∨ k = 2 ∨ k = 3) with rfl | rfl | rfl | rfl) <;> first | omega | rfl

theorem bytes_le (sz : ValueSize) : sz.bytes ≤ 4 := by cases sz <;> decide

theorem bytes_pos (sz : ValueSize) : 0 < sz.bytes := by cases sz <;> decide

theorem toNat_offset_sub (a : Word) {k : Nat} (hk : k < 2 ^ 32) : (offset a k - a).toNat = k := by
  unfold offset
  rw [BitVec.add_comm, BitVec.add_sub_cancel, BitVec.toNat_ofNat, Nat.mod_eq_of_lt hk]

theorem offset_toNat_sub (a x : Word) : offset a (x - a).toNat = x := by
  unfold offset
  rw [BitVec.ofNat_toNat, BitVec.setWidth_eq, BitVec.add_comm, BitVec.sub_add_cancel]

/-- Offsets below 2^32 are told apart. -/
theorem offset_inj {a : Word} {j k : Nat} (hj : j < 2 ^ 32) (hk : k < 2 ^ 32) : offset a j = offset a k ↔ j = k := by
  constructor
  · intro h
    rw [← toNat_offset_sub a hj, h, toNat_offset_sub a hk]
  · rintro rfl
    rfl

/-- Memory after a sized write: the value's bytes, every other byte as before (R63). -/
theorem read_writeSized (m : Memory) (order : ByteOrder) (sz : ValueSize) (a v x : Word) :
    (m.writeSized order sz a v).read x =
      if (x - a).toNat < sz.bytes then orderedByte order sz v (x - a).toNat else m.read x := by
  unfold Memory.writeSized
  rw [Memory.read_writeBytes _ _ _ _ (by have := bytes_le sz; simp; omega)]
  simp only [length_arrange_sizedBytes]
  split
  · rw [getElem_arrange_sizedBytes]
  · rfl

/-- One step of `valueOfBytes`, while no bit is lost. -/
theorem toNat_shift_or (v : Word) (b : Byte) (h : v.toNat < 2 ^ 24) :
    ((v <<< 8) ||| b.setWidth 32).toNat = v.toNat * 256 + b.toNat := by
  have hb := b.isLt
  rw [BitVec.toNat_or, BitVec.toNat_shiftLeft, BitVec.toNat_setWidth, Nat.mod_eq_of_lt (by omega : b.toNat < 2 ^ 32),
    Nat.mod_eq_of_lt (by rw [Nat.shiftLeft_eq]; omega), ← Nat.shiftLeft_add_eq_or_of_lt hb, Nat.shiftLeft_eq]

theorem toNat_valueOfBytes_append (bs : List Byte) (b : Byte) (h : (valueOfBytes bs).toNat < 2 ^ 24) :
    (valueOfBytes (bs ++ [b])).toNat = (valueOfBytes bs).toNat * 256 + b.toNat := by
  simp only [valueOfBytes, List.foldl_append, List.foldl_cons, List.foldl_nil] at h ⊢
  exact toNat_shift_or _ _ h

theorem toNat_valueOfBytes_one (b : Byte) : (valueOfBytes [b]).toNat = b.toNat := by
  simpa [valueOfBytes] using toNat_shift_or 0 b (by decide)

theorem toNat_valueOfBytes_two (b0 b1 : Byte) : (valueOfBytes [b0, b1]).toNat = b0.toNat * 256 + b1.toNat := by
  have h0 := toNat_valueOfBytes_one b0
  have := b0.isLt
  rw [show [b0, b1] = [b0] ++ [b1] from rfl, toNat_valueOfBytes_append _ _ (by omega), h0]

theorem toNat_valueOfBytes_four (b0 b1 b2 b3 : Byte) :
    (valueOfBytes [b0, b1, b2, b3]).toNat = b0.toNat * 2 ^ 24 + b1.toNat * 2 ^ 16 + b2.toNat * 2 ^ 8 + b3.toNat := by
  have h1 := toNat_valueOfBytes_two b0 b1
  have := b0.isLt
  have := b1.isLt
  have := b2.isLt
  have h2 : (valueOfBytes [b0, b1, b2]).toNat = (valueOfBytes [b0, b1]).toNat * 256 + b2.toNat := by
    rw [show [b0, b1, b2] = [b0, b1] ++ [b2] from rfl, toNat_valueOfBytes_append _ _ (by omega)]
  rw [show [b0, b1, b2, b3] = [b0, b1, b2] ++ [b3] from rfl, toNat_valueOfBytes_append _ _ (by omega), h2, h1]
  omega

/-- A sized read of the reference memory finds the value whose bytes stand there (R63). -/
theorem readSized_holds (m : Memory) (order : ByteOrder) (sz : ValueSize) (a : Word) :
    (m.readSized order sz a).toNat < 2 ^ (8 * sz.bytes) ∧
      ∀ k < sz.bytes, m.read (offset a k) = orderedByte order sz (m.readSized order sz a) k := by
  have e0 : offset a 0 = a := by simp [offset]
  have e1 : offset a 1 = a + 1 := rfl
  have e2 : offset a 2 = a + 1 + 1 := by rw [BitVec.add_assoc]; rfl
  have e3 : offset a 3 = a + 1 + 1 + 1 := by rw [BitVec.add_assoc, BitVec.add_assoc]; rfl
  have h0 := (m.read a).isLt
  have h1 := (m.read (a + 1)).isLt
  have h2 := (m.read (a + 1 + 1)).isLt
  have h3 := (m.read (a + 1 + 1 + 1)).isLt
  cases order <;> cases sz <;>
    simp only [Memory.readSized, Memory.readBytes, ValueSize.bytes, arrange, List.reverse_cons, List.reverse_nil,
      List.nil_append, List.cons_append, toNat_valueOfBytes_one, toNat_valueOfBytes_two, toNat_valueOfBytes_four] <;>
    refine ⟨by omega, fun k hk => ?_⟩ <;>
    (rcases (by omega : k = 0 ∨ k = 1 ∨ k = 2 ∨ k = 3) with rfl | rfl | rfl | rfl) <;> (try omega) <;>
    simp only [e0, e1, e2, e3] <;>
    apply BitVec.eq_of_toNat_eq <;>
    simp only [orderedByte, BitVec.extractLsb'_toNat, Nat.shiftRight_eq_div_pow, ValueSize.bytes,
      toNat_valueOfBytes_one, toNat_valueOfBytes_two, toNat_valueOfBytes_four] <;>
    omega

/-- A write of the enabled port (R62, R63). -/
theorem memWrite_storesValue (sz : ValueSize) (a v : Word) {s : State} (h : s.accessEnable = true) :
    StoresValue sz a v s (memWrite sz a v s) := by
  rw [memWrite_enabled sz a v h]
  constructor
  · intro order ho k hk
    have h4 := bytes_le sz
    have e : s.foreign.order = order := by simp [Foreign.order, ho]
    simp only [State.foreignByte, logTransaction, read_writeSized, toNat_offset_sub a (show k < 2 ^ 32 by omega), e]
    rw [if_pos hk]
  · intro b hb
    simp only [State.foreignByte, logTransaction, read_writeSized]
    rw [if_neg]
    intro hlt
    exact hb _ hlt (offset_toNat_sub a b).symm

/-- A read of the enabled port under the reference memory (R62, R63). -/
theorem memRead_reference {order : ByteOrder} (sz : ValueSize) (a : Word) {s : State} (h : s.accessEnable = true)
    (ho : s.foreign.collaborator = .reference order) :
    memRead sz a s = (s.foreign.mem.readSized order sz a,
      { s with foreign.log := .read a sz (s.foreign.mem.readSized order sz a) :: s.foreign.log }) := by
  simp [memRead_enabled sz a h, Foreign.answerRead, ho, logTransaction]

theorem memWrite_log (sz : ValueSize) (a v : Word) {s : State} (h : s.accessEnable = true) :
    memWrite sz a v s = { s with
      foreign.mem := s.foreign.mem.writeSized s.foreign.order sz a v
      foreign.log := .write a sz (BitVec.ofNat 32 (sized sz v)) :: s.foreign.log } := by
  simp [memWrite_enabled sz a v h, logTransaction, truncate_eq]

/-! ## Series of writes (R193, R194) -/

theorem seriesTerm_succ (a stride : Word) (i : Nat) : seriesTerm (a + stride) stride i = seriesTerm a stride (i + 1) := by
  unfold seriesTerm
  rw [BitVec.ofNat_add, BitVec.add_mul, BitVec.add_assoc, BitVec.add_comm stride]
  simp

@[simp] theorem seriesTerm_zero (a stride : Word) : seriesTerm a stride 0 = a := by
  simp [seriesTerm]

@[simp] theorem memWrite_collaborator (sz : ValueSize) (a v : Word) (s : State) :
    (memWrite sz a v s).foreign.collaborator = s.foreign.collaborator := by
  unfold memWrite
  split <;> rfl

/-- Memory and nothing but memory, the port's log apart, changes in a series of writes, one transaction each. -/
theorem writeSeries_log (sz : ValueSize) (stride incr : Word) (n : Nat) (a v : Word) {s : State}
    (h : s.accessEnable = true) :
    writeSeries sz stride incr n a v s = { s with
      foreign.mem := (writeSeries sz stride incr n a v s).foreign.mem
      foreign.log := ((List.range n).map fun i =>
        Transaction.write (seriesTerm a stride i) sz (BitVec.ofNat 32 (sized sz (seriesTerm v incr i)))).reverse
        ++ s.foreign.log } := by
  induction n generalizing a v s with
  | zero => rfl
  | succ n ih =>
    rw [writeSeries, ih _ _ (s := memWrite sz a v s) (by rw [memWrite_accessEnable, h]), memWrite_log sz a v h]
    simp [List.range_succ_eq_map, seriesTerm_succ, Function.comp_def]

/-- A byte that no write of the series covers keeps its value. -/
theorem writeSeries_outside (sz : ValueSize) (stride incr : Word) (n : Nat) (a v : Word) {s : State}
    (h : s.accessEnable = true) (b : Word) (hb : ∀ i < n, ∀ k < sz.bytes, b ≠ offset (seriesTerm a stride i) k) :
    (writeSeries sz stride incr n a v s).foreignByte b = s.foreignByte b := by
  induction n generalizing a v s with
  | zero => rfl
  | succ n ih =>
    rw [writeSeries, ih (s := memWrite sz a v s) _ _ (by rw [memWrite_accessEnable, h])]
    · exact (memWrite_storesValue sz a v h).2 b fun k hk => by simpa using hb 0 (by omega) k hk
    · intro i hi k hk
      rw [seriesTerm_succ]
      exact hb (i + 1) (by omega) k hk

/-- A byte of a write that no later write of the series covers has the value written. -/
theorem writeSeries_covered (sz : ValueSize) (stride incr : Word) (n : Nat) (a v : Word) {s : State}
    (h : s.accessEnable = true) {order : ByteOrder} (ho : s.foreign.collaborator = .reference order) (i : Nat) (hi : i < n)
    (k : Nat) (hk : k < sz.bytes)
    (hl : ∀ j, i < j → j < n → ∀ l < sz.bytes, offset (seriesTerm a stride j) l ≠ offset (seriesTerm a stride i) k) :
    (writeSeries sz stride incr n a v s).foreignByte (offset (seriesTerm a stride i) k) =
      orderedByte order sz (seriesTerm v incr i) k := by
  induction n generalizing a v s i with
  | zero => omega
  | succ n ih =>
    rw [writeSeries]
    have he : (memWrite sz a v s).accessEnable = true := by rw [memWrite_accessEnable, h]
    cases i with
    | zero =>
      rw [writeSeries_outside _ _ _ _ _ _ he]
      · simpa using (memWrite_storesValue sz a v h).1 order ho k hk
      · intro j hj l hlt
        rw [seriesTerm_succ]
        exact (hl (j + 1) (by omega) (by omega) l hlt).symm
    | succ i =>
      rw [← seriesTerm_succ, ← seriesTerm_succ]
      refine ih (a + stride) (v + incr) he (by rw [memWrite_collaborator, ho]) i (by omega) fun j h1 h2 l hlt => ?_
      rw [seriesTerm_succ, seriesTerm_succ]
      exact hl (j + 1) (by omega) (by omega) l hlt

end Sys2Proof.Machine
end

