-- ==== Sys2Proof/Laws/Conditionals.lean ====
section
/-! SUPPORT. What the common shape of the conditionals can do, and what a skip leaves alone (R171, R210, R212). -/

namespace Sys2Proof.Machine

/-- What a skip keeps, and the fatal error it may raise. -/
structure SkipKeeps (code : FaultCode) (s t : State) : Prop where
  stream : t.stream = s.stream
  ireg : t.ireg = s.ireg
  freg : t.freg = s.freg
  loadedPointer : t.loadedPointer = s.loadedPointer
  timeDependenceDelay : t.timeDependenceDelay = s.timeDependenceDelay
  executionCount : t.executionCount = s.executionCount
  accessEnable : t.accessEnable = s.accessEnable
  params : t.params = s.params
  host : t.host = s.host
  collaborator : t.foreign.collaborator = s.foreign.collaborator
  mem : t.foreign.mem = s.foreign.mem
  run : t.runState = s.runState ∧ t.fault = s.fault ∨ t.runState = .fatal ∧ t.fault.code = code

@[simp] theorem memRead_collaborator (sz : ValueSize) (a : Word) (s : State) :
    (memRead sz a s).2.foreign.collaborator = s.foreign.collaborator := by
  unfold memRead
  split
  · unfold Foreign.answerRead
    simp only [logTransaction]
    split
    · rfl
    · split <;> rfl
  · rfl

theorem skipTo_keeps (target : SkipTarget) (s : State) : SkipKeeps target.failure s (skipTo target s) := by
  unfold skipTo
  split <;> constructor <;> simp [raiseFatal, logTransaction, faultRecord]

@[simp] theorem skipTo_conditionFlag (target : SkipTarget) (s : State) :
    (skipTo target s).conditionFlag = s.conditionFlag := by
  unfold skipTo
  split <;> rfl

/-- All that the conclusion of a conditional can do (R210, R212). -/
theorem concludeConditional_concludes {P : Prop} {c : Bool} (h : c = true ↔ P) (s : State) :
    Concludes P s (concludeConditional c s) := by
  cases c with
  | true => exact ⟨fun _ => rfl, fun hn => absurd (h.1 rfl) hn⟩
  | false => exact ⟨fun hp => absurd (h.2 hp) (by decide), fun _ => skipTo_skips .terminator _⟩

/-- All that an open conditional can do: one read, then its conclusion (R210). -/
theorem conditional_tests {i : Instr} {p : PointerMode} {sz : ValueSize} {addr : Word} {s : State}
    {f : Word → Bool} {cond : Word → Prop} (h : GateOpen p s) (hi : exec i s = .next (conditional p sz addr f s))
    (hc : ∀ m, f m = true ↔ cond m) : ConditionalTests i p sz addr s cond := by
  refine ⟨_, hi, ?_⟩
  unfold conditional
  rw [gate_of_open h, if_pos rfl]
  exact concludeConditional_concludes (hc _) _

/-- What a conditional keeps, whatever its gate and its comparison. -/
theorem conditional_keeps (p : PointerMode) (sz : ValueSize) (addr : Word) (f : Word → Bool) (s : State) :
    SkipKeeps .unterminatedConditional s (conditional p sz addr f s) := by
  unfold conditional
  split
  · have e : ∀ c, SkipKeeps .unterminatedConditional s
        (advance 16 (setConditionFlag c (memRead sz (effectiveAddress p addr s) s).2)) := by
      intro c
      constructor <;> simp [setConditionFlag, memRead_collaborator]
    dsimp only [concludeConditional]
    split
    · exact e _
    · have a := e (f (memRead sz (effectiveAddress p addr s) s).1)
      have k := skipTo_keeps .terminator
        (advance 16 (setConditionFlag (f (memRead sz (effectiveAddress p addr s) s).1)
          (memRead sz (effectiveAddress p addr s) s).2))
      refine ⟨k.stream.trans a.stream, k.ireg.trans a.ireg, k.freg.trans a.freg,
        k.loadedPointer.trans a.loadedPointer, k.timeDependenceDelay.trans a.timeDependenceDelay,
        k.executionCount.trans a.executionCount, k.accessEnable.trans a.accessEnable, k.params.trans a.params,
        k.host.trans a.host, k.collaborator.trans a.collaborator, k.mem.trans a.mem, ?_⟩
      rcases k.run with ⟨h1, h2⟩ | h
      · exact .inl ⟨h1.trans (by simp [setConditionFlag]), h2.trans (by simp [setConditionFlag])⟩
      · exact .inr h
  · constructor <;> simp

end Sys2Proof.Machine
end

