-- ==== Sys2Proof/Laws/Decode.lean ====
section
/-! SUPPORT. What the pieces of the decoder do: each lemma says what one piece answers for a field the encoder wrote, so that
no proof about `decode` unfolds a bit operation. -/

namespace Sys2Proof

/-! ## Fields -/

@[simp] theorem readU32_extract (x : Word) :
    readU32 (x.extractLsb' 24 8) (x.extractLsb' 16 8) (x.extractLsb' 8 8) (x.extractLsb' 0 8) = x := by
  apply BitVec.eq_of_getLsbD_eq
  intro i hi
  simp only [readU32, BitVec.getLsbD_append, BitVec.getLsbD_extractLsb']
  rcases (by omega : i < 8 ∨ 8 ≤ i ∧ i < 16 ∨ 16 ≤ i ∧ i < 24 ∨ 24 ≤ i ∧ i < 32) with h | h | h | h
  · simp [h]
  · obtain ⟨k, rfl⟩ := Nat.exists_eq_add_of_le h.1
    have : k < 8 := by omega
    simp [this]
  · obtain ⟨k, rfl⟩ := Nat.exists_eq_add_of_le h.1
    have : k < 8 := by omega
    have h1 : ¬ (16 + k < 8) := by omega
    have h2 : 16 + k - 8 = 8 + k := by omega
    simp [this, h1, h2]
  · obtain ⟨k, rfl⟩ := Nat.exists_eq_add_of_le h.1
    have : k < 8 := by omega
    have h1 : ¬ (24 + k < 8) := by omega
    have h2 : 24 + k - 8 = 16 + k := by omega
    have h3 : ¬ (16 + k < 8) := by omega
    have h4 : 16 + k - 8 = 8 + k := by omega
    simp [this, h1, h2, h3, h4]

@[simp] theorem readU16_extract (x : HalfWord) : readU16 (x.extractLsb' 8 8) (x.extractLsb' 0 8) = x := by
  apply BitVec.eq_of_getLsbD_eq
  intro i hi
  simp only [readU16, BitVec.getLsbD_append, BitVec.getLsbD_extractLsb']
  rcases (by omega : i < 8 ∨ 8 ≤ i ∧ i < 16) with h | h
  · simp [h]
  · obtain ⟨k, rfl⟩ := Nat.exists_eq_add_of_le h.1
    have : k < 8 := by omega
    simp [this]

/-- The pointer mode is read back, whatever the size nibble. -/
@[simp] theorem decodePointerMode_pack (p : PointerMode) (n : BitVec 4) :
    decodePointerMode (p.nibble ++ n) = .ok p := by
  have h : hi4 (p.nibble ++ n) = p.nibble := by
    apply BitVec.eq_of_getLsbD_eq
    intro i hi
    rw [hi4, BitVec.getLsbD_extractLsb', BitVec.getLsbD_append]
    simp [hi]
  unfold decodePointerMode
  rw [h]
  cases p <;> rfl

@[simp] theorem decodeValueSize_pack (p : PointerMode) (sz : ValueSize) :
    decodeValueSize (p.nibble ++ sz.nibble) = .ok sz := by
  cases p <;> cases sz <;> rfl

@[simp] theorem decodeRegister_regByte (r : Reg) : decodeRegister (regByte r) = .ok r := by
  revert r
  decide

/-! ## Opcodes -/

theorem Opcode.mem_all (op : Opcode) : op ∈ Opcode.all := by
  cases op <;> decide

theorem find?_of_nodup_map {α : Type} (f : α → Byte) {l : List α} (h : (l.map f).Nodup) {a : α} (ha : a ∈ l) :
    l.find? (fun o => f o == f a) = some a := by
  induction l with
  | nil => simp at ha
  | cons x xs ih =>
    simp only [List.map_cons, List.nodup_cons, List.mem_map, not_exists, not_and] at h
    rcases List.mem_cons.1 ha with rfl | ha
    · simp
    · have hx : (f x == f a) = false := by simpa using fun e => h.1 a ha e.symm
      simp [hx, ih h.2 ha]

/-- A legal opcode map is read back (R97, R165). -/
theorem OpcodeMap.lookup_value {m : OpcodeMap} (h : m.legal) (op : Opcode) : m.lookup (m.value op) = some op :=
  find?_of_nodup_map m.value h op.mem_all

/-- What the lookup finds has the byte's value. -/
theorem OpcodeMap.value_of_lookup {m : OpcodeMap} {b : Byte} {op : Opcode} (h : m.lookup b = some op) :
    m.value op = b := by
  simpa using List.find?_some h

theorem OpcodeMap.lookup_eq_none {m : OpcodeMap} {b : Byte} : m.lookup b = none ↔ ∀ op, m.value op ≠ b := by
  simp [OpcodeMap.lookup, Opcode.mem_all]

/-! ## Lengths -/

theorem checkLength_ok {op : Opcode} {l : Line} {rest : List Byte} (h : lengthOf op l ≤ 8 + rest.length) :
    checkLength op l rest = .ok () := by
  rw [checkLength, if_neg (by omega)]

theorem checkLength_truncated {op : Opcode} {l : Line} {rest : List Byte} (h : 8 + rest.length < lengthOf op l) :
    checkLength op l rest = .error (.truncated (lengthOf op l)) := by
  rw [checkLength, if_pos (by omega)]

theorem checkLength_eq_ok {op : Opcode} {l : Line} {rest : List Byte} {u : Unit} :
    checkLength op l rest = .ok u ↔ lengthOf op l ≤ 8 + rest.length := by
  unfold checkLength
  split
  · simp only [reduceCtorEq, false_iff]
    omega
  · simp only [true_iff]
    omega

theorem le_padded (n : Nat) : n ≤ padded n := by
  unfold padded
  omega

theorem linePadding_length (n : Nat) : (linePadding n).length = padded n - n := by
  simp [linePadding]

theorem takeWords_flatMap (args : List Word) (rest : List Byte) :
    takeWords args.length (args.flatMap be32Bytes ++ rest) = args := by
  induction args with
  | nil => simp [takeWords]
  | cons a as ih => simp [be32Bytes, takeWords, ih]

theorem flatMap_be32Bytes_length (args : List Word) : (args.flatMap be32Bytes).length = 4 * args.length := by
  induction args with
  | nil => rfl
  | cons a as ih =>
    simp only [List.flatMap_cons, List.length_append, ih, List.length_cons, be32Bytes, List.length_nil]
    omega

end Sys2Proof
end

