-- ==== Sys2Proof/Laws/Loops.lean ====
section
/-! SUPPORT. What the multi-access instructions do: StringWrite, Corrupter, the calls and the search (R192, R195, R290,
R307, R308, R310). -/

namespace Sys2Proof.Machine

/-! ## Registers -/

theorem get_set_register (v : Vector Word 8) (d k : Reg) (x : Word) :
    (v.set d.val x d.isLt).get k = if k = d then x else v.get k := by
  simp only [Vector.get_eq_getElem, Vector.getElem_set, Fin.ext_iff, eq_comm]

/-! ## Who answers stays the same -/

@[simp] theorem callPort_collaborator (t : BitVec 64 → Transaction) (s : State) :
    (callPort t s).2.foreign.collaborator = s.foreign.collaborator := by
  unfold callPort Foreign.answerCall logTransaction
  dsimp only
  split <;> rfl

@[simp] theorem writeString_collaborator (bs : List Byte) (a : Word) (s : State) :
    (writeString bs a s).foreign.collaborator = s.foreign.collaborator := by
  induction bs generalizing a s with
  | nil => rfl
  | cons b bs ih => rw [writeString, ih, memWrite_collaborator]

@[simp] theorem writeSeries_collaborator (sz : ValueSize) (stride incr : Word) (n : Nat) (a v : Word) (s : State) :
    (writeSeries sz stride incr n a v s).foreign.collaborator = s.foreign.collaborator := by
  induction n generalizing a v s with
  | zero => rfl
  | succ n ih => rw [writeSeries, ih, memWrite_collaborator]

@[simp] theorem corruptLoop_collaborator (find repl : Word) (n : Nat) (a : Word) (s : State) :
    (corruptLoop find repl n a s).foreign.collaborator = s.foreign.collaborator := by
  induction n generalizing a s with
  | zero => rfl
  | succ n ih =>
    rw [corruptLoop, ih]
    unfold corruptWord
    dsimp only
    split <;> simp

@[simp] theorem matchTemplate_collaborator (bs : List Byte) (a : Word) (s : State) :
    (matchTemplate bs a s).2.foreign.collaborator = s.foreign.collaborator := by
  induction bs generalizing a s with
  | nil => rfl
  | cons b bs ih =>
    unfold matchTemplate
    dsimp only
    split
    · rw [ih, memRead_collaborator]
    · rw [memRead_collaborator]

@[simp] theorem searchLoop_collaborator (template : List Byte) (n : Nat) (a : Word) (k : Nat) (s : State) :
    (searchLoop template n a k s).2.foreign.collaborator = s.foreign.collaborator := by
  induction n generalizing a k s with
  | zero => rfl
  | succ n ih =>
    unfold searchLoop
    dsimp only
    split
    · split
      · rw [matchTemplate_collaborator]
      · rw [ih, matchTemplate_collaborator]
    · rw [ih, matchTemplate_collaborator]

@[simp] theorem searchTemplate_collaborator (i sh eh : HalfWord) (t : List Byte) (s : State) :
    (searchTemplate i sh eh t s).2.foreign.collaborator = s.foreign.collaborator := by
  unfold searchTemplate
  split
  · rw [searchLoop_collaborator]
  · rfl

/-! ## StringWrite -/

/-- The transactions of StringWrite, and that nothing else but memory changes. -/
theorem writeString_log (bs : List Byte) (a : Word) {s : State} (h : s.accessEnable = true) :
    writeString bs a s = { s with
      foreign.mem := s.foreign.mem.writeBytes a bs
      foreign.log := ((List.range bs.length).map fun k =>
        Transaction.write (offset a k) .byte ((bs.getD k 0).setWidth 32)).reverse ++ s.foreign.log } := by
  induction bs generalizing a s with
  | nil => rfl
  | cons b bs ih =>
    have e : memWrite .byte a (b.setWidth 32) s = { s with
        foreign.mem := s.foreign.mem.write a b
        foreign.log := .write a .byte (b.setWidth 32) :: s.foreign.log } := by
      rw [memWrite_enabled _ _ _ h]
      have t : truncate .byte (b.setWidth 32) = b.setWidth 32 := by simp [truncate]
      have w : s.foreign.mem.writeSized s.foreign.order .byte a (b.setWidth 32) = s.foreign.mem.write a b := by
        unfold Memory.writeSized
        cases s.foreign.order <;>
          simp [arrange, sizedBytes, Memory.writeBytes] <;> congr 1 <;> apply BitVec.eq_of_toNat_eq <;> simp <;> omega
      rw [t, w]
      rfl
    have o : ∀ k, offset (a + 1) k = offset a (k + 1) := by
      intro k
      unfold offset
      rw [BitVec.add_assoc, BitVec.add_comm 1, BitVec.ofNat_add]
      rfl
    rw [writeString, e, ih _ (by exact h)]
    simp [List.range_succ_eq_map, Memory.writeBytes, offset, Function.comp_def]
    exact fun k _ => o k

/-- Every byte of memory after StringWrite. -/
theorem writeString_read (bs : List Byte) (a : Word) {s : State} (h : s.accessEnable = true) (hl : bs.length ≤ 2 ^ 32)
    (x : Word) : (writeString bs a s).foreignByte x =
      if h : (x - a).toNat < bs.length then bs[(x - a).toNat]'h else s.foreignByte x := by
  rw [writeString_log bs a h]
  exact Memory.read_writeBytes _ _ _ _ hl

/-! ## Corrupter -/

/-- One iteration of Corrupter under the reference memory: the word read, the write after a match. -/
theorem corruptWord_reference {order : ByteOrder} (find repl a : Word) {s : State} (h : s.accessEnable = true)
    (ho : s.foreign.collaborator = .reference order) :
    corruptWord find repl a s = { s with
      foreign.mem := if s.foreign.mem.readSized order .word a = find then s.foreign.mem.writeSized order .word a repl
        else s.foreign.mem
      foreign.log := (if s.foreign.mem.readSized order .word a = find then [.write a .word repl] else [])
        ++ .read a .word (s.foreign.mem.readSized order .word a) :: s.foreign.log } := by
  unfold corruptWord
  rw [memRead_reference _ _ h ho]
  dsimp only
  split
  · rw [memWrite_enabled _ _ _ (by exact h)]
    simp [logTransaction, Foreign.order, ho, truncate]
  · rfl

/-- One iteration of Corrupter with an arbitrary collaborator: the next answer is used up, the write after a match. -/
theorem corruptWord_arbitrary (find repl a : Word) {s : State} (h : s.accessEnable = true)
    (ho : s.foreign.collaborator = .arbitrary) :
    AnswersUsed 1 s (corruptWord find repl a s) ∧
    corruptWord find repl a s = { s with
      foreign.mem := (corruptWord find repl a s).foreign.mem
      foreign.readAnswers := (corruptWord find repl a s).foreign.readAnswers
      foreign.draws := (corruptWord find repl a s).foreign.draws
      foreign.log := (if nextAnswer s 0 = find then [.write a .word repl] else [])
        ++ .read a .word (nextAnswer s 0) :: s.foreign.log } := by
  have r : (memRead .word a s).1 = nextAnswer s 0 ∧ AnswersUsed 1 s (memRead .word a s).2 ∧
      (memRead .word a s).2 = { s with
        foreign.readAnswers := (memRead .word a s).2.foreign.readAnswers
        foreign.draws := (memRead .word a s).2.foreign.draws
        foreign.log := .read a .word (nextAnswer s 0) :: s.foreign.log } := by
    rw [memRead_enabled _ _ h]
    unfold Foreign.answerRead AnswersUsed nextAnswer
    rw [ho]
    cases hr : s.foreign.readAnswers <;> simp [logTransaction, truncate, ho]
  obtain ⟨r1, r2, r3⟩ := r
  have he : (memRead .word a s).2.accessEnable = true := by
    rw [r3]
    exact h
  unfold corruptWord
  dsimp only
  rw [r1]
  split
  · rw [memWrite_log _ _ _ he]
    refine ⟨r2, ?_⟩
    rw [r3]
    rw [← truncate_eq]
    rfl
  · exact ⟨r2, by rw [r3]; rfl⟩

/-- Corrupter changes no byte outside the words it scans, whoever answers. -/
theorem corruptLoop_outside (find repl : Word) (n : Nat) (a : Word) {s : State} (h : s.accessEnable = true) (b : Word)
    (hb : ∀ k < n, ∀ j < 4, b ≠ offset a (4 * k + j)) : (corruptLoop find repl n a s).foreignByte b = s.foreignByte b := by
  induction n generalizing a s with
  | zero => rfl
  | succ n ih =>
    have o : ∀ k, offset (a + 4) k = offset a (4 + k) := by
      intro k
      unfold offset
      rw [BitVec.add_assoc, BitVec.ofNat_add]
      rfl
    rw [corruptLoop, ih (a + 4) (by rw [corruptWord_onlyForeign find repl a s]; exact h) fun k hk j hj => by
      rw [o]
      have := hb (k + 1) (by omega) j hj
      rwa [show 4 * (k + 1) + j = 4 + (4 * k + j) by omega] at this]
    unfold corruptWord
    dsimp only
    have e : (memRead .word a s).2.foreignByte b = s.foreignByte b := by simp [State.foreignByte]
    split
    · rw [← e]
      exact (memWrite_storesValue .word a repl (by simpa using h)).2 b fun k hk => by
        simpa using hb 0 (by omega) k hk
    · exact e

/-! ## The call ports -/

theorem Memory.read_writeAll_outside (m : Memory) (ws : List (Word × Byte)) (b : Word) (h : ∀ w ∈ ws, w.1 ≠ b) :
    (m.writeAll ws).read b = m.read b := by
  induction ws generalizing m with
  | nil => rfl
  | cons w ws ih =>
    have := ih (m.write w.1 w.2) fun v hv => h v (List.mem_cons_of_mem _ hv)
    rw [Memory.read_write, if_neg (h w List.mem_cons_self)] at this
    exact this

theorem callPort_fst (t : BitVec 64 → Transaction) (s : State) : (callPort t s).1 = nextReturn s := by
  unfold callPort nextReturn Foreign.answerCall
  dsimp only
  cases s.foreign.callAnswers <;> rfl

/-- All that one call transaction can do outside the block (R290, R294). -/
theorem callPort_effect (t : BitVec 64 → Transaction) (s : State) :
    CallEffect (t (nextReturn s)) s (callPort t s).2 := by
  have h1 := callPort_fst t s
  unfold callPort at h1 ⊢
  dsimp only at h1 ⊢
  rw [h1]
  unfold CallEffect Foreign.answerCall logTransaction
  cases h : s.foreign.callAnswers with
  | nil => exact ⟨rfl, rfl, rfl, rfl, rfl⟩
  | cons c cs => exact ⟨rfl, rfl, rfl, rfl, rfl, fun b hb => Memory.read_writeAll_outside _ _ _ hb⟩

/-! ## The search -/

theorem toNat_highHalf (h : HalfWord) : (highHalf h).toNat = h.toNat * 65536 := by
  unfold highHalf
  rw [BitVec.toNat_append, Nat.shiftLeft_eq]
  simp

/-- The stream after SearchTemplate's rewrite, byte by byte (R310). -/
theorem rewriteStream_byte (found : Word) (pad : Nat) (s : State) (h : 8 + pad ≤ s.rem.toNat) (i : Nat) :
    (rewriteStream found pad s).streamByte i =
      if s.pc.toNat ≤ i ∧ i < s.pc.toNat + 8 then (pointerLine s.params.opc found).getD (i - s.pc.toNat) 0
      else if s.pc.toNat + 8 ≤ i ∧ i < s.pc.toNat + (s.rem.toNat - pad) then s.streamByte (i + pad)
      else s.streamByte i := by
  have line : ((s.stream.writeBytes s.pc.toNat (pointerLine s.params.opc found)).read i) =
      if s.pc.toNat ≤ i ∧ i < s.pc.toNat + 8 then (pointerLine s.params.opc found).getD (i - s.pc.toNat) 0
      else s.streamByte i := by
    have hl : (pointerLine s.params.opc found).length = 8 := rfl
    rw [StreamBuffer.read_writeBytes]
    simp only [hl]
    split
    · rw [if_pos (by omega), List.getD_eq_getElem?_getD, List.getElem?_eq_getElem (by rw [hl]; omega)]
      rfl
    · rw [if_neg (by omega)]
      rfl
  by_cases hp : pad = 0
  · subst hp
    show ((s.stream.writeBytes s.pc.toNat (pointerLine s.params.opc found)).read i) = _
    rw [line]
    split <;> simp
  · have e : (rewriteStream found pad s).stream
        = (s.stream.writeBytes s.pc.toNat (pointerLine s.params.opc found)).writeBytes (s.pc.toNat + 8)
            (s.stream.slice (s.pc.toNat + 8 + pad) (s.rem.toNat - pad - 8)) := by
      simp [rewriteStream, hp]
    unfold State.streamByte at line ⊢
    rw [e, StreamBuffer.read_writeBytes, line]
    simp only [StreamBuffer.length_slice, StreamBuffer.getElem_slice]
    split
    · rw [if_neg (by omega), if_pos (by omega)]
      congr 1
      omega
    · split
      · rfl
      · rw [if_neg (by omega)]

/-- The reads of one candidate under the reference memory: whether the template stands there (R308). -/
theorem matchTemplate_iff {order : ByteOrder} (template : List Byte) (a : Word) {s : State} (h : s.accessEnable = true)
    (ho : s.foreign.collaborator = .reference order) :
    (matchTemplate template a s).1 = true ↔ TemplateAt template s a := by
  induction template generalizing a s with
  | nil => simp [matchTemplate, TemplateAt]
  | cons b bs ih =>
    have o : ∀ k, offset (a + 1) k = offset a (k + 1) := by
      intro k
      unfold offset
      rw [BitVec.add_assoc, BitVec.add_comm 1, BitVec.ofNat_add]
      rfl
    have e : s.foreign.mem.readSized order .byte a = (s.foreignByte a).setWidth 32 := by
      apply BitVec.eq_of_toNat_eq
      unfold Memory.readSized
      cases order <;> simp [ValueSize.bytes, Memory.readBytes, arrange, toNat_valueOfBytes_one, State.foreignByte] <;>
        omega
    have inj : ∀ x y : Byte, x.setWidth 32 = y.setWidth 32 ↔ x = y := by
      intro x y
      rw [← BitVec.toNat_inj, ← BitVec.toNat_inj]
      simp
      omega
    unfold matchTemplate
    rw [memRead_reference _ _ h ho, e]
    dsimp only
    constructor
    · intro hm
      split at hm
      · rename_i hb
        rw [inj] at hb
        have := (ih (a + 1) (s := _) (by exact h) (by exact ho)).1 hm
        intro j hj
        cases j with
        | zero => simpa [offset] using hb
        | succ j =>
          have t := this j (by simpa using hj)
          rw [o] at t
          exact t
      · cases hm
    · intro hm
      have h0 := hm 0 (by simp)
      rw [if_pos ((inj _ _).2 (by simpa [offset] using h0))]
      refine (ih (a + 1) (s := _) (by exact h) (by exact ho)).2 fun j hj => ?_
      have t := hm (j + 1) (by simpa using hj)
      rw [← o] at t
      exact t

end Sys2Proof.Machine
end

