-- ==== Sys2Proof/Laws/PerInstr.lean ====
section
/-! SUPPORT. Facts about every instruction as syntax, one lemma per constructor. -/

namespace Sys2Proof.Laws

/-- An encodable instruction is a whole number of lines, at least one, and the longest payload bounds it (R90, R99;
the bound is that of an ExecuteAssembly with `NL = 65535`). -/
def EncodedLength.Statement (i : Instr) : Prop :=
  i.wellFormed = true → i.length % 8 = 0 ∧ 8 ≤ i.length ∧ i.length ≤ 524288

/-- The bounds of an instruction of a known length of `k` lines. -/
theorem EncodedLength.of_lines {i : Instr} (k : Nat) (h : i.length = 8 * k) (h1 : 1 ≤ k) (h2 : k ≤ 65536) :
    EncodedLength.Statement i := by
  intro _
  omega

theorem EncodedLength.ramwrite (p sz addr value) : EncodedLength.Statement (.ramwrite p sz addr value) :=
  EncodedLength.of_lines 2 rfl (by decide) (by decide)

theorem EncodedLength.strwrite (p addr data) : EncodedLength.Statement (.strwrite p addr data) := by
  intro h
  simp only [Instr.wellFormed, decide_eq_true_eq] at h
  simp only [Instr.length, padded]
  omega

theorem EncodedLength.skipwrite (p sz count addr value stride incr) : EncodedLength.Statement (.skipwrite p sz count addr value stride incr) :=
  EncodedLength.of_lines 3 rfl (by decide) (by decide)

theorem EncodedLength.ifeq (p sz addr value) : EncodedLength.Statement (.ifeq p sz addr value) :=
  EncodedLength.of_lines 2 rfl (by decide) (by decide)

theorem EncodedLength.ifne (p sz addr value) : EncodedLength.Statement (.ifne p sz addr value) :=
  EncodedLength.of_lines 2 rfl (by decide) (by decide)

theorem EncodedLength.ifgt (p sz addr value) : EncodedLength.Statement (.ifgt p sz addr value) :=
  EncodedLength.of_lines 2 rfl (by decide) (by decide)

theorem EncodedLength.iflt (p sz addr value) : EncodedLength.Statement (.iflt p sz addr value) :=
  EncodedLength.of_lines 2 rfl (by decide) (by decide)

theorem EncodedLength.ifge (p sz addr value) : EncodedLength.Statement (.ifge p sz addr value) :=
  EncodedLength.of_lines 2 rfl (by decide) (by decide)

theorem EncodedLength.ifle (p sz addr value) : EncodedLength.Statement (.ifle p sz addr value) :=
  EncodedLength.of_lines 2 rfl (by decide) (by decide)

theorem EncodedLength.ifand (p sz addr value) : EncodedLength.Statement (.ifand p sz addr value) :=
  EncodedLength.of_lines 2 rfl (by decide) (by decide)

theorem EncodedLength.ifor (p sz addr value) : EncodedLength.Statement (.ifor p sz addr value) :=
  EncodedLength.of_lines 2 rfl (by decide) (by decide)

theorem EncodedLength.ifbetween (p sz addr lower upper) : EncodedLength.Statement (.ifbetween p sz addr lower upper) :=
  EncodedLength.of_lines 2 rfl (by decide) (by decide)

theorem EncodedLength.timedep (delay) : EncodedLength.Statement (.timedep delay) :=
  EncodedLength.of_lines 1 rfl (by decide) (by decide)

theorem EncodedLength.resettimer : EncodedLength.Statement .resettimer :=
  EncodedLength.of_lines 1 rfl (by decide) (by decide)

theorem EncodedLength.ldi (p sz r addr) : EncodedLength.Statement (.ldi p sz r addr) :=
  EncodedLength.of_lines 1 rfl (by decide) (by decide)

theorem EncodedLength.sti (p sz r addr) : EncodedLength.Statement (.sti p sz r addr) :=
  EncodedLength.of_lines 1 rfl (by decide) (by decide)

theorem EncodedLength.ldf (p r addr) : EncodedLength.Statement (.ldf p r addr) :=
  EncodedLength.of_lines 1 rfl (by decide) (by decide)

theorem EncodedLength.stf (p r addr) : EncodedLength.Statement (.stf p r addr) :=
  EncodedLength.of_lines 1 rfl (by decide) (by decide)

theorem EncodedLength.iadd (d r) : EncodedLength.Statement (.iadd d r) :=
  EncodedLength.of_lines 1 rfl (by decide) (by decide)

theorem EncodedLength.isub (d r) : EncodedLength.Statement (.isub d r) :=
  EncodedLength.of_lines 1 rfl (by decide) (by decide)

theorem EncodedLength.imul (d r) : EncodedLength.Statement (.imul d r) :=
  EncodedLength.of_lines 1 rfl (by decide) (by decide)

theorem EncodedLength.idiv (d r) : EncodedLength.Statement (.idiv d r) :=
  EncodedLength.of_lines 1 rfl (by decide) (by decide)

theorem EncodedLength.iaddi (d value) : EncodedLength.Statement (.iaddi d value) :=
  EncodedLength.of_lines 1 rfl (by decide) (by decide)

theorem EncodedLength.isubi (d value) : EncodedLength.Statement (.isubi d value) :=
  EncodedLength.of_lines 1 rfl (by decide) (by decide)

theorem EncodedLength.imuli (d value) : EncodedLength.Statement (.imuli d value) :=
  EncodedLength.of_lines 1 rfl (by decide) (by decide)

theorem EncodedLength.idivi (d value) : EncodedLength.Statement (.idivi d value) :=
  EncodedLength.of_lines 1 rfl (by decide) (by decide)

theorem EncodedLength.fadd (d r) : EncodedLength.Statement (.fadd d r) :=
  EncodedLength.of_lines 1 rfl (by decide) (by decide)

theorem EncodedLength.fsub (d r) : EncodedLength.Statement (.fsub d r) :=
  EncodedLength.of_lines 1 rfl (by decide) (by decide)

theorem EncodedLength.fmul (d r) : EncodedLength.Statement (.fmul d r) :=
  EncodedLength.of_lines 1 rfl (by decide) (by decide)

theorem EncodedLength.fdiv (d r) : EncodedLength.Statement (.fdiv d r) :=
  EncodedLength.of_lines 1 rfl (by decide) (by decide)

theorem EncodedLength.faddi (d value) : EncodedLength.Statement (.faddi d value) :=
  EncodedLength.of_lines 1 rfl (by decide) (by decide)

theorem EncodedLength.fsubi (d value) : EncodedLength.Statement (.fsubi d value) :=
  EncodedLength.of_lines 1 rfl (by decide) (by decide)

theorem EncodedLength.fmuli (d value) : EncodedLength.Statement (.fmuli d value) :=
  EncodedLength.of_lines 1 rfl (by decide) (by decide)

theorem EncodedLength.fdivi (d value) : EncodedLength.Statement (.fdivi d value) :=
  EncodedLength.of_lines 1 rfl (by decide) (by decide)

theorem EncodedLength.f2i (d r) : EncodedLength.Statement (.f2i d r) :=
  EncodedLength.of_lines 1 rfl (by decide) (by decide)

theorem EncodedLength.fill (p addr value span) : EncodedLength.Statement (.fill p addr value span) :=
  EncodedLength.of_lines 2 rfl (by decide) (by decide)

theorem EncodedLength.ldptr (p addr lower upper) : EncodedLength.Statement (.ldptr p addr lower upper) :=
  EncodedLength.of_lines 2 rfl (by decide) (by decide)

theorem EncodedLength.addptr (offset) : EncodedLength.Statement (.addptr offset) :=
  EncodedLength.of_lines 1 rfl (by decide) (by decide)

theorem EncodedLength.ldptrd (addr) : EncodedLength.Statement (.ldptrd addr) :=
  EncodedLength.of_lines 1 rfl (by decide) (by decide)

theorem EncodedLength.search (index startHi endHi template) : EncodedLength.Statement (.search index startHi endHi template) := by
  intro h
  simp only [Instr.wellFormed, decide_eq_true_eq] at h
  simp only [Instr.length, padded]
  omega

theorem EncodedLength.execasm (payload) : EncodedLength.Statement (.execasm payload) := by
  intro h
  simp only [Instr.wellFormed, Bool.and_eq_true, decide_eq_true_eq, beq_iff_eq] at h
  simp only [Instr.length]
  omega

theorem EncodedLength.syscall (code) : EncodedLength.Statement (.syscall code) :=
  EncodedLength.of_lines 1 rfl (by decide) (by decide)

theorem EncodedLength.term : EncodedLength.Statement .term :=
  EncodedLength.of_lines 1 rfl (by decide) (by decide)

theorem EncodedLength.nop : EncodedLength.Statement .nop :=
  EncodedLength.of_lines 1 rfl (by decide) (by decide)

theorem EncodedLength.timerterm : EncodedLength.Statement .timerterm :=
  EncodedLength.of_lines 1 rfl (by decide) (by decide)

theorem EncodedLength.corrupt (first limit find repl) : EncodedLength.Statement (.corrupt first limit find repl) :=
  EncodedLength.of_lines 3 rfl (by decide) (by decide)

theorem EncodedLength.call (rlo rhi target args) : EncodedLength.Statement (.call rlo rhi target args) := by
  intro h
  simp only [Instr.wellFormed, decide_eq_true_eq] at h
  simp only [Instr.length, argBytes]
  omega

end Sys2Proof.Laws
end

