-- ==== Sys2Proof/Laws/Progress.lean ====
section
/-! SUPPORT. What an instruction that fits the remaining bytes does to the cursor, the parameters, the stream and the run
state, said once for all instructions (R23, R72, R167, R311). -/

namespace Sys2Proof.Machine

/-- What every instruction of `n` bytes but SearchTemplate does to the cursor, and what it keeps: a skip moves further
inside the remaining bytes, or raises a fatal error. -/
structure Progress (n : Nat) (s t : State) : Prop where
  params : t.params = s.params
  host : t.host = s.host
  accessEnable : t.accessEnable = s.accessEnable
  stream : t.stream = s.stream
  run : t.runState = s.runState ∧ t.fault = s.fault ∨ t.runState = .fatal ∧ t.fault.code ≠ .none
  pc : s.pc.toNat ≤ t.pc.toNat
  logicalLength : t.logicalLength = s.logicalLength
  rem : t.rem.toNat + n ≤ s.rem.toNat

/-- `u` agrees with `s` in what `Progress` looks at. -/
structure SameCursor (s u : State) : Prop where
  pc : u.pc = s.pc
  rem : u.rem = s.rem
  params : u.params = s.params
  host : u.host = s.host
  accessEnable : u.accessEnable = s.accessEnable
  stream : u.stream = s.stream
  runState : u.runState = s.runState
  fault : u.fault = s.fault

theorem advance_progress {n : Nat} {s u : State} (h : n ≤ s.rem.toNat) (hw : s.logicalLength < 2 ^ 32)
    (hu : SameCursor s u) : Progress n s (advance n u) := by
  unfold State.logicalLength at hw
  have a := advance_rem_toNat (n := n) (s := u) (by rw [hu.rem]; exact h)
  have b := advance_pc_toNat (n := n) (s := u) (by rw [hu.pc]; omega)
  rw [hu.pc] at b
  rw [hu.rem] at a
  exact ⟨hu.params, hu.host, hu.accessEnable, hu.stream, .inl ⟨hu.runState, hu.fault⟩, by omega,
    by unfold State.logicalLength; omega, by omega⟩

theorem skipTo_progress {target : SkipTarget} {n : Nat} {s u : State} (hw : s.logicalLength < 2 ^ 32)
    (h : Progress n s u) : Progress n s (skipTo target u) := by
  rcases skipTo_cases target u with ⟨_, e⟩ | ⟨k, _, hk, e⟩
  · rw [e]
    refine ⟨h.params, h.host, h.accessEnable, h.stream, .inr ⟨rfl, ?_⟩, h.pc, h.logicalLength, h.rem⟩
    cases target <;> simp [raiseFatal, faultRecord, SkipTarget.failure, logTransaction]
  · rw [e]
    have hl := h.logicalLength
    have p := advance_progress (n := k) (s := u) (u := u) (by omega) (by omega) ⟨rfl, rfl, rfl, rfl, rfl, rfl, rfl, rfl⟩
    have := h.pc
    have := h.rem
    have := p.pc
    have := p.rem
    have := p.logicalLength
    exact ⟨by rw [p.params, h.params], by rw [p.host, h.host], by rw [p.accessEnable, h.accessEnable],
      by rw [p.stream, h.stream], by simpa using h.run, by omega, by omega, by omega⟩

theorem conditional_progress {p : PointerMode} {sz : ValueSize} {addr : Word} {f : Word → Bool} {s : State}
    (h : 16 ≤ s.rem.toNat) (hw : s.logicalLength < 2 ^ 32) : Progress 16 s (conditional p sz addr f s) := by
  unfold conditional
  split
  · have a : ∀ c, Progress 16 s (advance 16 (setConditionFlag c (memRead sz (effectiveAddress p addr s) s).2)) :=
      fun c => advance_progress h hw (by constructor <;> simp [setConditionFlag])
    dsimp only [concludeConditional]
    split
    · exact a _
    · exact skipTo_progress hw (a _)
  · exact advance_progress h hw ⟨rfl, rfl, rfl, rfl, rfl, rfl, rfl, rfl⟩

/-- What the plain instructions do: one change that keeps the cursor, then the advance by their length. -/
theorem exec_progress {i : Instr} {s : State} (h : i.length ≤ s.rem.toNat) (hw : s.logicalLength < 2 ^ 32)
    (hn : ∀ x sh eh t, i ≠ .search x sh eh t) : ∃ t, exec i s = .next t ∧ Progress i.length s t := by
  cases i
  case search x sh eh t => exact absurd rfl (hn x sh eh t)
  case timedep d =>
    have a : Progress 8 s (advance 8 { s with timeDependenceDelay := d }) :=
      advance_progress h hw ⟨rfl, rfl, rfl, rfl, rfl, rfl, rfl, rfl⟩
    refine ⟨_, rfl, ?_⟩
    split
    · exact skipTo_progress hw a
    · exact a
  all_goals refine ⟨_, rfl, ?_⟩
  all_goals first
    | exact conditional_progress h hw
    | (refine advance_progress h hw ?_
       (try split) <;> constructor <;> simp [setLoadedPointer])

/-- What SearchTemplate does to the cursor, the run and the stream: the line it writes stands at the cursor (R310, R311). -/
theorem execSearch_progress (x sh eh : HalfWord) (template : List Byte) {s : State}
    (h : 8 + padded template.length ≤ s.rem.toNat) :
    ∃ t, exec (.search x sh eh template) s = .next t ∧ t.params = s.params ∧ t.host = s.host ∧
      t.runState = s.runState ∧ t.fault = s.fault ∧ t.pc = s.pc ∧
      t.rem = s.rem - BitVec.ofNat 32 (padded template.length) ∧
      t.rem.toNat + padded template.length = s.rem.toNat ∧ t.foreign.mem = s.foreign.mem ∧
      t.accessEnable = s.accessEnable ∧
      (∀ capacity, s.stream.wf capacity → s.logicalLength ≤ capacity → t.stream.wf capacity) ∧
      ∀ k < 8, t.streamByte (s.pc.toNat + k) =
        (pointerLine s.params.opc (searchTemplate x sh eh template s).1).getD k 0 := by
  have hlt := s.rem.isLt
  refine ⟨_, rfl, ?_, ?_, ?_, ?_, ?_, ?_, ?_, ?_, ?_, ?_, ?_⟩
  any_goals (simp [rewriteStream]; done)
  · simp only [rewriteStream, searchTemplate_rem]
    rw [BitVec.toNat_sub_of_le]
    · simp only [BitVec.toNat_ofNat]
      omega
    · rw [BitVec.le_def]
      simp only [BitVec.toNat_ofNat]
      omega
  · intro capacity hwf hl
    unfold State.logicalLength at hl
    simp only [rewriteStream, searchTemplate_stream, searchTemplate_pc, searchTemplate_params, searchTemplate_rem]
    apply StreamBuffer.wf_writeBytes
    · apply StreamBuffer.wf_writeBytes hwf
      simp [pointerLine, be32Bytes]
      omega
    · split <;> simp <;> omega
  · intro k hk
    have b := rewriteStream_byte (searchTemplate x sh eh template s).1 (padded template.length)
      (searchTemplate x sh eh template s).2 (by simpa using h) (s.pc.toNat + k)
    rw [b]
    simp [hk]

/-- Every instruction keeps the canonical form of the reference memory. -/
theorem exec_memory_wf {i : Instr} {s t : State} (h : exec i s = .next t) (hm : s.foreign.mem.wf) :
    t.foreign.mem.wf := by
  have hc : ∀ p sz addr f, (conditional p sz addr f s).foreign.mem.wf := fun p sz addr f => by
    rw [(conditional_keeps p sz addr f s).mem]
    exact hm
  cases i
  case timedep d =>
    cases h
    split
    · rw [(skipTo_keeps .resetTimer _).mem]
      exact hm
    · exact hm
  case search x sh eh template =>
    cases h
    simpa [rewriteStream] using hm
  all_goals
    cases h
    first
      | exact hc _ _ _ _
      | exact hm
      | (simp only [advance_foreign]
         split
         · first
             | exact memWrite_wf hm
             | exact writeString_wf hm
             | exact writeSeries_wf hm
             | exact corruptLoop_wf hm
             | exact callPort_wf hm
             | simpa [setLoadedPointer] using hm
         · exact hm)

end Sys2Proof.Machine
end

