-- ==== Sys2Proof/Laws/Reads.lean ====
section
/-! SUPPORT. What a series of port accesses does: the bytes it leaves under the reference memory (R69), and for the reads of
the search the transactions, the answers used up and the candidates visited (R307, R308). -/

namespace Sys2Proof.Machine

/-! ## Series of accesses -/

@[simp] theorem PortAccess.perform_accessEnable (x : PortAccess) (s : State) :
    (x.perform s).accessEnable = s.accessEnable := by
  cases x <;> simp [PortAccess.perform]

@[simp] theorem PortAccess.perform_collaborator (x : PortAccess) (s : State) :
    (x.perform s).foreign.collaborator = s.foreign.collaborator := by
  cases x <;> simp [PortAccess.perform]

/-- An access keeps every byte it does not write. -/
theorem PortAccess.perform_outside {x : PortAccess} {s : State} {b : Word} (h : s.accessEnable = true)
    (hb : ¬ x.Writes b) : (x.perform s).foreignByte b = s.foreignByte b := by
  cases x with
  | read sz a => simp [PortAccess.perform, State.foreignByte]
  | write sz a v =>
    exact (memWrite_storesValue sz a v h).2 b fun k hk e => hb ⟨k, hk, e⟩

theorem performAll_append (xs ys : List PortAccess) (s : State) :
    performAll (xs ++ ys) s = performAll ys (performAll xs s) := List.foldl_append

@[simp] theorem performAll_accessEnable (xs : List PortAccess) (s : State) :
    (performAll xs s).accessEnable = s.accessEnable := by
  induction xs generalizing s with
  | nil => rfl
  | cons x xs ih => exact (ih (x.perform s)).trans (x.perform_accessEnable s)

@[simp] theorem performAll_collaborator (xs : List PortAccess) (s : State) :
    (performAll xs s).foreign.collaborator = s.foreign.collaborator := by
  induction xs generalizing s with
  | nil => rfl
  | cons x xs ih => exact (ih (x.perform s)).trans (x.perform_collaborator s)

/-! ## Series of one-byte reads -/

/-- The state after the one-byte reads `reads`, the first one first: the log, the answers used up, the values read. -/
structure ReadSeries (reads : List Transaction) (s t : State) : Prop where
  accessEnable : t.accessEnable = s.accessEnable
  collaborator : t.foreign.collaborator = s.foreign.collaborator
  mem : t.foreign.mem = s.foreign.mem
  log : t.foreign.log = reads.reverse ++ s.foreign.log
  arbitrary : s.foreign.collaborator = .arbitrary → AnswersUsed reads.length s t ∧
    ∀ k a v, reads[k]? = some (.read a .byte v) → v.toNat = sized .byte (nextAnswer s k)
  reference : ∀ order, s.foreign.collaborator = .reference order → t.foreign = { s.foreign with log := t.foreign.log }

theorem ReadSeries.refl (s : State) : ReadSeries [] s s :=
  ⟨rfl, rfl, rfl, rfl, fun _ => ⟨⟨rfl, by simp⟩, by simp⟩, fun _ _ => rfl⟩

theorem nextAnswer_used {m : Nat} {s t : State} (h : AnswersUsed m s t) (k : Nat) :
    nextAnswer t k = nextAnswer s (m + k) := by
  unfold nextAnswer
  rw [h.1, h.2, List.getElem?_drop, List.length_drop]
  cases hk : s.foreign.readAnswers[m + k]? with
  | some v => rfl
  | none =>
    have := List.getElem?_eq_none_iff.1 hk
    dsimp only
    congr 1
    omega

theorem AnswersUsed.trans {m n : Nat} {s t u : State} (h1 : AnswersUsed m s t) (h2 : AnswersUsed n t u) :
    AnswersUsed (m + n) s u := by
  refine ⟨by rw [h2.1, h1.1, List.drop_drop], ?_⟩
  rw [h2.2, h1.2, h1.1, List.length_drop]
  omega

theorem ReadSeries.trans {xs ys : List Transaction} {s t u : State} (h1 : ReadSeries xs s t) (h2 : ReadSeries ys t u) :
    ReadSeries (xs ++ ys) s u := by
  refine ⟨h2.accessEnable.trans h1.accessEnable, h2.collaborator.trans h1.collaborator, h2.mem.trans h1.mem, ?_, ?_, ?_⟩
  · rw [h2.log, h1.log, List.reverse_append, List.append_assoc]
  · intro ha
    obtain ⟨u1, v1⟩ := h1.arbitrary ha
    obtain ⟨u2, v2⟩ := h2.arbitrary (h1.collaborator.trans ha)
    refine ⟨by rw [List.length_append]; exact u1.trans u2, fun k a v hk => ?_⟩
    rw [List.getElem?_append] at hk
    split at hk
    · exact v1 k a v hk
    · rw [v2 _ a v hk, nextAnswer_used u1]
      congr 2
      omega
  · intro order ho
    rw [h2.reference order (h1.collaborator.trans ho), h1.reference order ho]

/-- One one-byte read of the enabled port. -/
theorem memRead_series (a : Word) {s : State} (h : s.accessEnable = true) :
    ReadSeries [.read a .byte (memRead .byte a s).1] s (memRead .byte a s).2 ∧ (memRead .byte a s).1.toNat < 256 := by
  have lt : ∀ v, (truncate .byte v).toNat < 256 := fun v => by
    rw [toNat_truncate]
    exact Nat.mod_lt _ (by decide)
  cases ho : s.foreign.collaborator with
  | reference order =>
    rw [memRead_reference _ _ h ho]
    exact ⟨⟨rfl, rfl, rfl, rfl, fun ha => by simp [ho] at ha, fun _ _ => rfl⟩,
      (readSized_holds s.foreign.mem order .byte a).1⟩
  | arbitrary =>
    rw [memRead_enabled _ _ h]
    unfold Foreign.answerRead
    rw [ho]
    dsimp only
    have key : ∀ v : Word, v.toNat = sized .byte (nextAnswer s 0) → ∀ k b w,
        [Transaction.read a .byte v][k]? = some (.read b .byte w) → w.toNat = sized .byte (nextAnswer s k) := by
      intro v hv k b w hk
      cases k with
      | zero =>
        simp at hk
        rw [← hk.2]
        exact hv
      | succ k => simp at hk
    cases hr : s.foreign.readAnswers with
    | nil =>
      exact ⟨⟨rfl, ho.symm ▸ rfl, rfl, rfl, fun _ => ⟨by simp [AnswersUsed, hr, logTransaction],
        key _ (by rw [toNat_truncate]; simp [nextAnswer, hr])⟩, fun _ h => by simp [ho] at h⟩, lt _⟩
    | cons v vs =>
      exact ⟨⟨rfl, ho.symm ▸ rfl, rfl, rfl, fun _ => ⟨by simp [AnswersUsed, hr, logTransaction],
        key _ (by rw [toNat_truncate]; simp [nextAnswer, hr])⟩, fun _ h => by simp [ho] at h⟩, lt _⟩

/-! ## The reads of the search -/

theorem offset_succ (a : Word) (k : Nat) : offset (a + 1) k = offset a (k + 1) := by
  unfold offset
  rw [BitVec.add_assoc, BitVec.add_comm 1, BitVec.ofNat_add]
  rfl

/-- All that the reads of one candidate can do, whoever answers (R308). -/
theorem matchTemplate_series (template : List Byte) (a : Word) {s : State} (h : s.accessEnable = true) :
    ∃ reads, CandidateReads template a reads (matchTemplate template a s).1 ∧
      ReadSeries reads s (matchTemplate template a s).2 := by
  induction template generalizing a s with
  | nil => exact ⟨[], rfl, .refl s⟩
  | cons b bs ih =>
    obtain ⟨r1, r2⟩ := memRead_series a h
    have shift : ∀ n, ((List.range (n + 1)).map fun j =>
        Transaction.read (offset a j) .byte (((b :: bs).getD j 0).setWidth 32)) =
        .read a .byte (b.setWidth 32) :: (List.range n).map fun j =>
          Transaction.read (offset (a + 1) j) .byte ((bs.getD j 0).setWidth 32) := by
      intro n
      simp only [List.range_succ_eq_map, List.map_cons, List.map_map, Function.comp_def, offset_succ]
      simp [offset]
    unfold matchTemplate
    dsimp only
    split
    · rename_i hb
      obtain ⟨reads, h1, h2⟩ := ih (a + 1) (s := (memRead .byte a s).2) (by rw [r1.accessEnable]; exact h)
      rw [hb] at r1
      refine ⟨_, ?_, r1.trans h2⟩
      unfold CandidateReads at h1 ⊢
      dsimp only at h1 ⊢
      split
      · rename_i hit
        rw [if_pos hit] at h1
        rw [h1, List.length_cons, shift]
        rfl
      · rename_i hit
        rw [if_neg hit] at h1
        obtain ⟨j, w, hj, hw, hne, e⟩ := h1
        refine ⟨j + 1, w, by simpa using hj, hw, by simpa using hne, ?_⟩
        rw [e, shift, offset_succ]
        rfl
    · rename_i hb
      refine ⟨_, ?_, r1⟩
      unfold CandidateReads
      rw [if_neg (show ¬ false = true by decide)]
      exact ⟨0, _, by simp, r2, by simpa using hb, by simp [offset]⟩

/-- All that the scan of the search can do, whoever answers (R307, R308). -/
theorem searchLoop_visits (template : List Byte) (n : Nat) (start k : Nat) {s : State} (h : s.accessEnable = true) :
    ∃ visits, SearchVisits start n template k (searchLoop template n (BitVec.ofNat 32 start) k s).1 visits ∧
      ReadSeries (visits.flatMap (·.1)) s (searchLoop template n (BitVec.ofNat 32 start) k s).2 := by
  induction n generalizing start k s with
  | zero => exact ⟨[], ⟨le_refl _, by simp, .inr ⟨rfl, Nat.zero_le _, rfl⟩⟩, .refl s⟩
  | succ n ih =>
    obtain ⟨reads, c, r⟩ := matchTemplate_series template (BitVec.ofNat 32 start) h
    have next : BitVec.ofNat 32 start + 1 = BitVec.ofNat 32 (start + 1) := by
      rw [BitVec.ofNat_add]
      rfl
    have visit : ∀ (hit : Bool) (rest : List (List Transaction × Bool)), CandidateReads template (BitVec.ofNat 32 start) reads hit →
        (∀ i x y, rest[i]? = some (x, y) → CandidateReads template (BitVec.ofNat 32 (start + 1 + i)) x y) →
        ∀ i x y, ((reads, hit) :: rest)[i]? = some (x, y) →
          CandidateReads template (BitVec.ofNat 32 (start + i)) x y := by
      intro hit rest hc hr i x y hi
      cases i with
      | zero =>
        simp at hi
        obtain ⟨rfl, rfl⟩ := hi
        exact hc
      | succ i =>
        have := hr i x y (by simpa using hi)
        rwa [Nat.add_assoc, Nat.add_comm 1] at this
    have more : ∀ (hit : Bool) (k' : Nat), (matchTemplate template (BitVec.ofNat 32 start) s).1 = hit →
        k' + (if hit then 1 else 0) = k → ∃ visits,
        SearchVisits start (n + 1) template k
          (searchLoop template n (BitVec.ofNat 32 start + 1) k' (matchTemplate template (BitVec.ofNat 32 start) s).2).1
          visits ∧
        ReadSeries (visits.flatMap (·.1)) s
          (searchLoop template n (BitVec.ofNat 32 start + 1) k' (matchTemplate template (BitVec.ofNat 32 start) s).2).2 := by
      intro hit k' hh hk
      rw [hh] at c
      obtain ⟨rest, ⟨v1, v2, v3⟩, v4⟩ := ih (start + 1) k' (s := (matchTemplate template (BitVec.ofNat 32 start) s).2)
        (by rw [r.accessEnable]; exact h)
      rw [next]
      refine ⟨(reads, hit) :: rest, ⟨by simpa using v1, visit hit rest c v2, ?_⟩, r.trans v4⟩
      have cnt : ((reads, hit) :: rest).countP (·.2) = rest.countP (·.2) + if hit then 1 else 0 := by
        rw [List.countP_cons]
      rw [cnt]
      rcases v3 with ⟨w1, w2, w3⟩ | ⟨w1, w2, w3⟩
      · refine .inl ⟨by omega, ?_, ?_⟩
        · cases rest with
          | nil => simp at w2
          | cons x xs => simpa [List.getLast?_cons_cons] using w2
        · cases rest with
          | nil => simp at w2
          | cons x xs =>
            rw [w3]
            congr 1
            simp
            omega
      · exact .inr ⟨by simpa using w1, by omega, w3⟩
    unfold searchLoop
    dsimp only
    split
    · rename_i hit
      split
      · rename_i hk
        subst hk
        rw [hit] at c
        refine ⟨[(reads, true)], ⟨by simp, visit true [] c (by simp), .inl ⟨rfl, rfl, by simp⟩⟩, ?_⟩
        simpa using r
      · exact more true (k - 1) hit (by simp; omega)
    · rename_i hit
      exact more false k (by simpa using hit) (by simp)

end Sys2Proof.Machine
end

