-- ==== Sys2Proof/Tests/Slice0.lean ====
section
/-! SUPPORT. Tests: ill-formed terms the checks refuse, a word of every instruction written out from the encoding tables of
`30_encoding.md`, single steps with the expected values of the rules' own examples and of `95_test_vectors.md`, and for every
statement with hypotheses a state and operands that meet them. -/

namespace Sys2Proof.Tests

open Sys2Proof.Machine

/-! ## Ill-formed terms -/

theorem test_wf_refuses_long_string : (Instr.strwrite .noPointer 0 (List.replicate 65536 0)).wellFormed = false := by
  rw [Instr.wellFormed, List.length_replicate]
  decide

theorem test_wf_refuses_ragged_payload : (Instr.execasm [0, 0, 0]).wellFormed = false := by decide

theorem test_wf_refuses_long_payload : (Instr.execasm (List.replicate 524288 0)).wellFormed = false := by
  rw [Instr.wellFormed, List.length_replicate]
  decide

theorem test_wf_refuses_long_template : (Instr.search 0 0 0 (List.replicate 256 0)).wellFormed = false := by
  rw [Instr.wellFormed, List.length_replicate]
  decide

theorem test_wf_refuses_ninth_argument : (Instr.call 0 1 0 (List.replicate 9 0)).wellFormed = false := by decide

/-! ## A word of every instruction, from R97 to R99 -/

theorem test_word_ramwrite :
    decode .default [0x00, 0x02, 0, 0, 0x80, 0x00, 0x10, 0x00, 0, 0, 0, 0xAA, 0, 0, 0, 0]
      = .ok (.ramwrite .noPointer .word 0x80001000 0xAA) := by decide

theorem test_word_strwrite :
    decode .default [0x01, 0x00, 0x00, 0x03, 0x10, 0, 0, 0, 0x41, 0x42, 0x43, 0, 0, 0, 0, 0]
      = .ok (.strwrite .noPointer 0x10000000 [0x41, 0x42, 0x43]) := by decide

theorem test_word_skipwrite :
    decode .default [0x02, 0x01, 0x00, 0x03, 0x10, 0, 0, 0, 0, 0, 0, 0xFF, 0, 0, 0, 4, 0, 0, 0, 1, 0, 0, 0, 0]
      = .ok (.skipwrite .noPointer .half 3 0x10000000 0xFF 4 1) := by decide

theorem test_word_ifeq :
    decode .default [0x03, 0x02, 0, 0, 0x10, 0, 0, 0, 0, 0, 0, 5, 0, 0, 0, 0]
      = .ok (.ifeq .noPointer .word 0x10000000 5) := by decide

theorem test_word_ifne :
    decode .default [0x04, 0x00, 0, 0, 0x10, 0, 0, 0, 0, 0, 0, 0xFF, 0, 0, 0, 0]
      = .ok (.ifne .noPointer .byte 0x10000000 0xFF) := by decide

theorem test_word_ifgt :
    decode .default [0x05, 0x01, 0, 0, 0x10, 0, 0, 0, 0, 0, 0x80, 0, 0, 0, 0, 0]
      = .ok (.ifgt .noPointer .half 0x10000000 0x8000) := by decide

theorem test_word_iflt :
    decode .default [0x06, 0x11, 0, 0, 0, 0, 0, 4, 0, 0, 0x80, 0, 0, 0, 0, 0]
      = .ok (.iflt .pointer .half 4 0x8000) := by decide

theorem test_word_ifge :
    decode .default [0x07, 0x01, 0, 0, 0x10, 0, 0, 0, 0, 0, 0x80, 0, 0, 0, 0, 0]
      = .ok (.ifge .noPointer .half 0x10000000 0x8000) := by decide

theorem test_word_ifle :
    decode .default [0x08, 0x12, 0, 0, 0x10, 0, 0, 0, 0, 0, 0x80, 0, 0, 0, 0, 0]
      = .ok (.ifle .pointer .word 0x10000000 0x8000) := by decide

theorem test_word_ifand :
    decode .default [0x09, 0x00, 0, 0, 0x10, 0, 0, 0, 0, 0, 0, 0x0F, 0, 0, 0, 0]
      = .ok (.ifand .noPointer .byte 0x10000000 0x0F) := by decide

theorem test_word_ifor :
    decode .default [0x0A, 0x00, 0, 0, 0x10, 0, 0, 0, 0, 0, 0, 0x00, 0, 0, 0, 0]
      = .ok (.ifor .noPointer .byte 0x10000000 0) := by decide

theorem test_word_ifbetween :
    decode .default [0x0B, 0x02, 0, 0, 0x10, 0, 0, 0, 0, 0, 0, 0x10, 0, 0, 0, 0x20]
      = .ok (.ifbetween .noPointer .word 0x10000000 0x10 0x20) := by decide

theorem test_word_timedep : decodeTableWord 64 0x0C00000000000002 = some (.timedep 2) := by decide

theorem test_word_resettimer : decodeTableWord 64 0x0D00000000000000 = some .resettimer := by decide

theorem test_word_ldi : decodeTableWord 64 0x1000000310000000 = some (.ldi .noPointer .byte 3 0x10000000) := by decide

theorem test_word_sti : decodeTableWord 64 0x1101000210000010 = some (.sti .noPointer .half 2 0x10000010) := by decide

theorem test_word_ldf : decodeTableWord 64 0x1200000110000020 = some (.ldf .noPointer 1 0x10000020) := by decide

theorem test_word_stf : decodeTableWord 64 0x1310000100000008 = some (.stf .pointer 1 8) := by decide

theorem test_word_iadd : decodeTableWord 64 0x1400010200000000 = some (.iadd 1 2) := by decide

theorem test_word_isub : decodeTableWord 64 0x1401010200000000 = some (.isub 1 2) := by decide

theorem test_word_imul : decodeTableWord 64 0x1402010200000000 = some (.imul 1 2) := by decide

theorem test_word_idiv : decodeTableWord 64 0x1403010200000000 = some (.idiv 1 2) := by decide

theorem test_word_iaddi : decodeTableWord 64 0x1404000000000064 = some (.iaddi 0 0x64) := by decide

theorem test_word_isubi : decodeTableWord 64 0x1405000000000002 = some (.isubi 0 2) := by decide

theorem test_word_imuli : decodeTableWord 64 0x1406070000000003 = some (.imuli 7 3) := by decide

theorem test_word_idivi : decodeTableWord 64 0x1407000000000002 = some (.idivi 0 2) := by decide

theorem test_word_fadd : decodeTableWord 64 0x1500010200000000 = some (.fadd 1 2) := by decide

theorem test_word_fsub : decodeTableWord 64 0x1501030400000000 = some (.fsub 3 4) := by decide

theorem test_word_fmul : decodeTableWord 64 0x1502050600000000 = some (.fmul 5 6) := by decide

theorem test_word_fdiv : decodeTableWord 64 0x1503070000000000 = some (.fdiv 7 0) := by decide

theorem test_word_faddi : decodeTableWord 64 0x150400003F000000 = some (.faddi 0 0x3F000000) := by decide

theorem test_word_fsubi : decodeTableWord 64 0x150501003F800000 = some (.fsubi 1 0x3F800000) := by decide

theorem test_word_fmuli : decodeTableWord 64 0x15060200BF800000 = some (.fmuli 2 0xBF800000) := by decide

theorem test_word_fdivi : decodeTableWord 64 0x1507030040800000 = some (.fdivi 3 0x40800000) := by decide

theorem test_word_f2i : decodeTableWord 64 0x1508020500000000 = some (.f2i 2 5) := by decide

theorem test_word_fill :
    decode .default [0x20, 0, 0, 0, 0x10, 0, 0, 0, 0xDE, 0xAD, 0xBE, 0xEF, 0, 0, 0, 0x0A]
      = .ok (.fill .noPointer 0x10000000 0xDEADBEEF 10) := by decide

theorem test_word_ldptr :
    decode .default [0x30, 0, 0, 0, 0x10, 0, 0, 0, 0x10, 0, 0, 0, 0x1F, 0xFF, 0xFF, 0xFF]
      = .ok (.ldptr .noPointer 0x10000000 0x10000000 0x1FFFFFFF) := by decide

theorem test_word_addptr : decodeTableWord 64 0x31000000FFFFFFF0 = some (.addptr 0xFFFFFFF0) := by decide

theorem test_word_ldptrd : decodeTableWord 64 0x3200000010002000 = some (.ldptrd 0x10002000) := by decide

theorem test_word_search :
    decode .default [0xA8, 0, 0, 4, 0x10, 0, 0x10, 1, 0xDE, 0xAD, 0xBE, 0xEF, 0, 0, 0, 0]
      = .ok (.search 0 0x1000 0x1001 [0xDE, 0xAD, 0xBE, 0xEF]) := by decide

theorem test_word_execasm :
    decode .default [0xC0, 0, 0, 1, 0, 0, 0, 0, 0x60, 0, 0, 0, 0x4E, 0x80, 0, 0x20]
      = .ok (.execasm [0x60, 0, 0, 0, 0x4E, 0x80, 0, 0x20]) := by decide

theorem test_word_syscall : decodeTableWord 64 0xC100123400000000 = some (.syscall 0x1234) := by decide

theorem test_word_term : decodeTableWord 64 0xD0000000DEADCAFE = some .term := by decide

theorem test_word_nop : decodeTableWord 64 0xD100000000000000 = some .nop := by decide

theorem test_word_timerterm : decodeTableWord 64 0xD200000000000000 = some .timerterm := by decide

theorem test_word_corrupt :
    decode .default [0xF0, 0, 0, 0, 0x10, 0, 0, 0, 0x10, 0, 0, 0x0C, 0, 0, 0, 0x63, 0, 0, 0x27, 0x0F, 0, 0, 0, 0]
      = .ok (.corrupt 0x10000000 0x1000000C 0x63 0x270F) := by decide

theorem test_word_call :
    decode .default [0xF8, 0, 1, 1, 0x02, 0, 0, 0, 0, 0, 0, 0x2A, 0, 0, 0, 0]
      = .ok (.call 0 1 0x02000000 [0x2A]) := by decide

/-! ## Single steps -/

/-- A running block with 64 bytes left and accesses enabled. -/
def base : State := { State.reset with runState := .running, rem := 64 }

/-- `base` with bytes of foreign memory. -/
def withMemory (cells : List Host.Cell) : State := { base with foreign.mem := ⟨cells⟩ }

/-- `base` with a stream from index 0. -/
def withStream (bs : List Byte) (s : State) : State :=
  { s with stream := s.stream.writeBytes 0 bs, rem := BitVec.ofNat 32 bs.length }

/-- The state after an instruction. -/
def after (i : Instr) (s : State) : State :=
  match exec i s with
  | .next t => t
  | .fault _ | .refused _ => s

/-- A conditional's 16 bytes, a line of 0xEE, a terminator line: a false conditional lands at index 24. -/
def guarded (s : State) : State := withStream (List.replicate 24 0xEE ++ terminatorLine) s

/-- R191's example. -/
theorem test_ramwrite :
    let t := after (.ramwrite .noPointer .word 0x80001000 0xAA) base
    t.foreign.log = [.write 0x80001000 .word 0xAA] ∧ t.foreign.mem.cells = [(0x80001003, 0xAA)] ∧ t.pc = 16 := by
  decide

/-- R192's example. -/
theorem test_strwrite :
    let t := after (.strwrite .noPointer 0x10000000 [0x41, 0x42, 0x43]) base
    t.foreign.mem.cells = [(0x10000000, 0x41), (0x10000001, 0x42), (0x10000002, 0x43)] ∧ t.rem = 48 := by
  decide

/-- R193's example. -/
theorem test_skipwrite :
    (after (.skipwrite .noPointer .half 3 0x10000000 0xFF 4 1) base).foreign.log =
      [.write 0x10000008 .half 0x101, .write 0x10000004 .half 0x100, .write 0x10000000 .half 0xFF] := by
  decide

/-- R194's example. -/
theorem test_fill :
    (after (.fill .noPointer 0x10000000 0xDEADBEEF 10) base).foreign.log =
      [.write 0x10000004 .word 0xDEADBEEF, .write 0x10000000 .word 0xDEADBEEF] := by
  decide

/-- R195's example. -/
theorem test_corrupt :
    (after (.corrupt 0x10000000 0x1000000C 0x63 0x270F)
      (withMemory [(0x10000003, 0x63), (0x10000007, 5), (0x1000000B, 0x63)])).foreign.mem.cells =
      [(0x10000002, 0x27), (0x10000003, 0x0F), (0x10000007, 5), (0x1000000A, 0x27), (0x1000000B, 0x0F)] := by
  decide

/-- R213's example, true. -/
theorem test_ifeq_true :
    let t := after (.ifeq .noPointer .word 0x10000000 5) (guarded (withMemory [(0x10000003, 5)]))
    t.conditionFlag = true ∧ t.pc = 16 := by
  decide

/-- R213's example, false: the cursor lands on the terminator line. -/
theorem test_ifeq_false :
    let t := after (.ifeq .noPointer .word 0x10000000 5) (guarded (withMemory [(0x10000003, 6)]))
    t.conditionFlag = false ∧ t.pc = 24 ∧ t.rem = 8 := by
  decide

/-- R214's example. -/
theorem test_ifne_false :
    (after (.ifne .noPointer .byte 0x10000000 0xFF) (guarded (withMemory [(0x10000000, 0xFF)]))).pc = 24 := by
  decide

/-- R215's example. -/
theorem test_ifgt_true :
    (after (.ifgt .noPointer .half 0x10000000 0x8000) (guarded (withMemory [(0x10000000, 0x80), (0x10000001, 1)]))).pc
      = 16 := by
  decide

/-- R216's example. -/
theorem test_iflt_false :
    (after (.iflt .noPointer .half 0x10000000 0x8000) (guarded (withMemory [(0x10000000, 0x80), (0x10000001, 1)]))).pc
      = 24 := by
  decide

/-- R217's example. -/
theorem test_ifge_equal :
    (after (.ifge .noPointer .half 0x10000000 0x8000) (guarded (withMemory [(0x10000000, 0x80)]))).pc = 16 := by
  decide

/-- R218's example. -/
theorem test_ifle_false :
    (after (.ifle .noPointer .half 0x10000000 0x8000) (guarded (withMemory [(0x10000000, 0x80), (0x10000001, 1)]))).pc
      = 24 := by
  decide

/-- R219's example. -/
theorem test_ifand_false :
    (after (.ifand .noPointer .byte 0x10000000 0x0F) (guarded (withMemory [(0x10000000, 0xF0)]))).pc = 24 := by
  decide

/-- R220's example, both outcomes. -/
theorem test_ifor :
    (after (.ifor .noPointer .byte 0x10000000 0) (guarded base)).pc = 24 ∧
    (after (.ifor .noPointer .byte 0x10000000 0) (guarded (withMemory [(0x10000000, 1)]))).pc = 16 := by
  decide

/-- R221's example: inside, and on the exclusive upper bound. -/
theorem test_ifbetween :
    (after (.ifbetween .noPointer .word 0x10000000 0x10 0x20) (guarded (withMemory [(0x10000003, 0x18)]))).pc = 16 ∧
    (after (.ifbetween .noPointer .word 0x10000000 0x10 0x20) (guarded (withMemory [(0x10000003, 0x20)]))).pc = 24 := by
  decide

/-- R324: a false conditional with no terminator line; the record names the advanced cursor. -/
theorem test_unterminated_conditional :
    let t := after (.ifeq .noPointer .word 0x10000000 5) (withStream (List.replicate 24 0xEE) base)
    t.runState = .fatal ∧ t.fault.code.number = 4 ∧ t.fault.pc = 16 ∧ t.fault.info = 0xD0 ∧
      t.fault.bytes = Vector.replicate 8 0xEE := by
  decide

/-- R231's example: `1 mod 2 = 1` skips. -/
theorem test_timedep_skips :
    let t := after (.timedep 2) { withStream (List.replicate 16 0xEE ++ resetTimerLine) base with executionCount := 1 }
    t.timeDependenceDelay = 2 ∧ t.pc = 16 := by
  decide

/-- R231's example: with `execution_count = 2` no skip. -/
theorem test_timedep_passes :
    let t := after (.timedep 2) { withStream (List.replicate 16 0xEE ++ resetTimerLine) base with executionCount := 2 }
    t.timeDependenceDelay = 2 ∧ t.pc = 8 := by
  decide

theorem test_resettimer :
    let t := after .resettimer { base with timeDependenceDelay := 2, loadedPointer := 7, conditionFlag := true }
    t.timeDependenceDelay = 0 ∧ t.loadedPointer = 7 ∧ t.conditionFlag = true := by
  decide

/-- R233's example. -/
theorem test_term :
    let t := after .term { base with loadedPointer := 0x10001000, conditionFlag := true, timeDependenceDelay := 2 }
    t.loadedPointer = 0 ∧ t.conditionFlag = false ∧ t.timeDependenceDelay = 2 ∧ t.pc = 8 := by
  decide

theorem test_nop : after .nop base = { base with pc := 8, rem := 56 } := by decide

theorem test_timerterm : after .timerterm base = { base with pc := 8, rem := 56 } := by decide

/-- R247's example. -/
theorem test_ldi :
    (after (.ldi .noPointer .byte 3 0x10000000)
      { withMemory [(0x10000000, 0x80)] with ireg := Vector.replicate 8 0xFFFFFFFF }).ireg
      = #v[0xFFFFFFFF, 0xFFFFFFFF, 0xFFFFFFFF, 0x80, 0xFFFFFFFF, 0xFFFFFFFF, 0xFFFFFFFF, 0xFFFFFFFF] := by
  decide

/-- R248's example. -/
theorem test_sti :
    (after (.sti .noPointer .half 2 0x10000010) { base with ireg := #v[0, 0, 0x12345678, 0, 0, 0, 0, 0] }).foreign.log
      = [.write 0x10000010 .half 0x5678] := by
  decide

/-- R249's example. -/
theorem test_ldf :
    (after (.ldf .noPointer 1 0x10000020) (withMemory [(0x10000020, 0x3F), (0x10000021, 0x80)])).freg.get 1
      = 0x3F800000 := by
  decide

/-- R250's example: pointer mode, with and without a loaded pointer. -/
theorem test_stf :
    (after (.stf .pointer 1 8) { base with loadedPointer := 0x10000000, freg := #v[0, 0x40400000, 0, 0, 0, 0, 0, 0] }
      ).foreign.log = [.write 0x10000008 .word 0x40400000] ∧
    (after (.stf .pointer 1 8) base).foreign.log = [] := by
  decide

/-- The register files of the arithmetic tests. -/
def registers (ints floats : Vector Word 8) : State := { base with ireg := ints, freg := floats }

/-- R254's example. -/
theorem test_iadd :
    (after (.iadd 1 2) (registers #v[0, 0xFFFFFFFF, 2, 0, 0, 0, 0, 0] (Vector.replicate 8 0))).ireg.get 1 = 1 := by
  decide

/-- R255's example. -/
theorem test_isub :
    (after (.isub 1 2) (registers #v[0, 0, 1, 0, 0, 0, 0, 0] (Vector.replicate 8 0))).ireg.get 1 = 0xFFFFFFFF := by
  decide

/-- R256's example. -/
theorem test_imul :
    (after (.imul 1 2) (registers #v[0, 0x10000, 0x10000, 0, 0, 0, 0, 0] (Vector.replicate 8 0))).ireg.get 1 = 0 := by
  decide

/-- R257's example. -/
theorem test_idiv :
    (after (.idiv 1 2) (registers #v[0, 0xFFFFFFFE, 2, 0, 0, 0, 0, 0] (Vector.replicate 8 0))).ireg.get 1
      = 0x7FFFFFFF := by
  decide

/-- The examples of R258 to R261. -/
theorem test_integer_direct_forms :
    (after (.iaddi 0 0x64) (registers #v[1, 0, 0, 0, 0, 0, 0, 0] (Vector.replicate 8 0))).ireg.get 0 = 0x65 ∧
    (after (.isubi 0 2) (registers #v[1, 0, 0, 0, 0, 0, 0, 0] (Vector.replicate 8 0))).ireg.get 0 = 0xFFFFFFFF ∧
    (after (.imuli 7 3) (registers #v[0, 0, 0, 0, 0, 0, 0, 0x55555556] (Vector.replicate 8 0))).ireg.get 7 = 2 ∧
    (after (.idivi 0 2) (registers #v[7, 0, 0, 0, 0, 0, 0, 0] (Vector.replicate 8 0))).ireg.get 0 = 3 := by
  decide

/-- The examples of R262 to R265. -/
theorem test_float_register_forms :
    (after (.fadd 1 2) (registers (Vector.replicate 8 0) #v[0, 0x3F800000, 0x40000000, 0, 0, 0, 0, 0])).freg.get 1
      = 0x40400000 ∧
    (after (.fsub 1 2) (registers (Vector.replicate 8 0) #v[0, 0x3F800000, 0x40000000, 0, 0, 0, 0, 0])).freg.get 1
      = 0xBF800000 ∧
    (after (.fmul 1 2) (registers (Vector.replicate 8 0) #v[0, 0x3FC00000, 0x40000000, 0, 0, 0, 0, 0])).freg.get 1
      = 0x40400000 ∧
    (after (.fdiv 1 2) (registers (Vector.replicate 8 0) #v[0, 0x40400000, 0x40000000, 0, 0, 0, 0, 0])).freg.get 1
      = 0x3FC00000 := by
  decide

/-- The examples of R266 to R269. -/
theorem test_float_direct_forms :
    (after (.faddi 0 0x3F000000) (registers (Vector.replicate 8 0) #v[0x3F000000, 0, 0, 0, 0, 0, 0, 0])).freg.get 0
      = 0x3F800000 ∧
    (after (.fsubi 0 0x3F800000) (registers (Vector.replicate 8 0) #v[0x3F800000, 0, 0, 0, 0, 0, 0, 0])).freg.get 0
      = 0 ∧
    (after (.fmuli 0 0xBF800000) (registers (Vector.replicate 8 0) #v[0x40000000, 0, 0, 0, 0, 0, 0, 0])).freg.get 0
      = 0xC0000000 ∧
    (after (.fdivi 0 0x40800000) (registers (Vector.replicate 8 0) #v[0x3F800000, 0, 0, 0, 0, 0, 0, 0])).freg.get 0
      = 0x3E800000 := by
  decide

/-- The examples of R270. -/
theorem test_f2i :
    (after (.f2i 2 5) (registers (Vector.replicate 8 9) #v[0, 0, 0, 0, 0, 0x40700000, 0, 0])).ireg.get 2 = 3 ∧
    (after (.f2i 2 5) (registers (Vector.replicate 8 9) #v[0, 0, 0, 0, 0, 0xC0700000, 0, 0])).ireg.get 2 = 0xFFFFFFFD ∧
    (after (.f2i 2 5) (registers (Vector.replicate 8 9) #v[0, 0, 0, 0, 0, 0x80000000, 0, 0])).ireg.get 2 = 0 := by
  decide

/-- R281's example: in range, and out of range. -/
theorem test_ldptr :
    (after (.ldptr .noPointer 0x10000000 0x10000000 0x1FFFFFFF) (withMemory [(0x10000000, 0x10), (0x10000002, 0x20)])
      ).loadedPointer = 0x10002000 ∧
    (after (.ldptr .noPointer 0x10000000 0x10000000 0x1FFFFFFF) { base with loadedPointer := 5 }).loadedPointer = 0 := by
  decide

/-- R282's example, in a dry run. -/
theorem test_ldptrd :
    (after (.ldptrd 0x10002000) { base with accessEnable := false }).loadedPointer = 0x10002000 := by
  decide

/-- R283's examples. -/
theorem test_addptr :
    (after (.addptr 0xFFFFFFF0) { base with loadedPointer := 0x10002000 }).loadedPointer = 0x10001FF0 ∧
    (after (.addptr 0xFFFFFFF0) base).loadedPointer = 0xFFFFFFF0 := by
  decide

/-- R291's example. -/
theorem test_execasm :
    (after (.execasm [0x60, 0, 0, 0, 0x4E, 0x80, 0, 0x20])
      { base with foreign.callAnswers := [⟨0, []⟩] }).foreign.log
      = [.execRaw [0x60, 0, 0, 0, 0x4E, 0x80, 0, 0x20]] := by
  decide

/-- R292's example. -/
theorem test_syscall :
    (after (.syscall 0x1234) { base with foreign.callAnswers := [⟨0, []⟩] }).foreign.log = [.sysCall 0x1234] := by
  decide

/-- R293's example. -/
theorem test_call :
    let t := after (.call 0 1 0x02000000 [0x2A]) { base with foreign.callAnswers := [⟨0x0000000100000002, []⟩] }
    t.ireg = #v[2, 1, 0, 0, 0, 0, 0, 0] ∧ t.pc = 16 ∧
      t.foreign.log = [.foreignCall 0x02000000 [0x2A, 0, 0, 0, 0, 0, 0, 0] 1 0x0000000100000002] := by
  decide

/-- R293's corner: with equal indices the high half stays. -/
theorem test_call_same_register :
    (after (.call 3 3 0 []) { base with foreign.callAnswers := [⟨0x0000000100000002, []⟩] }).ireg.get 3 = 1 := by
  decide

/-- The stream of R312's example with a range of the same shape moved to the bottom of the space: the rewritten line,
the moved line and the stale tail. -/
theorem test_search :
    let t := after (.search 0 0 1 [0xDE, 0xAD]) { withStream
      ([0xA8, 0, 0, 2, 0, 0, 0, 1, 0xDE, 0xAD, 0, 0, 0, 0, 0, 0] ++ [0xD1, 0, 0, 0, 0, 0, 0, 0]) base with
        foreign.mem := ⟨[(5, 0xDE), (6, 0xAD)]⟩ }
    t.rem = 16 ∧ t.pc = 0 ∧
      t.stream.slice 0 24 = [0x32, 0, 0, 0, 0, 0, 0, 5, 0xD1, 0, 0, 0, 0, 0, 0, 0, 0xD1, 0, 0, 0, 0, 0, 0, 0] := by
  decide

/-- R309: in a dry run nothing is found and the line is rewritten all the same. -/
theorem test_search_dry :
    let t := after (.search 0 0x1000 0x1001 [0xDE, 0xAD]) { withStream
      [0xA8, 0, 0, 2, 0x10, 0, 0x10, 1, 0xDE, 0xAD, 0, 0, 0, 0, 0, 0] base with accessEnable := false }
    t.rem = 8 ∧ t.foreign.log = [] ∧ t.stream.slice 0 8 = [0x32, 0, 0, 0, 0, 0, 0, 0] := by
  decide

/-- Log 29: an empty template with `start = end` has one candidate, so `INDEX = 0` finds the start (R308); no byte is read. -/
theorem test_search_empty_range :
    let t := after (.search 0 0x1000 0x1000 []) (withStream [0xA8, 0, 0, 0, 0x10, 0, 0x10, 0] base)
    t.rem = 8 ∧ t.foreign.log = [] ∧ t.stream.slice 0 8 = [0x32, 0, 0, 0, 0x10, 0, 0, 0] := by
  decide

/-- A word of the opcode table placed after reset runs as the first instruction. -/
theorem test_table_word_runs_first :
    step (State.reset.withFetchWord 64 0x1404000000000064) =
      exec (.iaddi 0 0x64) (State.reset.withFetchWord 64 0x1404000000000064) := by
  rfl

/-! ## Witnesses: states and operands that meet the hypotheses of the statements -/

/-- A sound running state: the cursor at 0, the given stream. -/
def live (bs : List Byte) : State := withStream bs { State.reset with runState := .running }

/-- A sound running state with a reference memory, accesses enabled and a pointer loaded. -/
def gated : State := { base with loadedPointer := 0x10000000, foreign.mem := ⟨[(0x10000003, 5)]⟩ }

theorem witness_legal_opcode_map : OpcodeMap.default.legal := by decide

/-- `DecodeInvertsEncode`, `TruncatedInstructionIsRejected`: the longest and the shortest counted operands, and the cuts at
the first and the last place. -/
theorem witness_well_formed_boundaries :
    (Instr.strwrite .pointer 0 []).wellFormed = true ∧
    (Instr.strwrite .pointer 0 (List.replicate 65535 0)).wellFormed = true ∧
    (Instr.execasm []).wellFormed = true ∧ (Instr.execasm (List.replicate 524280 0)).wellFormed = true ∧
    (Instr.search 0 0 0 (List.replicate 255 0)).wellFormed = true ∧
    (Instr.call 7 7 0 (List.replicate 8 0)).wellFormed = true ∧
    8 < (Instr.ramwrite .noPointer .byte 0 0).length ∧ 15 < (Instr.ramwrite .noPointer .byte 0 0).length := by
  refine ⟨rfl, ?_, rfl, ?_, ?_, rfl, by decide, by decide⟩ <;> rw [Instr.wellFormed, List.length_replicate] <;> decide

/-- `DecodedInstructionFits`, `DecodingReadsOnlyItsOwnBytes`: an instruction that ends where the bytes end, and one that
does not. -/
theorem witness_decodes :
    decode .default [0xF8, 0, 1, 0, 0, 0, 0, 9] = .ok (.call 0 1 9 []) ∧
    decode .default ([0xC0, 0, 0, 1, 0, 0, 0, 0] ++ List.replicate 16 0xAA) = .ok (.execasm (List.replicate 8 0xAA)) := by
  decide

/-- `CountedFormatsDecode`: lists of every length exist; each clause's length and padding at the smallest and the largest
count. -/
theorem witness_counts :
    (∀ n, (List.replicate n (0 : Byte)).length = n ∧ (List.replicate n (0 : Word)).length = n) ∧
    (0 < 65536 ∧ 0 = padded 0 - 0) ∧ (65535 < 65536 ∧ 1 = padded 65535 - 65535) ∧
    (0 = 8 * 0 ∧ 65535 < 65536 ∧ 524280 = 8 * 65535) ∧
    (0 < 256 ∧ 0 = padded 0 - 0) ∧ (255 < 256 ∧ 1 = padded 255 - 255) ∧
    (0 ≤ 8 ∧ 0 = 4 * (0 % 2)) ∧ (7 ≤ 8 ∧ 4 = 4 * (7 % 2)) ∧ (8 ≤ 8 ∧ 0 = 4 * (8 % 2)) :=
  ⟨fun n => ⟨List.length_replicate, List.length_replicate⟩, by decide, by decide, by decide, by decide, by decide,
    by decide, by decide, by decide⟩

/-- `UnknownOpcodeIsRejected`: 0x0E is no default value, 0x00 is one. -/
theorem witness_unknown_opcode :
    (∀ op, OpcodeMap.default.value op ≠ 0x0E) ∧ ¬ ∀ op, OpcodeMap.default.value op ≠ 0x00 :=
  ⟨fun op => by cases op <;> decide, fun h => h .ramwrite rfl⟩

/-- `PointerModeAndSizeErrors`: the first and the last reserved nibbles, the last legal ones. -/
theorem witness_reserved_nibbles :
    (2 ≤ (0x20 : Byte).toNat / 16 ∧ 2 ≤ (0xFF : Byte).toNat / 16) ∧
    ((0x13 : Byte).toNat / 16 < 2 ∧ 3 ≤ (0x13 : Byte).toNat % 16) ∧
    ((0x0F : Byte).toNat / 16 < 2 ∧ 3 ≤ (0x0F : Byte).toNat % 16) := by
  decide

/-- `RegisterAndSubopcodeErrors`: every clause at the first value out of range after the last legal one before it. -/
theorem witness_register_range :
    ((0x12 : Byte).toNat / 16 < 2 ∧ (0x12 : Byte).toNat % 16 < 3 ∧ 8 ≤ (8 : Byte).toNat) ∧
    ((0x1F : Byte).toNat / 16 < 2 ∧ 8 ≤ (0xFF : Byte).toNat) ∧
    (8 ≤ (8 : Byte).toNat ∧ 9 ≤ (9 : Byte).toNat) ∧
    ((7 : Byte).toNat < 8 ∧ 8 ≤ (8 : Byte).toNat ∧ (8 : Byte).toNat < 9) ∧
    ((3 : Byte).toNat < 8 ∧ (7 : Byte).toNat < 8 ∧ (3 : Byte).toNat < 4 ∧ 8 ≤ (8 : Byte).toNat) ∧
    ((8 : Byte).toNat < 9 ∧ (7 : Byte).toNat < 8 ∧ (8 : Byte).toNat = 8 ∧ 8 ≤ (8 : Byte).toNat) := by
  decide

/-- `CallFieldErrors`: each clause at its boundary. -/
theorem witness_call_fields :
    8 ≤ (8 : Byte).toNat ∧ ((7 : Byte).toNat < 8 ∧ 8 ≤ (8 : Byte).toNat) ∧
    ((7 : Byte).toNat < 8 ∧ (7 : Byte).toNat < 8 ∧ 8 < (9 : Byte).toNat) := by
  decide

/-- `StepRunsTheDecodedInstruction`: a NoOperation in the last line, with an empty host list and with a pause. -/
theorem witness_step_runs :
    let s := live [0xD1, 0, 0, 0, 0, 0, 0, 0]
    s.runState = .running ∧ s.rem ≠ 0 ∧ s.rem.toNat % 8 = 0 ∧ s.logicalLength ≤ s.streamMax ∧
      decode s.params.opc s.remaining = .ok .nop ∧ s.host = [] ∧
      ({ s with host := [.pause] } : State).host = .pause :: [] := by
  decide

/-- `RunEndsWhenNothingRemains`, also with the counter about to wrap. -/
theorem witness_run_end :
    let s : State := { live [] with executionCount := 0xFFFFFFFF }
    s.host = [] ∧ s.runState = .running ∧ s.rem = 0 := by
  decide

/-- `RunEndsWhenNothingRemains`, second clause: a step that ends in the fatal state. -/
theorem witness_fatal_step :
    (live [0x0E, 0, 0, 0, 0, 0, 0, 0]).host = [] ∧ (live [0x0E, 0, 0, 0, 0, 0, 0, 0]).runState = .running ∧
      ∃ t, step (live [0x0E, 0, 0, 0, 0, 0, 0, 0]) = .next t ∧ t.runState = .fatal :=
  ⟨rfl, rfl, _, rfl, rfl⟩

/-- `MisalignedLengthIsFatal`: lengths 1 and 15. -/
theorem witness_misaligned :
    (let s := live [0xD1]
     s.host = [] ∧ s.runState = .running ∧ s.logicalLength ≤ s.streamMax ∧ s.rem.toNat % 8 ≠ 0) ∧
    (let s := live (List.replicate 15 0xD1)
     s.host = [] ∧ s.runState = .running ∧ s.logicalLength ≤ s.streamMax ∧ s.rem.toNat % 8 ≠ 0) := by
  decide

/-- `RejectedInstructionIsFatal`: an unknown opcode, a register index of 8, a truncated RamWrite. -/
theorem witness_rejected :
    (let s := live [0x0E, 0, 0, 0, 0, 0, 0, 0]
     s.host = [] ∧ s.runState = .running ∧ s.rem ≠ 0 ∧ s.rem.toNat % 8 = 0 ∧ s.logicalLength ≤ s.streamMax ∧
       decode s.params.opc s.remaining = .error (.unknownOpcode 0x0E)) ∧
    (let s := live [0x10, 0, 0, 8, 0, 0, 0, 0]
     decode s.params.opc s.remaining = .error (.registerRange 8)) ∧
    (let s := live [0x00, 0, 0, 0, 0, 0, 0, 0]
     decode s.params.opc s.remaining = .error (.truncated 16)) := by
  decide

theorem witness_stopped : State.reset.host = [] ∧ State.reset.runState ≠ .running := by decide

theorem witness_initialize : ({ base with host := [.reinit] } : State).host = .reinit :: [] := rfl

/-- `RunCommandStartsOrIsRefused`: the largest accepted length, the smallest refused one, and a refusal by the state. -/
theorem witness_run_command :
    (let s : State := { State.reset with host := [.run 0x7FFFFFF8] }
     s.host = .run 0x7FFFFFF8 :: [] ∧ (s.runState = .idle ∨ s.runState = .done) ∧
       (0x7FFFFFF8 : Word).toNat ≤ 8 * s.params.streamLines.toNat) ∧
    (let s : State := { State.reset with host := [.run 0x7FFFFFF9] }
     s.host = .run 0x7FFFFFF9 :: [] ∧
       ¬ ((s.runState = .idle ∨ s.runState = .done) ∧ (0x7FFFFFF9 : Word).toNat ≤ 8 * s.params.streamLines.toNat)) ∧
    (let s : State := { base with host := [.run 0] }
     s.host = .run 0 :: [] ∧
       ¬ ((s.runState = .idle ∨ s.runState = .done) ∧ (0 : Word).toNat ≤ 8 * s.params.streamLines.toNat)) := by
  decide

/-- `LoadAndDriveCommands`: the last index of the buffer and the first beyond it, in and outside a run; a drive outside a run,
a drive of the same value in a run, a change in a run. -/
theorem witness_load_and_drive :
    (({ State.reset with host := [.load 0x7FFFFFF7 1] } : State).runState ≠ .running ∧
      (0x7FFFFFF7 : Word).toNat < State.reset.streamMax) ∧
    ({ base with host := [.load 0 1] } : State).runState = .running ∧
    State.reset.streamMax ≤ (0x7FFFFFF8 : Word).toNat ∧
    ({ State.reset with host := [.drive false] } : State).runState ≠ .running ∧
    (({ base with host := [.drive true] } : State).runState = .running ∧ true = base.accessEnable) ∧
    (({ base with host := [.drive false] } : State).runState = .running ∧ false ≠ base.accessEnable) := by
  decide

/-- A running state with a stream of whole lines is sound. -/
theorem witness_sound_state : (live [0xD1, 0, 0, 0, 0, 0, 0, 0]).Inv :=
  ⟨by decide, by decide, by decide, by decide, by decide, by decide, by decide, by decide, by decide⟩

/-- `StepKeepsTheInvariant`, `CursorNeverMovesBack`: a sound state that steps. -/
theorem witness_sound_step :
    (live [0xD1, 0, 0, 0, 0, 0, 0, 0]).Inv ∧ (live [0xD1, 0, 0, 0, 0, 0, 0, 0]).host = [] ∧
      ∃ t, step (live [0xD1, 0, 0, 0, 0, 0, 0, 0]) = .next t :=
  ⟨witness_sound_state, rfl, _, rfl⟩

/-- `SoundStateStopsOnForbiddenHostActions`: reset is sound. -/
theorem witness_sound_reset : State.reset.runState = .idle ∧ State.reset.host = [] ∧ initializeBlock State.reset = State.reset := by
  decide

/-- `EveryRunEnds`. -/
theorem witness_running_sound :
    (live [0xD1, 0, 0, 0, 0, 0, 0, 0]).Inv ∧ (live [0xD1, 0, 0, 0, 0, 0, 0, 0]).host = [] ∧
      (live [0xD1, 0, 0, 0, 0, 0, 0, 0]).runState = .running :=
  ⟨witness_sound_state, rfl, rfl⟩

/-- `InstructionsWriteOnlyTheirState`, `RegistersAreWrittenOnlyAsListed`, `VmFieldsAreWrittenOnlyAsListed`: an instruction
that answers a next state and is on none of the lists, with a register it does not write. -/
theorem witness_frames :
    (∃ t, exec (.iadd 1 2) base = .next t) ∧ (0 : Reg) ∉ integerTargets (.iadd 1 2) ∧
      (0 : Reg) ∉ floatTargets (.iadd 1 2) ∧ isConditional (.iadd 1 2) = false ∧ Instr.iadd 1 2 ≠ .term ∧
      (∀ p a lo hi, Instr.iadd 1 2 ≠ .ldptr p a lo hi) ∧ (∀ o, Instr.iadd 1 2 ≠ .addptr o) ∧
      (∀ a, Instr.iadd 1 2 ≠ .ldptrd a) ∧ (∀ d, Instr.iadd 1 2 ≠ .timedep d) ∧ Instr.iadd 1 2 ≠ .resettimer ∧
      ∀ x sh eh tm, Instr.iadd 1 2 ≠ .search x sh eh tm :=
  ⟨⟨_, rfl⟩, by decide, by decide, rfl, nofun, nofun, nofun, nofun, nofun, nofun, nofun⟩

/-- `SuppressedInstructionOnlyAdvances`: an unset pointer, and a dry run with a set one. -/
theorem witness_gate_closed :
    (gateMode (.ldi .pointer .byte 0 0) = some .pointer ∧ ¬ GateOpen .pointer base) ∧
    (gateMode (.syscall 1) = some .noPointer ∧ ¬ GateOpen .noPointer { gated with accessEnable := false }) := by
  refine ⟨⟨rfl, fun h => h.2 rfl rfl⟩, ⟨rfl, fun h => Bool.noConfusion h.1⟩⟩

/-- `DryRunNeverTouchesTheForeignSystem`: a dry run about to take a fatal error. -/
theorem witness_dry_run :
    let s : State := { live [0x0E, 0, 0, 0, 0, 0, 0, 0] with accessEnable := false }
    s.accessEnable = false ∧ s.host = [] ∧ s.logicalLength ≤ s.streamMax := by
  decide

/-- The statements about an open gate: both pointer modes, the sizes being free. -/
theorem witness_gate_open : GateOpen .noPointer gated ∧ GateOpen .pointer gated :=
  ⟨⟨rfl, nofun⟩, ⟨rfl, fun _ => by decide⟩⟩

/-- The statements under the reference memory: both byte orders. -/
theorem witness_reference :
    (gated.accessEnable = true ∧ gated.foreign.collaborator = .reference .be) ∧
    (let s : State := { gated with foreign.collaborator := .reference .le }
     s.accessEnable = true ∧ s.foreign.collaborator = .reference .le) := by
  decide

/-- `ReadReturnsTheValueWritten`: after a write, a read of the same bytes and writes just below and just above them. -/
theorem witness_port_series :
    ∀ x ∈ [PortAccess.read .word 4, .write .half 2 1, .write .byte 8 1], ∀ k < ValueSize.word.bytes,
      ¬ x.Writes (offset 4 k) := by
  have h1 : ∀ k < 4, ¬ ∃ j < 2, offset 4 k = offset 2 j := by decide
  have h2 : ∀ k < 4, ¬ ∃ j < 1, offset 4 k = offset 8 j := by decide
  intro x hx k hk
  simp only [List.mem_cons, List.not_mem_nil, or_false] at hx
  obtain rfl | rfl | rfl := hx
  · exact fun h => h
  · exact h1 k hk
  · exact h2 k hk

/-- `ArbitraryReadReturnsTheNextAnswer`, `CorrupterReplacesMatchingWords`, `SearchRewritesTheStream`: an answer fixed in advance, and none left. -/
theorem witness_arbitrary :
    (let s : State := { gated with foreign.collaborator := .arbitrary, foreign.readAnswers := [0xFFFFFFFF] }
     s.accessEnable = true ∧ s.foreign.collaborator = .arbitrary ∧ s.foreign.readAnswers = 0xFFFFFFFF :: []) ∧
    (let s : State := { gated with foreign.collaborator := .arbitrary }
     s.accessEnable = true ∧ s.foreign.collaborator = .arbitrary ∧ s.foreign.readAnswers = []) := by
  decide

/-- `StringWriteStoresItsBytes`: an empty string and the longest one. -/
theorem witness_string_lengths :
    ([] : List Byte).length < 65536 ∧ (List.replicate 65535 (0 : Byte)).length < 65536 := by
  rw [List.length_replicate]
  decide

/-- `CorrupterReplacesMatchingWords`: a range of one byte still reads a word, an empty range none. -/
theorem witness_corrupt_range :
    0 < ((1 : Word).toNat - (0 : Word).toNat + 3) / 4 ∧ ((0 : Word).toNat - (0 : Word).toNat + 3) / 4 = 0 ∧
      HoldsValue .be .word gated 0x10000000 5 :=
  ⟨by decide, by decide, by unfold HoldsValue; decide⟩

/-- `OrderedConditionals` and `OrderedConditionalsOfTheOriginal`. -/
theorem witness_ordered :
    gated.params.ordered = .unsigned ∧
      ({ gated with params := { gated.params with ordered := .original } } : State).params.ordered = .original := by
  decide

/-- `Concludes` and `Skips`: a true and a false comparison, a match at offset 8 with none below it, and no match. -/
theorem witness_skip :
    (5 = sized .word 5 ∧ ¬ 6 = sized .word 5) ∧
    MatchesAt terminatorLine { guarded base with pc := 16, rem := 16 } 8 ∧
    (∀ j < 8, ¬ MatchesAt terminatorLine { guarded base with pc := 16, rem := 16 } j) ∧
    ∀ k, ¬ MatchesAt terminatorLine { guarded base with pc := 16, rem := 8 } k := by
  refine ⟨by decide, by unfold MatchesAt; decide, by unfold MatchesAt; decide, fun k h => ?_⟩
  obtain ⟨h1, h2⟩ := h
  have h3 : k = 0 := by
    have e : terminatorLine.length = 8 := rfl
    have e2 : ({ guarded base with pc := 16, rem := 8 } : State).rem.toNat = 8 := rfl
    omega
  subst h3
  exact absurd (h2 0 (by decide)) (by decide)

/-- `TimeDependenceGatesByRunCount`: delays that skip, do not divide, and are zero. -/
theorem witness_timer :
    ((2 : Word).toNat ≠ 0 ∧ (1 : Word).toNat % (2 : Word).toNat ≠ 0) ∧
    ¬ ((1 : Word).toNat ≠ 0 ∧ (1 : Word).toNat % (1 : Word).toNat ≠ 0) ∧
    ¬ ((0 : Word).toNat ≠ 0 ∧ (1 : Word).toNat % (0 : Word).toNat ≠ 0) := by
  decide

/-- `IntegerDivisionTruncates`: a zero and a nonzero divisor. -/
theorem witness_divisors : (0 : Word) = 0 ∧ (1 : Word) ≠ 0 := by decide

/-- The float statements: a signalling NaN, the largest finite number, the smallest subnormal. -/
theorem witness_floats :
    IsNaN 0x7F800001 ∧ IsFinite 0x7F7FFFFF ∧ IsFinite 0x00000001 ∧ ¬ IsFinite 0x7F800000 := by
  refine ⟨⟨by decide, by decide⟩, ?_, ?_, ?_⟩ <;> unfold IsFinite <;> decide

/-- A finite number that is not zero (`FloatSpecialCases`, `FloatQuotientsAreCorrectlyRounded`). -/
theorem witness_nonzero_float : IsFinite 0x3F800000 ∧ floatValue 0x3F800000 ≠ 0 := by
  refine ⟨by unfold IsFinite; decide, ?_⟩
  have h1 : (0x3F800000 : Word).getLsbD 31 = false := by decide
  have h2 : ((0x3F800000 : Word).extractLsb' 23 8).toNat = 127 := by decide
  have h3 : ((0x3F800000 : Word).extractLsb' 0 23).toNat = 0 := by decide
  rw [floatValue, h1, h2, h3]
  norm_num

/-- `FloatToIntegerTruncates`: -2^31 is in range, 2^31 is not. -/
theorem witness_conversion_range :
    (IsFinite 0xCF000000 ∧ truncateToward (floatValue 0xCF000000) = -(2 ^ 31)) ∧
    (IsFinite 0x4F000000 ∧ truncateToward (floatValue 0x4F000000) = 2 ^ 31) := by
  refine ⟨⟨by unfold IsFinite; decide, ?_⟩, ⟨by unfold IsFinite; decide, ?_⟩⟩
  · have h1 : (0xCF000000 : Word).getLsbD 31 = true := by decide
    have h2 : ((0xCF000000 : Word).extractLsb' 23 8).toNat = 158 := by decide
    have h3 : ((0xCF000000 : Word).extractLsb' 0 23).toNat = 0 := by decide
    rw [floatValue, h1, h2, h3]
    norm_num [truncateToward]
  · have h1 : (0x4F000000 : Word).getLsbD 31 = false := by decide
    have h2 : ((0x4F000000 : Word).extractLsb' 23 8).toNat = 158 := by decide
    have h3 : ((0x4F000000 : Word).extractLsb' 0 23).toNat = 0 := by decide
    rw [floatValue, h1, h2, h3]
    norm_num [truncateToward]

/-- `PointerInstructions`: the value read on each bound, and just outside. -/
theorem witness_pointer_bounds :
    ((5 : Word).toNat ≤ (5 : Word).toNat ∧ (5 : Word).toNat ≤ (5 : Word).toNat) ∧
    ¬ ((6 : Word).toNat ≤ (5 : Word).toNat ∧ (5 : Word).toNat ≤ (9 : Word).toNat) ∧
    ¬ ((0 : Word).toNat ≤ (5 : Word).toNat ∧ (5 : Word).toNat ≤ (4 : Word).toNat) := by
  decide

/-- `RawExecutionAndSystemCall`, `ProcedureCallSplitsItsReturn`: an answer fixed in advance and none; eight arguments;
different registers. -/
theorem witness_calls :
    ({ gated with foreign.callAnswers := [⟨1, [(0, 1)]⟩] } : State).foreign.callAnswers = ⟨1, [(0, 1)]⟩ :: [] ∧
    gated.foreign.callAnswers = [] ∧ (List.replicate 8 (0 : Word)).length ≤ 8 ∧ (0 : Reg) ≠ 7 := by
  decide

/-- `SearchRewritesTheStream`: a template that fills what remains, and the empty template in the last line; a match with
none below it. -/
theorem witness_search :
    8 + padded 255 ≤ (264 : Word).toNat ∧ 8 + padded 0 ≤ (8 : Word).toNat ∧
      NthMatch 0x1000 0x1001 [5] gated 0 0x10000003 := by
  refine ⟨by decide, by decide, ⟨by unfold Candidate; decide, ?_⟩⟩
  refine ⟨?_, ∅, rfl, fun b => ⟨fun h => absurd h (Finset.notMem_empty b), fun h => ?_⟩⟩
  · intro j hj
    have : j = 0 := by simpa using hj
    subst this
    show gated.foreignByte (offset (BitVec.ofNat 32 0x10000003) 0) = 5
    decide
  · obtain ⟨h1, ⟨h2, _⟩, h3⟩ := h
    have h4 := h3 0 (by decide)
    have h5 : (0x1000 : HalfWord).toNat * 65536 = 0x10000000 := by decide
    obtain rfl | rfl | rfl : b = 0x10000000 ∨ b = 0x10000001 ∨ b = 0x10000002 := by omega
    all_goals exact absurd h4 (by decide)

/-- `SearchRewritesTheStream`: a range that holds no match, and the one candidate of an empty template with
`start = end` (log 29). -/
theorem witness_search_edges :
    (∀ a, ¬ NthMatch 0x1000 0x1000 [5] gated 0 a) ∧ NthMatch 0x1000 0x1000 [] gated 0 0x10000000 := by
  constructor
  · rintro a ⟨⟨h1, h2⟩, _⟩
    simp at h1 h2
    omega
  · refine ⟨by unfold Candidate; decide, fun j hj => absurd hj (Nat.not_lt_zero j), ∅, rfl, fun b => ?_⟩
    refine ⟨fun h => absurd h (Finset.notMem_empty b), fun h => ?_⟩
    obtain ⟨h1, ⟨h2, _⟩, _⟩ := h
    have h3 : (0x1000 : HalfWord).toNat * 65536 = 0x10000000 := by decide
    omega

/-- `RewrittenLineRunsNext`: a sound state about to search. -/
theorem witness_search_step :
    let s := live [0xA8, 0, 0, 0, 0, 0, 0, 1]
    s.host = [] ∧ s.runState = .running ∧ s.rem.toNat % 8 = 0 ∧ s.rem ≠ 0 ∧
      decode s.params.opc s.remaining = .ok (.search 0 0 1 []) := by
  decide

theorem witness_search_sound : (live [0xA8, 0, 0, 0, 0, 0, 0, 1]).Inv :=
  ⟨by decide, by decide, by decide, by decide, by decide, by decide, by decide, by decide, by decide⟩

end Sys2Proof.Tests
end

/-! ## What the decoder accepts (R102, R166) -/

namespace Sys2Proof

/-- A sequence of checks answers what its last one answers, when none of them fails. -/
theorem except_bind_eq_ok {ε α β : Type} {x : Except ε α} {f : α → Except ε β} {b : β} :
    (x >>= f) = .ok b ↔ ∃ a, x = .ok a ∧ f a = .ok b := by
  cases x with
  | error e =>
    constructor
    · intro h
      cases h
    · rintro ⟨_, h, _⟩
      cases h
  | ok a =>
    constructor
    · exact fun h => ⟨a, rfl, h⟩
    · rintro ⟨_, ⟨⟩, h⟩
      exact h

theorem except_pure_eq_ok {ε α : Type} {a b : α} : (pure a : Except ε α) = .ok b ↔ a = b := by
  simp [pure, Except.pure]

/-- `i` is well formed and lies inside its first line and the bytes after it. -/
def FitsAfter (rest : List Byte) (i : Instr) : Prop := i.wellFormed = true ∧ i.length ≤ 8 + rest.length

theorem FitsAfter.of_line {rest : List Byte} {i : Instr} (hw : i.wellFormed = true) (hl : i.length = 8) :
    FitsAfter rest i := ⟨hw, by omega⟩

/-- An instruction as long as its first line says fits, once the length check has passed. -/
theorem FitsAfter.of_checked {op : Opcode} {l : Line} {rest : List Byte} {i : Instr} {u : Unit}
    (hc : checkLength op l rest = .ok u) (hw : i.wellFormed = true) (hl : i.length = lengthOf op l) :
    FitsAfter rest i := ⟨hw, hl ▸ checkLength_eq_ok.1 hc⟩

variable {op : Opcode} {l : Line} {rest : List Byte} {i : Instr}

theorem decodeOperand_fits {mk : PointerMode → ValueSize → Word → Word → Word → Instr}
    (hmk : ∀ p sz a v w, (mk p sz a v w).wellFormed = true ∧ (mk p sz a v w).length = lengthOf op l)
    (h : decodeOperand op l rest mk = .ok i) : FitsAfter rest i := by
  simp only [decodeOperand, except_bind_eq_ok, except_pure_eq_ok] at h
  obtain ⟨p, -, sz, -, _, hc, rfl⟩ := h
  exact .of_checked hc (hmk ..).1 (hmk ..).2

theorem decodeFixedOperand_fits {mk : PointerMode → Word → Word → Word → Instr}
    (hmk : ∀ p a v w, (mk p a v w).wellFormed = true ∧ (mk p a v w).length = lengthOf op l)
    (h : decodeFixedOperand op l rest mk = .ok i) : FitsAfter rest i := by
  simp only [decodeFixedOperand, except_bind_eq_ok, except_pure_eq_ok] at h
  obtain ⟨p, -, _, hc, rfl⟩ := h
  exact .of_checked hc (hmk ..).1 (hmk ..).2

theorem decodeIntegerTransfer_fits {mk : PointerMode → ValueSize → Reg → Word → Instr}
    (hmk : ∀ p sz r a, (mk p sz r a).wellFormed = true ∧ (mk p sz r a).length = 8)
    (h : decodeIntegerTransfer l mk = .ok i) : FitsAfter rest i := by
  simp only [decodeIntegerTransfer, except_bind_eq_ok, except_pure_eq_ok] at h
  obtain ⟨p, -, sz, -, r, -, rfl⟩ := h
  exact .of_line (hmk ..).1 (hmk ..).2

theorem decodeFloatTransfer_fits {mk : PointerMode → Reg → Word → Instr}
    (hmk : ∀ p r a, (mk p r a).wellFormed = true ∧ (mk p r a).length = 8)
    (h : decodeFloatTransfer l mk = .ok i) : FitsAfter rest i := by
  simp only [decodeFloatTransfer, except_bind_eq_ok, except_pure_eq_ok] at h
  obtain ⟨p, -, r, -, rfl⟩ := h
  exact .of_line (hmk ..).1 (hmk ..).2

theorem decodeRegisterForm_fits {mk : Reg → Reg → Instr}
    (hmk : ∀ d r, (mk d r).wellFormed = true ∧ (mk d r).length = 8)
    (h : decodeRegisterForm l mk = .ok i) : FitsAfter rest i := by
  simp only [decodeRegisterForm, except_bind_eq_ok, except_pure_eq_ok] at h
  obtain ⟨d, -, r, -, rfl⟩ := h
  exact .of_line (hmk ..).1 (hmk ..).2

theorem decodeDirectForm_fits {mk : Reg → Word → Instr}
    (hmk : ∀ d v, (mk d v).wellFormed = true ∧ (mk d v).length = 8)
    (h : decodeDirectForm l mk = .ok i) : FitsAfter rest i := by
  simp only [decodeDirectForm, except_bind_eq_ok, except_pure_eq_ok] at h
  obtain ⟨d, -, rfl⟩ := h
  exact .of_line (hmk ..).1 (hmk ..).2

theorem decodeIntegerOperation_fits (h : decodeIntegerOperation l = .ok i) : FitsAfter rest i := by
  unfold decodeIntegerOperation at h
  split at h
  iterate 4 exact decodeRegisterForm_fits (by intros; exact ⟨rfl, rfl⟩) h
  iterate 4 exact decodeDirectForm_fits (by intros; exact ⟨rfl, rfl⟩) h
  exact nomatch h

theorem decodeFloatOperation_fits (h : decodeFloatOperation l = .ok i) : FitsAfter rest i := by
  unfold decodeFloatOperation at h
  split at h
  iterate 4 exact decodeRegisterForm_fits (by intros; exact ⟨rfl, rfl⟩) h
  iterate 4 exact decodeDirectForm_fits (by intros; exact ⟨rfl, rfl⟩) h
  · exact decodeRegisterForm_fits (by intros; exact ⟨rfl, rfl⟩) h
  · exact nomatch h

/-- `n` whole words are read off `4 * n` bytes. -/
theorem length_takeWords {n : Nat} {bs : List Byte} (h : 4 * n ≤ bs.length) : (takeWords n bs).length = n := by
  induction n generalizing bs with
  | zero => simp [takeWords]
  | succ n ih =>
    match bs, h with
    | b0 :: b1 :: b2 :: b3 :: bs, h =>
      simp only [List.length_cons] at h
      simp [takeWords, ih (bs := bs) (by omega)]

theorem decodeCall_fits (h : decodeCall l rest = .ok i) : FitsAfter rest i := by
  simp only [decodeCall, except_bind_eq_ok] at h
  obtain ⟨rlo, -, rhi, -, h⟩ := h
  have hargc : l.b3.toNat ≤ 8 := by
    by_contra hn
    rw [if_pos (by omega)] at h
    cases h
  rw [if_neg (by omega)] at h
  simp only [except_bind_eq_ok, except_pure_eq_ok] at h
  obtain ⟨_, hc, rfl⟩ := h
  have hl := checkLength_eq_ok.1 hc
  have hn : (takeWords l.b3.toNat rest).length = l.b3.toNat :=
    length_takeWords (by simp only [lengthOf, argBytes] at hl; omega)
  exact .of_checked hc (by simpa [Instr.wellFormed, hn] using hargc) (by simp only [Instr.length, hn, lengthOf])

/-- The bytes of a counted format stand before its padding. -/
theorem length_take_of_padded {n : Nat} (h : 8 + padded n ≤ 8 + rest.length) : (rest.take n).length = n :=
  List.length_take_of_le (by have := le_padded n; omega)

theorem decodeOpcode_fits (h : decodeOpcode op l rest = .ok i) : FitsAfter rest i := by
  cases op
  case ramwrite | ifeq | ifne | ifgt | iflt | ifge | ifle | ifand | ifor | ifbetween =>
    simp only [decodeOpcode] at h
    exact decodeOperand_fits (by intros; exact ⟨rfl, rfl⟩) h
  case fill | ldptr =>
    simp only [decodeOpcode] at h
    exact decodeFixedOperand_fits (by intros; exact ⟨rfl, rfl⟩) h
  case ldi | sti =>
    simp only [decodeOpcode] at h
    exact decodeIntegerTransfer_fits (by intros; exact ⟨rfl, rfl⟩) h
  case ldf | stf =>
    simp only [decodeOpcode] at h
    exact decodeFloatTransfer_fits (by intros; exact ⟨rfl, rfl⟩) h
  case integerOperation => exact decodeIntegerOperation_fits h
  case floatOperation => exact decodeFloatOperation_fits h
  case call => exact decodeCall_fits h
  case timedep | resettimer | addptr | ldptrd | syscall | term | nop | timerterm =>
    cases h
    exact .of_line rfl rfl
  case skipwrite =>
    simp only [decodeOpcode, except_bind_eq_ok, except_pure_eq_ok] at h
    obtain ⟨p, -, sz, -, _, hc, rfl⟩ := h
    exact .of_checked hc rfl rfl
  case corrupt =>
    simp only [decodeOpcode, except_bind_eq_ok, except_pure_eq_ok] at h
    obtain ⟨_, hc, rfl⟩ := h
    exact .of_checked hc rfl rfl
  case strwrite =>
    simp only [decodeOpcode, except_bind_eq_ok, except_pure_eq_ok] at h
    obtain ⟨p, -, _, hc, rfl⟩ := h
    have hn := length_take_of_padded (checkLength_eq_ok.1 hc)
    exact .of_checked hc (by simpa only [Instr.wellFormed, hn, decide_eq_true_eq] using l.aux.isLt)
      (by simp only [Instr.length, hn, lengthOf])
  case search =>
    simp only [decodeOpcode, except_bind_eq_ok, except_pure_eq_ok] at h
    obtain ⟨_, hc, rfl⟩ := h
    have hn := length_take_of_padded (checkLength_eq_ok.1 hc)
    exact .of_checked hc (by simpa only [Instr.wellFormed, hn, decide_eq_true_eq] using l.b3.isLt)
      (by simp only [Instr.length, hn, lengthOf])
  case execasm =>
    simp only [decodeOpcode, except_bind_eq_ok, except_pure_eq_ok] at h
    obtain ⟨_, hc, rfl⟩ := h
    have hl := checkLength_eq_ok.1 hc
    have hn : (rest.take (8 * l.aux.toNat)).length = 8 * l.aux.toNat :=
      List.length_take_of_le (by simp only [lengthOf] at hl; omega)
    have := l.aux.isLt
    refine .of_checked hc ?_ (by simp only [Instr.length, hn, lengthOf])
    simp only [Instr.wellFormed, hn, Bool.and_eq_true, beq_iff_eq, decide_eq_true_eq]
    omega

theorem decode_fits {m : OpcodeMap} {bs : List Byte} (h : decode m bs = .ok i) :
    i.wellFormed = true ∧ i.length ≤ bs.length := by
  unfold decode at h
  split at h
  · next rest =>
    split at h
    · exact nomatch h
    · obtain ⟨hw, hl⟩ := decodeOpcode_fits h
      exact ⟨hw, by simp only [List.length_cons]; omega⟩
  · exact nomatch h

/-- Settles O2: the decoder passes the length check before it answers, and every format carries the counts of its first
line. -/
theorem decodedInstructionFits : Obligations.DecodedInstructionFits := fun _ _ _ h => decode_fits h

end Sys2Proof

/-! ## What an instruction writes (R21, R22, R25 to R29, R40) -/

namespace Sys2Proof.Machine

/-- `t` is reached from `s` by changes that the instruction `i` is listed for (R21, R22, R25 to R32, R40). -/
structure Frame (i : Instr) (s t : State) : Prop where
  executionCount : t.executionCount = s.executionCount
  accessEnable : t.accessEnable = s.accessEnable
  params : t.params = s.params
  host : t.host = s.host
  collaborator : t.foreign.collaborator = s.foreign.collaborator
  stream : (∀ x sh eh tm, i ≠ .search x sh eh tm) → t.stream = s.stream
  run : t.runState = s.runState ∧ t.fault = s.fault ∨
    t.runState = .fatal ∧
      (isConditional i = true ∧ t.fault.code = .unterminatedConditional ∨
        (∃ d, i = .timedep d) ∧ t.fault.code = .unterminatedTimer)
  ireg : ∀ r, r ∉ integerTargets i → t.ireg.get r = s.ireg.get r
  freg : ∀ r, r ∉ floatTargets i → t.freg.get r = s.freg.get r
  conditionFlag : isConditional i = false → i ≠ .term → t.conditionFlag = s.conditionFlag
  loadedPointer : (∀ p a lo hi, i ≠ .ldptr p a lo hi) → (∀ o, i ≠ .addptr o) → (∀ a, i ≠ .ldptrd a) → i ≠ .term →
    t.loadedPointer = s.loadedPointer
  timeDependenceDelay : (∀ d, i ≠ .timedep d) → i ≠ .resettimer → t.timeDependenceDelay = s.timeDependenceDelay

/-! ### One rule per state operation -/

section

variable {i : Instr} {s t u : State}

theorem Frame.refl (i : Instr) (s : State) : Frame i s s :=
  ⟨rfl, rfl, rfl, rfl, rfl, fun _ => rfl, .inl ⟨rfl, rfl⟩, fun _ _ => rfl, fun _ _ => rfl, fun _ _ => rfl,
    fun _ _ _ _ => rfl, fun _ _ => rfl⟩

theorem Frame.advance (n : Nat) (h : Frame i s t) : Frame i s (Machine.advance n t) := { h with }

theorem Frame.ite {c : Prop} [Decidable c] (ht : Frame i s t) (hu : Frame i s u) : Frame i s (if c then t else u) := by
  split
  · exact ht
  · exact hu

theorem Frame.setIreg {r : Reg} (v : Word) (hr : r ∈ integerTargets i) (h : Frame i s t) :
    Frame i s (Machine.setIreg r v t) :=
  { h with
    ireg := fun k hk => by
      rw [setIreg_ireg, get_set_register, if_neg (ne_of_mem_of_not_mem hr hk).symm]
      exact h.ireg k hk }

theorem Frame.setFreg {r : Reg} (v : Word) (hr : r ∈ floatTargets i) (h : Frame i s t) :
    Frame i s (Machine.setFreg r v t) :=
  { h with
    freg := fun k hk => by
      rw [setFreg_freg, get_set_register, if_neg (ne_of_mem_of_not_mem hr hk).symm]
      exact h.freg k hk }

/-- The pointer instructions write the loaded pointer, whatever they read before. -/
theorem Frame.setLoadedPointer (v : Word)
    (hi : (∃ p a lo hi, i = .ldptr p a lo hi) ∨ (∃ o, i = .addptr o) ∨ ∃ a, i = .ldptrd a)
    (h : Frame i s t) : Frame i s (Machine.setLoadedPointer v t) :=
  { h with
    loadedPointer := fun h1 h2 h3 _ => by
      rcases hi with ⟨p, a, lo, hi, e⟩ | ⟨o, e⟩ | ⟨a, e⟩
      · exact absurd e (h1 p a lo hi)
      · exact absurd e (h2 o)
      · exact absurd e (h3 a) }

theorem Frame.rewriteStream {x sh eh : HalfWord} {tm : List Byte} (found : Word) (pad : Nat)
    (h : Frame (.search x sh eh tm) s t) : Frame (.search x sh eh tm) s (Machine.rewriteStream found pad t) :=
  { h with stream := fun hi => absurd rfl (hi x sh eh tm) }

/-- A port operation of any instruction: it changes the foreign system alone, and not who answers. -/
theorem Frame.port (i : Instr) (h : onlyForeign s t) (hc : t.foreign.collaborator = s.foreign.collaborator) :
    Frame i s t := by
  rw [h.eq]
  exact { Frame.refl i s with collaborator := hc }

theorem Frame.memRead (i : Instr) (sz : ValueSize) (a : Word) (s : State) : Frame i s (memRead sz a s).2 :=
  .port i (memRead_onlyForeign ..) (memRead_collaborator ..)

theorem Frame.memWrite (i : Instr) (sz : ValueSize) (a v : Word) (s : State) : Frame i s (memWrite sz a v s) :=
  .port i (memWrite_onlyForeign ..) (memWrite_collaborator ..)

theorem Frame.writeSeries (i : Instr) (sz : ValueSize) (stride incr : Word) (n : Nat) (a v : Word) (s : State) :
    Frame i s (writeSeries sz stride incr n a v s) :=
  .port i (writeSeries_onlyForeign ..) (writeSeries_collaborator ..)

theorem Frame.callPort (i : Instr) (x : BitVec 64 → Transaction) (s : State) : Frame i s (callPort x s).2 :=
  .port i (callPort_onlyForeign ..) (callPort_collaborator ..)

/-- A skip, or a whole conditional, inside an instruction that may raise its fatal error. -/
theorem Frame.skip {code : FaultCode} (h : Frame i s t) (k : SkipKeeps code t u)
    (hflag : isConditional i = false → u.conditionFlag = t.conditionFlag)
    (hcode : isConditional i = true ∧ code = .unterminatedConditional ∨
      (∃ d, i = .timedep d) ∧ code = .unterminatedTimer) : Frame i s u where
  executionCount := k.executionCount.trans h.executionCount
  accessEnable := k.accessEnable.trans h.accessEnable
  params := k.params.trans h.params
  host := k.host.trans h.host
  collaborator := k.collaborator.trans h.collaborator
  stream hi := k.stream.trans (h.stream hi)
  run := by
    rcases k.run with ⟨hr, hf⟩ | ⟨hr, hf⟩
    · rw [hr, hf]
      exact h.run
    · rw [hr, hf]
      exact .inr ⟨rfl, hcode⟩
  ireg r hr := by rw [k.ireg, h.ireg r hr]
  freg r hr := by rw [k.freg, h.freg r hr]
  conditionFlag hi ht := (hflag hi).trans (h.conditionFlag hi ht)
  loadedPointer h1 h2 h3 h4 := k.loadedPointer.trans (h.loadedPointer h1 h2 h3 h4)
  timeDependenceDelay h1 h2 := k.timeDependenceDelay.trans (h.timeDependenceDelay h1 h2)

/-! ### The instructions -/

theorem conditional_frame (hi : isConditional i = true) (p : PointerMode) (sz : ValueSize) (addr : Word)
    (f : Word → Bool) (s : State) : Frame i s (conditional p sz addr f s) :=
  (Frame.refl i s).skip (conditional_keeps p sz addr f s) (fun h => absurd (hi.symm.trans h) (by decide))
    (.inl ⟨hi, rfl⟩)

theorem timedep_frame (d : Word) (s : State) :
    Frame (.timedep d) s
      (if timerSkips d s then skipTo .resetTimer (advance 8 { s with timeDependenceDelay := d })
        else advance 8 { s with timeDependenceDelay := d }) := by
  have stored : Frame (.timedep d) s (advance 8 { s with timeDependenceDelay := d }) :=
    { Frame.refl (.timedep d) s with timeDependenceDelay := fun h => absurd rfl (h d) }
  exact .ite (stored.skip (skipTo_keeps .resetTimer _) (fun _ => skipTo_conditionFlag ..) (.inr ⟨⟨d, rfl⟩, rfl⟩)) stored

/-- Every instruction completes, and writes what it is listed for. -/
theorem exec_frame (i : Instr) (s : State) : ∃ t, exec i s = .next t ∧ Frame i s t := by
  have refl := Frame.refl i s
  cases i
  case ifeq | ifne | ifgt | iflt | ifge | ifle | ifand | ifor | ifbetween =>
    exact ⟨_, rfl, conditional_frame rfl ..⟩
  case timedep d => exact ⟨_, rfl, timedep_frame d s⟩
  case search =>
    exact ⟨_, rfl, Frame.rewriteStream _ _ (.port _ (searchTemplate_onlyForeign ..) (searchTemplate_collaborator ..))⟩
  case ramwrite | sti | stf => exact ⟨_, rfl, .advance _ (.ite (.memWrite ..) refl)⟩
  case skipwrite | fill => exact ⟨_, rfl, .advance _ (.ite (.writeSeries ..) refl)⟩
  case strwrite =>
    exact ⟨_, rfl, .advance _ (.ite (.port _ (writeString_onlyForeign ..) (writeString_collaborator ..)) refl)⟩
  case corrupt =>
    exact ⟨_, rfl, .advance _ (.ite (.port _ (corruptLoop_onlyForeign ..) (corruptLoop_collaborator ..)) refl)⟩
  case execasm | syscall => exact ⟨_, rfl, .advance _ (.ite (.callPort ..) refl)⟩
  case call =>
    exact ⟨_, rfl, .advance _ (.ite
      (.setIreg _ (by simp [integerTargets]) (.setIreg _ (by simp [integerTargets]) (.callPort ..))) refl)⟩
  case ldi => exact ⟨_, rfl, .advance _ (.ite (.setIreg _ (by simp [integerTargets]) (.memRead ..)) refl)⟩
  case ldf => exact ⟨_, rfl, .advance _ (.ite (.setFreg _ (by simp [floatTargets]) (.memRead ..)) refl)⟩
  case iadd | isub | imul | idiv | iaddi | isubi | imuli | idivi | f2i =>
    exact ⟨_, rfl, .advance _ (.setIreg _ (by simp [integerTargets]) refl)⟩
  case fadd | fsub | fmul | fdiv | faddi | fsubi | fmuli | fdivi =>
    exact ⟨_, rfl, .advance _ (.setFreg _ (by simp [floatTargets]) refl)⟩
  case ldptr => exact ⟨_, rfl, .advance _ (.ite (.setLoadedPointer _ (by simp) (.memRead ..)) refl)⟩
  case addptr | ldptrd => exact ⟨_, rfl, .advance _ (.setLoadedPointer _ (by simp) refl)⟩
  case resettimer =>
    exact ⟨_, rfl, .advance _ { refl with timeDependenceDelay := fun _ h => absurd rfl h }⟩
  case term =>
    exact ⟨_, rfl, .advance _ { refl with
      conditionFlag := fun _ h => absurd rfl h
      loadedPointer := fun _ _ _ h => absurd rfl h }⟩
  case nop | timerterm => exact ⟨_, rfl, .advance _ refl⟩

theorem frame_of_exec (h : exec i s = .next t) : Frame i s t := by
  obtain ⟨u, hu, frame⟩ := exec_frame i s
  cases hu.symm.trans h
  exact frame

end

/-- Settles O29: the first half of what every instruction keeps. -/
theorem instructionsWriteOnlyTheirState : Obligations.InstructionsWriteOnlyTheirState := by
  intro i s
  obtain ⟨t, ht, frame⟩ := exec_frame i s
  exact ⟨t, ht, frame.executionCount, frame.accessEnable, frame.params, frame.host, frame.collaborator, frame.stream,
    frame.run⟩

/-- Settles O30, by the register files' part of what every instruction keeps. -/
theorem registersAreWrittenOnlyAsListed : Obligations.RegistersAreWrittenOnlyAsListed := fun _ _ _ h r =>
  ⟨(frame_of_exec h).ireg r, (frame_of_exec h).freg r⟩

/-- Settles O31, by the flag, pointer and delay part of what every instruction keeps. -/
theorem vmFieldsAreWrittenOnlyAsListed : Obligations.VmFieldsAreWrittenOnlyAsListed := fun _ _ _ h =>
  ⟨(frame_of_exec h).conditionFlag, (frame_of_exec h).loadedPointer, (frame_of_exec h).timeDependenceDelay⟩

end Sys2Proof.Machine

/-! ## The step: what the host does, what the block does (R162 to R168, R340) -/

namespace Sys2Proof.Machine

section

variable {s t : State} {e : HostEvent} {es : List HostEvent} {i : Instr}

theorem step_of_no_event (h : s.host = []) : step s = blockStep s := by
  simp [step, h]

theorem step_of_pause (h : s.host = .pause :: es) : step s = blockStep { s with host := es } := by
  simp [step, h]

theorem step_of_event (h : s.host = e :: es) (he : e ≠ .pause) : step s = hostCommand e { s with host := es } := by
  cases e
  case pause => exact absurd rfl he
  all_goals simp only [step, h]

theorem blockStep_of_not_running (h : s.runState ≠ .running) : blockStep s = .next s := by
  unfold blockStep
  split
  · exact absurd ‹_› h
  all_goals rfl

/-! ### CHECK, FETCH and VALIDATE, in their order (R162, R168) -/

theorem fetchInstruction_finished (h0 : s.rem = 0) : fetchInstruction s = .finished := if_pos h0

theorem fetchInstruction_badLength (h0 : s.rem ≠ 0) (hw : s.logicalLength ≤ s.streamMax) (h8 : s.rem.toNat % 8 ≠ 0) :
    fetchInstruction s = .fatal .badLength s.rem := by
  rw [fetchInstruction, if_neg h0, if_neg (not_lt.2 hw), if_pos h8]

theorem fetchInstruction_rejected {err : DecodeError} (h0 : s.rem ≠ 0) (hw : s.logicalLength ≤ s.streamMax)
    (h8 : s.rem.toNat % 8 = 0) (hd : decode s.params.opc s.remaining = .error err) :
    fetchInstruction s = .fatal (decodeFaultCode err) (decodeFaultInfo err) := by
  rw [fetchInstruction, if_neg h0, if_neg (not_lt.2 hw), if_neg (not_not.2 h8), hd]

theorem fetchInstruction_decoded (h0 : s.rem ≠ 0) (hw : s.logicalLength ≤ s.streamMax) (h8 : s.rem.toNat % 8 = 0)
    (hd : decode s.params.opc s.remaining = .ok i) : fetchInstruction s = .instruction i := by
  rw [fetchInstruction, if_neg h0, if_neg (not_lt.2 hw), if_neg (not_not.2 h8), hd]

theorem decodeFaultCode_ne_none (err : DecodeError) : decodeFaultCode err ≠ .none := by
  cases err <;> exact nofun

theorem blockStep_of_decoded (hr : s.runState = .running) (h0 : s.rem ≠ 0) (h8 : s.rem.toNat % 8 = 0)
    (hw : s.logicalLength ≤ s.streamMax) (hd : decode s.params.opc s.remaining = .ok i) :
    blockStep s = exec i s := by
  simp only [blockStep, hr, fetchInstruction_decoded h0 hw h8 hd]

/-- All that one iteration of a running block inside its buffer can do. -/
theorem blockStep_cases (hr : s.runState = .running) (hw : s.logicalLength ≤ s.streamMax) :
    s.rem = 0 ∧ blockStep s = .next (finishRun s) ∨
    (∃ code info, code ≠ .none ∧ blockStep s = .next (raiseFatal code info s)) ∨
    ∃ i, s.rem.toNat % 8 = 0 ∧ decode s.params.opc s.remaining = .ok i ∧ blockStep s = exec i s := by
  by_cases h0 : s.rem = 0
  · exact .inl ⟨h0, by simp only [blockStep, hr, fetchInstruction_finished h0]⟩
  by_cases h8 : s.rem.toNat % 8 = 0
  · cases hd : decode s.params.opc s.remaining with
    | error err =>
      exact .inr (.inl ⟨_, decodeFaultInfo err, decodeFaultCode_ne_none err,
        by simp only [blockStep, hr, fetchInstruction_rejected h0 hw h8 hd]⟩)
    | ok i => exact .inr (.inr ⟨i, h8, rfl, blockStep_of_decoded hr h0 h8 hw hd⟩)
  · exact .inr (.inl ⟨.badLength, s.rem, by decide, by simp only [blockStep, hr, fetchInstruction_badLength h0 hw h8]⟩)

theorem getElem?_remaining {k : Nat} (h : k < s.rem.toNat) :
    s.remaining[k]? = some (s.streamByte (s.pc.toNat + k)) := by
  rw [List.getElem?_eq_getElem (by simpa using h)]
  simp [State.remaining, StreamBuffer.getElem_slice, State.streamByte]

end

/-! ### The block's part (R24, R30, R162) -/

/-- Settles O15: what is left of the list after a pause does not matter to the fetch. -/
theorem stepRunsTheDecodedInstruction : Obligations.StepRunsTheDecodedInstruction := by
  refine ⟨fun s i hr h0 h8 hw hd => ⟨fun hh => ?_, fun es hh => ?_⟩, fun s => ⟨s.length_remaining, fun k hk => ?_⟩⟩
  · rw [step_of_no_event hh]
    exact blockStep_of_decoded hr h0 h8 hw hd
  · rw [step_of_pause hh]
    exact blockStep_of_decoded hr h0 h8 hw hd
  · exact getElem?_remaining hk

/-- Settles O19: only the running block has an iteration. -/
theorem stoppedBlockStaysAsItIs : Obligations.StoppedBlockStaysAsItIs := fun s hh hr => by
  rw [step_of_no_event hh]
  exact blockStep_of_not_running hr

/-! ### The host's commands (R32, R34, R35, R340) -/

section

variable {s : State} {len i : Word} {b : Byte} {en : Bool}

theorem runAccepted_iff : runAccepted len s = true ↔
    (s.runState = .idle ∨ s.runState = .done) ∧ len.toNat ≤ s.streamMax := by
  simp [runAccepted]

theorem hostRun_accepted (h : (s.runState = .idle ∨ s.runState = .done) ∧ len.toNat ≤ s.streamMax) :
    hostRun len s = startRun len s := if_pos (runAccepted_iff.2 h)

theorem hostRun_refused (h : ¬ ((s.runState = .idle ∨ s.runState = .done) ∧ len.toNat ≤ s.streamMax)) :
    hostRun len s = s := if_neg (mt runAccepted_iff.1 h)

theorem hostLoad_running (h : s.runState = .running) : hostLoad i b s = .refused .loadWhileRunning := by
  simp [hostLoad, h]

theorem hostLoad_outside (h : s.runState ≠ .running) (hi : s.streamMax ≤ i.toNat) :
    hostLoad i b s = .refused .loadOutsideBuffer := by
  simp [hostLoad, h, hi]

theorem hostLoad_inside (h : s.runState ≠ .running) (hi : i.toNat < s.streamMax) :
    hostLoad i b s = .next { s with stream := s.stream.write i.toNat b } := by
  simp [hostLoad, h, hi]

theorem hostDrive_refused (h : s.runState = .running) (he : en ≠ s.accessEnable) :
    hostDrive en s = .refused .accessEnableWhileRunning := by
  simp [hostDrive, h, he]

theorem hostDrive_accepted (h : s.runState ≠ .running ∨ en = s.accessEnable) :
    hostDrive en s = .next { s with accessEnable := en } :=
  if_neg fun hn => h.elim (fun hr => hr hn.1) (fun he => hn.2 he)

end

/-- Settles O20, by the field rules of `initializeBlock`. -/
theorem initializeResetsEveryElement : Obligations.InitializeResetsEveryElement := by
  intro s es hh
  refine ⟨initializeBlock { s with host := es }, step_of_event hh (by simp), ?_⟩
  simp [Vector.get_eq_getElem, FaultRecord.clear, FaultCode.number]

/-- Settles O21: the guard of `run(L)` is R35's condition. -/
theorem runCommandStartsOrIsRefused : Obligations.RunCommandStartsOrIsRefused := by
  intro s len es hh
  rw [step_of_event hh (by simp)]
  refine ⟨fun h => ?_, fun h => ?_⟩
  · exact congrArg Host.Outcome.next (hostRun_accepted (s := { s with host := es }) h)
  · exact congrArg Host.Outcome.next (hostRun_refused (s := { s with host := es }) h)

/-- Settles O22, by the guards of the two commands and a read after a write of the stream. -/
theorem loadAndDriveCommands : Obligations.LoadAndDriveCommands := by
  refine ⟨fun s i b es hh hr hi => ?_, fun s i b es hh hr => ?_, fun s i b es hh hr hi => ?_,
    fun s e es hh h => ?_, fun s e es hh hr he => ?_⟩
  · refine ⟨{ s with stream := s.stream.write i.toNat b, host := es }, ?_, rfl, ?_, fun k hk => ?_⟩
    · rw [step_of_event hh (by simp)]
      exact hostLoad_inside hr hi
    · simp [State.streamByte, StreamBuffer.read_write]
    · simp [State.streamByte, StreamBuffer.read_write, hk.symm]
  · rw [step_of_event hh (by simp)]
    exact hostLoad_running hr
  · rw [step_of_event hh (by simp)]
    exact hostLoad_outside hr hi
  · rw [step_of_event hh (by simp)]
    exact hostDrive_accepted h
  · rw [step_of_event hh (by simp)]
    exact hostDrive_refused hr he

/-! ## Reset (R34) -/

/-- Settles O23: the reset state is written out, and its stream lists no byte. -/
theorem resetStateHasTheResetValues : Obligations.ResetStateHasTheResetValues := by
  have registers (r : Reg) : (Vector.replicate 8 (0 : Word)).get r = 0 := by simp [Vector.get_eq_getElem]
  have bytes (k : Fin 8) : (Vector.replicate 8 (0 : Byte)).get k = 0 := by simp [Vector.get_eq_getElem]
  exact ⟨fun r => ⟨registers r, registers r⟩, rfl, rfl, rfl, rfl, rfl, rfl, rfl, rfl, rfl, rfl, bytes, fun _ => rfl⟩

/-- Settles O24: nothing is stored, nothing runs, no fault is recorded. -/
theorem resetMeetsTheInvariant : Obligations.ResetMeetsTheInvariant where
  opcodes := by decide
  memory := Memory.wf_empty
  stream := ⟨.nil, nofun⟩
  window := Nat.zero_le _
  lines := nofun
  fatal := by decide
  record := fun _ => rfl
  done := nofun
  idle := fun _ => rfl

end Sys2Proof.Machine

/-! ## Sound states (R23, R24, R30, R31, R76, R163, R176, R334) -/

namespace Sys2Proof.Machine

section

variable {s t : State} {e : HostEvent} {i : Instr}

theorem streamMax_lt (s : State) : s.streamMax < 2 ^ 32 := by
  have := s.params.streamLines.isLt
  unfold State.streamMax
  omega

theorem State.Inv.length_lt (h : s.Inv) : s.logicalLength < 2 ^ 32 := lt_of_le_of_lt h.window (streamMax_lt s)

theorem State.Inv.fault_none (h : s.Inv) (hr : s.runState ≠ .fatal) : s.fault.code = .none :=
  not_not.1 (mt h.fatal.2 hr)

/-! ### The host's commands keep a state sound -/

theorem State.Inv.withHost (h : s.Inv) (es : List HostEvent) : State.Inv { s with host := es } :=
  { h with idle := fun hr => congrArg (fun u : State => { u with host := es }) (h.idle hr) }

theorem State.Inv.withAccessEnable (h : s.Inv) (en : Bool) : State.Inv { s with accessEnable := en } :=
  { h with idle := fun hr => congrArg (fun u : State => { u with accessEnable := en }) (h.idle hr) }

theorem State.Inv.withStream (h : s.Inv) {b : StreamBuffer} (hb : b.wf s.streamMax) :
    State.Inv { s with stream := b } :=
  { h with
    stream := hb
    idle := fun hr => congrArg (fun u : State => { u with stream := b }) (h.idle hr) }

theorem initializeBlock_inv (h : s.Inv) : (initializeBlock s).Inv where
  opcodes := h.opcodes
  memory := h.memory
  stream := h.stream
  window := Nat.zero_le _
  lines := nofun
  fatal := ⟨nofun, fun hn => absurd rfl hn⟩
  record := fun _ => rfl
  done := nofun
  idle := fun _ => rfl

theorem startRun_inv {len : Word} (h : s.Inv) (hr : s.runState = .idle ∨ s.runState = .done)
    (hl : len.toNat ≤ s.streamMax) : (startRun len s).Inv where
  opcodes := h.opcodes
  memory := h.memory
  stream := h.stream
  window := (Nat.zero_add len.toNat).trans_le hl
  lines := fun _ => .inr rfl
  fatal := ⟨nofun, fun hn => absurd (h.fault_none (by rcases hr with e | e <;> simp [e])) hn⟩
  record := h.record
  done := nofun
  idle := nofun

theorem hostRun_inv {len : Word} (h : s.Inv) : (hostRun len s).Inv := by
  by_cases ha : (s.runState = .idle ∨ s.runState = .done) ∧ len.toNat ≤ s.streamMax
  · rw [hostRun_accepted ha]
    exact startRun_inv h ha.1 ha.2
  · rw [hostRun_refused ha]
    exact h

/-- In a sound state a command of the host is refused only where R32 or R340 forbid it; else a sound state follows. -/
theorem hostCommand_inv (h : s.Inv) (e : HostEvent) :
    (∃ t, hostCommand e s = .next t ∧ t.Inv) ∨
    ∃ r, hostCommand e s = .refused r ∧
      ((∃ i b, e = .load i b ∧ (s.runState = .running ∨ s.streamMax ≤ i.toNat)) ∨
        ∃ en, e = .drive en ∧ s.runState = .running ∧ en ≠ s.accessEnable) := by
  cases e with
  | pause => exact .inl ⟨s, rfl, h⟩
  | reinit => exact .inl ⟨_, rfl, initializeBlock_inv h⟩
  | run len => exact .inl ⟨_, rfl, hostRun_inv h⟩
  | load i b =>
    by_cases hr : s.runState = .running
    · exact .inr ⟨_, hostLoad_running hr, .inl ⟨i, b, rfl, .inl hr⟩⟩
    by_cases hi : i.toNat < s.streamMax
    · exact .inl ⟨_, hostLoad_inside hr hi, h.withStream (StreamBuffer.wf_write h.stream hi)⟩
    · exact .inr ⟨_, hostLoad_outside hr (not_lt.1 hi), .inl ⟨i, b, rfl, .inr (not_lt.1 hi)⟩⟩
  | drive en =>
    by_cases ha : s.runState = .running ∧ en ≠ s.accessEnable
    · exact .inr ⟨_, hostDrive_refused ha.1 ha.2, .inr ⟨en, rfl, ha⟩⟩
    · exact .inl ⟨_, hostDrive_accepted ((not_and_or.1 ha).imp id not_not.1), h.withAccessEnable en⟩

/-! ### One iteration of the dispatch loop -/

/-- What one iteration of a sound running block leaves: the cursor never moves back, the logical length never grows and
changes by whole lines, and the run goes on with whole lines, ends, or ends fatally. -/
structure Iteration (s t : State) : Prop where
  params : t.params = s.params
  memory : t.foreign.mem.wf
  stream : t.stream.wf s.streamMax
  pc : s.pc.toNat ≤ t.pc.toNat
  length : t.logicalLength ≤ s.logicalLength
  lines : t.logicalLength % 8 = s.logicalLength % 8
  run : (t.runState = .running ∧ t.fault = s.fault ∧ s.logicalLength % 8 = 0) ∨
    (t.runState = .done ∧ t.fault = s.fault ∧ t.rem = 0) ∨
    t.runState = .fatal ∧ t.fault.code ≠ .none

theorem finishRun_iteration (h : s.Inv) (h0 : s.rem = 0) : Iteration s (finishRun s) :=
  ⟨rfl, h.memory, h.stream, le_rfl, le_rfl, rfl, .inr (.inl ⟨rfl, rfl, h0⟩)⟩

theorem raiseFatal_iteration {code : FaultCode} (h : s.Inv) (info : Word) (hc : code ≠ .none) :
    Iteration s (raiseFatal code info s) :=
  ⟨rfl, h.memory, h.stream, le_rfl, le_rfl, rfl, .inr (.inr ⟨rfl, hc⟩)⟩

theorem padded_mod_eight (n : Nat) : padded n % 8 = 0 := Nat.mul_mod_right ..

/-- An instruction that lies inside the remaining lines. -/
theorem exec_iteration (h : s.Inv) (hr : s.runState = .running) (h8 : s.logicalLength % 8 = 0)
    (hl : i.length ≤ s.rem.toNat) : ∃ t, exec i s = .next t ∧ Iteration s t := by
  by_cases hi : ∃ x sh eh tm, i = .search x sh eh tm
  · obtain ⟨x, sh, eh, tm, rfl⟩ := hi
    obtain ⟨t, ht, hparams, -, hrun, hfault, hpc, -, hrem, hmem, -, hstream, -⟩ := execSearch_progress x sh eh tm hl
    have hlen : t.logicalLength + padded tm.length = s.logicalLength := by
      unfold State.logicalLength
      rw [hpc]
      omega
    have := padded_mod_eight tm.length
    exact ⟨t, ht, hparams, hmem ▸ h.memory, hstream _ h.stream h.window, hpc ▸ le_rfl, by omega, by omega,
      .inl ⟨hrun.trans hr, hfault, h8⟩⟩
  · obtain ⟨t, ht, p⟩ := exec_progress hl h.length_lt fun x sh eh tm e => hi ⟨x, sh, eh, tm, e⟩
    refine ⟨t, ht, p.params, exec_memory_wf ht h.memory, p.stream ▸ h.stream, p.pc, p.logicalLength.le,
      by rw [p.logicalLength], ?_⟩
    exact p.run.imp (fun ⟨hrun, hfault⟩ => ⟨hrun.trans hr, hfault, h8⟩) .inr

/-- A run whose remaining bytes are whole lines has a stream of whole lines (R163). -/
theorem State.Inv.whole_lines (h : s.Inv) (hr : s.runState = .running) (h8 : s.rem.toNat % 8 = 0) :
    s.logicalLength % 8 = 0 := by
  rcases h.lines hr with hl | hpc
  · exact hl
  · simpa [State.logicalLength, hpc] using h8

/-- A sound running block always has a next state. -/
theorem blockStep_iteration (h : s.Inv) (hr : s.runState = .running) :
    ∃ t, blockStep s = .next t ∧ Iteration s t := by
  rcases blockStep_cases hr h.window with ⟨h0, hs⟩ | ⟨code, info, hc, hs⟩ | ⟨i, h8, hd, hs⟩
  · exact ⟨_, hs, finishRun_iteration h h0⟩
  · exact ⟨_, hs, raiseFatal_iteration h info hc⟩
  · rw [hs]
    have hl : i.length ≤ s.rem.toNat := by simpa using (decode_fits hd).2
    exact exec_iteration h hr (h.whole_lines hr h8) hl

theorem Iteration.inv (h : s.Inv) (hr : s.runState = .running) (it : Iteration s t) : t.Inv where
  opcodes := it.params ▸ h.opcodes
  memory := it.memory
  stream := by
    have := it.stream
    rwa [State.streamMax, ← it.params] at this
  window := by
    have := it.length.trans h.window
    rwa [State.streamMax, ← it.params] at this
  lines ht := by
    rcases it.run with ⟨-, -, h8⟩ | ⟨hd, -⟩ | ⟨hf, -⟩
    · exact .inl (it.lines.trans h8)
    · exact absurd (hd.symm.trans ht) (by decide)
    · exact absurd (hf.symm.trans ht) (by decide)
  fatal := by
    have clear := h.fault_none (by rw [hr]; decide)
    rcases it.run with ⟨hd, hf, -⟩ | ⟨hd, hf, -⟩ | ⟨hd, hf⟩
    · simp [hd, hf, clear]
    · simp [hd, hf, clear]
    · simp [hd, hf]
  record hc := by
    rcases it.run with ⟨-, hf, -⟩ | ⟨-, hf, -⟩ | ⟨-, hf⟩
    · rw [hf] at hc ⊢
      exact h.record hc
    · rw [hf] at hc ⊢
      exact h.record hc
    · exact absurd hc hf
  done ht := by
    rcases it.run with ⟨hd, -⟩ | ⟨-, -, h0⟩ | ⟨hd, -⟩
    · exact absurd (hd.symm.trans ht) (by decide)
    · exact h0
    · exact absurd (hd.symm.trans ht) (by decide)
  idle ht := by
    rcases it.run with ⟨hd, -⟩ | ⟨hd, -⟩ | ⟨hd, -⟩ <;> exact absurd (hd.symm.trans ht) (by decide)

/-- Every step of a sound block, running or not, has a sound next state. -/
theorem blockStep_inv (h : s.Inv) : ∃ t, blockStep s = .next t ∧ t.Inv := by
  by_cases hr : s.runState = .running
  · obtain ⟨t, ht, it⟩ := blockStep_iteration h hr
    exact ⟨t, ht, it.inv h hr⟩
  · exact ⟨s, blockStep_of_not_running hr, h⟩

/-- All that a step of a sound state can do: a sound next state, or the refusal of a forbidden action of the host. -/
theorem step_inv (h : s.Inv) :
    (∃ t, step s = .next t ∧ t.Inv) ∨
    ∃ r, step s = .refused r ∧
      ((∃ i b es, s.host = .load i b :: es ∧ (s.runState = .running ∨ s.streamMax ≤ i.toNat)) ∨
        ∃ en es, s.host = .drive en :: es ∧ s.runState = .running ∧ en ≠ s.accessEnable) := by
  cases hh : s.host with
  | nil =>
    rw [step_of_no_event hh]
    exact .inl (blockStep_inv h)
  | cons e es =>
    by_cases he : e = .pause
    · subst he
      rw [step_of_pause hh]
      exact .inl (blockStep_inv (h.withHost es))
    · rw [step_of_event hh he]
      refine (hostCommand_inv (h.withHost es) e).imp id ?_
      rintro ⟨r, hs, ⟨i, b, rfl, hf⟩ | ⟨en, rfl, hf⟩⟩
      · exact ⟨r, hs, .inl ⟨i, b, es, rfl, hf⟩⟩
      · exact ⟨r, hs, .inr ⟨en, es, rfl, hf⟩⟩

end

/-- Settles O25: every step of a sound state that has a next state has a sound one. -/
theorem stepKeepsTheInvariant : Obligations.StepKeepsTheInvariant := by
  intro s t h hs
  rcases step_inv h with ⟨u, hu, hinv⟩ | ⟨r, hr, -⟩
  · cases hu.symm.trans hs
    exact hinv
  · cases hr.symm.trans hs

/-- Settles O26, by the same account of the step. -/
theorem soundStateStopsOnForbiddenHostActions : Obligations.SoundStateStopsOnForbiddenHostActions := fun _ h =>
  (step_inv h).imp (fun ⟨t, ht, _⟩ => ⟨t, ht⟩) fun ⟨_, _, forbidden⟩ => forbidden

/-- Settles O27: an iteration moves the cursor forward, a stopped block stays. -/
theorem cursorNeverMovesBack : Obligations.CursorNeverMovesBack := by
  intro s t h hh hs
  rw [step_of_no_event hh] at hs
  by_cases hr : s.runState = .running
  · obtain ⟨u, hu, it⟩ := blockStep_iteration h hr
    cases hu.symm.trans hs
    exact ⟨it.pc, it.length, it.lines⟩
  · cases (blockStep_of_not_running hr).symm.trans hs
    exact ⟨le_rfl, le_rfl, rfl⟩

end Sys2Proof.Machine

/-! ## The dry run (R75, R144, R309, R364) -/

namespace Sys2Proof.Machine

section

variable {i : Instr} {p : PointerMode} {s : State}

/-! ### A closed gate (R144, R331) -/

/-- Who issues its accesses behind a closed gate only advances. -/
theorem advance_of_gate_closed (h : gate p s = false) (n : Nat) (u : State) :
    advance n (if gate p s then u else s) = advance n s := by
  rw [h, if_neg (by decide)]

theorem conditional_of_gate_closed (h : gate p s = false) (sz : ValueSize) (addr : Word) (f : Word → Bool) :
    conditional p sz addr f s = advance 16 s := by
  rw [conditional, h, if_neg (by decide)]

theorem exec_of_gate_closed (hm : gateMode i = some p) (hg : gate p s = false) :
    exec i s = .next (advance i.length s) := by
  cases i
  case ifeq | ifne | ifgt | iflt | ifge | ifle | ifand | ifor | ifbetween =>
    cases hm
    exact congrArg Host.Outcome.next (conditional_of_gate_closed hg ..)
  case ramwrite | strwrite | skipwrite | fill | corrupt | ldi | sti | ldf | stf | ldptr | execasm | syscall | call =>
    cases hm
    exact congrArg Host.Outcome.next (advance_of_gate_closed hg ..)
  all_goals exact nomatch hm

theorem gate_of_disabled (h : s.accessEnable = false) (p : PointerMode) : gate p s = false := by
  rw [gate, h, Bool.and_false]

/-- Nothing is read and nothing is found in a dry run (R309). -/
theorem searchTemplate_disabled (h : s.accessEnable = false) (x sh eh : HalfWord) (tm : List Byte) :
    searchTemplate x sh eh tm s = (0, s) := by
  rw [searchTemplate, gate_of_disabled h, if_neg (by decide)]

/-! ### Two runs that differ in the foreign system alone -/

/-- The state with another foreign system behind its ports. -/
def State.withForeign (s : State) (f : Foreign) : State := { s with foreign := f }

/-- The foreign system after further transactions, nothing but its log changed. -/
def Foreign.after (new : List Transaction) (f : Foreign) : Foreign := { f with log := new ++ f.log }

/-- `act` goes from `s` to one and the same next state whatever foreign system stands behind the ports, and all it does
there is to report fatal errors. -/
def Isolated (act : State → Result) (s : State) : Prop :=
  ∃ (t : State) (new : List Transaction), (∀ x ∈ new, ∃ r, x = Transaction.fatal r) ∧
    ∀ f, act (s.withForeign f) = .next (t.withForeign (f.after new))

/-- An update that does not look at the foreign system and issues nothing. -/
theorem Isolated.silent {act : State → Result} (t : State)
    (h : ∀ f, act (s.withForeign f) = .next (t.withForeign f)) : Isolated act s :=
  ⟨t, [], by simp, h⟩

/-- The plain instructions: one change that does not look at the foreign system, then the advance. -/
theorem Isolated.change (n : Nat) (g : State → State) (h : ∀ f, g (s.withForeign f) = (g s).withForeign f) :
    Isolated (fun u => .next (advance n (g u))) s :=
  .silent (advance n (g s)) fun f => by rw [h]; rfl

theorem raiseFatal_isolated (code : FaultCode) (info : Word) (s : State) :
    Isolated (fun u => .next (raiseFatal code info u)) s :=
  ⟨raiseFatal code info s, [.fatal (faultRecord code info s)], by simp, fun _ => rfl⟩

/-- The scanner reads the stream alone (R170). -/
theorem skipTo_isolated (target : SkipTarget) (s : State) : Isolated (fun u => .next (skipTo target u)) s := by
  have scan (f : Foreign) : (s.withForeign f).remaining = s.remaining := rfl
  cases hk : findPattern target.pattern s.remaining with
  | none =>
    have fails (f : Foreign) : skipTo target (s.withForeign f) =
        raiseFatal target.failure target.info (s.withForeign f) := by simp only [skipTo, scan, hk]
    simpa only [Isolated, fails] using raiseFatal_isolated target.failure target.info s
  | some k => exact .silent (advance k s) fun f => by simp only [skipTo, scan, hk]; rfl

theorem timedep_isolated (d : Word) (s : State) : Isolated (exec (.timedep d)) s := by
  have skips (f : Foreign) : timerSkips d (s.withForeign f) = timerSkips d s := rfl
  cases h : timerSkips d s with
  | false =>
    refine .silent (advance 8 { s with timeDependenceDelay := d }) fun f => ?_
    simp only [exec, execTimedep, skips, h]
    rfl
  | true =>
    obtain ⟨t, new, hnew, ht⟩ := skipTo_isolated .resetTimer (advance 8 { s with timeDependenceDelay := d })
    refine ⟨t, new, hnew, fun f => ?_⟩
    simp only [exec, execTimedep, skips, h]
    exact ht f

/-- In a dry run the gated instructions only advance; the others touch no port, but for the report of a timer gate. -/
theorem exec_isolated (h : s.accessEnable = false) (i : Instr) : Isolated (exec i) s := by
  cases hm : gateMode i with
  | some p =>
    exact .silent (advance i.length s) fun f => exec_of_gate_closed hm (gate_of_disabled (s := s.withForeign f) h p)
  | none =>
    cases i
    case timedep d => exact timedep_isolated d s
    case search x sh eh tm =>
      refine .silent (rewriteStream 0 (padded tm.length) s) fun f => ?_
      have found := searchTemplate_disabled (s := s.withForeign f) h x sh eh tm
      simp only [exec, execSearch, found]
      rfl
    case resettimer | iadd | isub | imul | idiv | iaddi | isubi | imuli | idivi | fadd | fsub | fmul | fdiv | faddi
        | fsubi | fmuli | fdivi | f2i | addptr | ldptrd | term | nop | timerterm =>
      exact .change 8 _ fun _ => rfl
    all_goals exact nomatch hm

theorem fetchInstruction_ne_outside (hw : s.logicalLength ≤ s.streamMax) : fetchInstruction s ≠ .outside := by
  unfold fetchInstruction
  rw [if_neg (not_lt.2 hw)]
  split
  · exact nofun
  · split
    · exact nofun
    · split <;> exact nofun

/-- CHECK, FETCH and VALIDATE look at the stream, the cursor and the parameters alone (R162). -/
theorem fetchInstruction_withForeign (s : State) (f : Foreign) :
    fetchInstruction (s.withForeign f) = fetchInstruction s := rfl

theorem blockStep_isolated (h : s.accessEnable = false) (hw : s.logicalLength ≤ s.streamMax) :
    Isolated blockStep s := by
  by_cases hr : s.runState = .running
  · have running (f : Foreign) : (s.withForeign f).runState = .running := hr
    cases hf : fetchInstruction s with
    | outside => exact absurd hf (fetchInstruction_ne_outside hw)
    | finished =>
      refine .silent (finishRun s) fun f => ?_
      simp only [blockStep, running, fetchInstruction_withForeign, hf]
      rfl
    | fatal code info =>
      simpa only [Isolated, blockStep, running, fetchInstruction_withForeign, hf] using raiseFatal_isolated code info s
    | instruction i =>
      simpa only [Isolated, blockStep, running, fetchInstruction_withForeign, hf] using exec_isolated h i
  · exact .silent s fun f => blockStep_of_not_running (s := s.withForeign f) hr

end

/-- Settles O33: the block's step is isolated in a dry run, with the given foreign system and with any other. -/
theorem dryRunNeverTouchesTheForeignSystem : Obligations.DryRunNeverTouchesTheForeignSystem := by
  intro s h hh hw
  obtain ⟨t, new, reports, ht⟩ := blockStep_isolated h hw
  have alike (f : Foreign) : step (s.withForeign f) = .next (t.withForeign (f.after new)) :=
    (step_of_no_event (s := s.withForeign f) hh).trans (ht f)
  exact ⟨t, new, reports, alike s.foreign, alike⟩

end Sys2Proof.Machine

/-! ## The foreign-memory port (R62, R63, R66, R69) -/

namespace Sys2Proof.Machine

section

variable {order : ByteOrder} {sz : ValueSize} {a v w b : Word} {s : State}

/-! ### One read -/

theorem memRead_holdsValue (h : s.accessEnable = true) (ho : s.foreign.collaborator = .reference order) :
    HoldsValue order sz s a (memRead sz a s).1 := by
  rw [memRead_reference sz a h ho]
  exact readSized_holds s.foreign.mem order sz a

theorem answerRead_answer {vs : List Word} (ho : s.foreign.collaborator = .arbitrary)
    (ha : s.foreign.readAnswers = v :: vs) :
    s.foreign.answerRead sz a = (truncate sz v, { s.foreign with readAnswers := vs }) := by
  simp only [Foreign.answerRead, ho, ha]

theorem answerRead_free (ho : s.foreign.collaborator = .arbitrary) (ha : s.foreign.readAnswers = []) :
    s.foreign.answerRead sz a =
      (truncate sz (Config.foreignRead s.foreign.draws), { s.foreign with draws := s.foreign.draws + 1 }) := by
  simp only [Foreign.answerRead, ho, ha]

/-! ### The bytes determine the value -/

theorem orderedByte_be_eq_le {k : Nat} (hk : k < sz.bytes) (v : Word) :
    orderedByte .be sz v (sz.bytes - 1 - k) = orderedByte .le sz v k := by
  have e : sz.bytes - 1 - (sz.bytes - 1 - k) = k := by omega
  simp only [orderedByte, e]

/-- Two words whose lower bytes are equal agree in these bytes as numbers. -/
theorem toNat_mod_of_bytes {n : Nat} (h : ∀ k < n, w.extractLsb' (8 * k) 8 = v.extractLsb' (8 * k) 8) :
    w.toNat % 2 ^ (8 * n) = v.toNat % 2 ^ (8 * n) := by
  apply Nat.eq_of_testBit_eq
  intro i
  rw [Nat.testBit_mod_two_pow, Nat.testBit_mod_two_pow]
  by_cases hi : i < 8 * n
  · have bit := congrArg (·.getLsbD (i % 8)) (h (i / 8) (by omega))
    have in_byte : i % 8 < 8 := Nat.mod_lt _ (by decide)
    simp only [BitVec.getLsbD_extractLsb', in_byte, decide_true, Bool.true_and, Nat.div_add_mod] at bit
    rw [BitVec.testBit_toNat, BitVec.testBit_toNat, bit]
  · simp [hi]

/-- A value that fits its size and has the bytes of `v` in memory is `v` cut to the size (R63, R104). -/
theorem toNat_eq_sized (hw : w.toNat < 2 ^ (8 * sz.bytes))
    (h : ∀ k < sz.bytes, orderedByte order sz w k = orderedByte order sz v k) : w.toNat = sized sz v := by
  have bytes (k : Nat) (hk : k < sz.bytes) : w.extractLsb' (8 * k) 8 = v.extractLsb' (8 * k) 8 := by
    cases order with
    | le => exact h k hk
    | be =>
      have hk' := h (sz.bytes - 1 - k) (by omega)
      rwa [orderedByte_be_eq_le hk, orderedByte_be_eq_le hk] at hk'
  exact (Nat.mod_eq_of_lt hw).symm.trans (toNat_mod_of_bytes bytes)

/-! ### A series of accesses -/

theorem performAll_outside {xs : List PortAccess} (h : s.accessEnable = true) (hb : ∀ x ∈ xs, ¬ x.Writes b) :
    (performAll xs s).foreignByte b = s.foreignByte b := by
  induction xs generalizing s with
  | nil => rfl
  | cons x xs ih =>
    obtain ⟨hx, hxs⟩ := List.forall_mem_cons.1 hb
    exact (ih ((x.perform_accessEnable s).trans h) hxs).trans (PortAccess.perform_outside h hx)

/-- A byte is as the last write that covers it left it. -/
theorem performAll_lastWrite {before after : List PortAccess} (h : s.accessEnable = true)
    (ho : s.foreign.collaborator = .reference order) {k : Nat} (hk : k < sz.bytes)
    (ha : ∀ x ∈ after, ¬ x.Writes (offset a k)) :
    (performAll (before ++ .write sz a v :: after) s).foreignByte (offset a k) = orderedByte order sz v k := by
  have he : (performAll before s).accessEnable = true := (performAll_accessEnable before s).trans h
  have hc : (performAll before s).foreign.collaborator = .reference order :=
    (performAll_collaborator before s).trans ho
  rw [performAll_append]
  calc (performAll after (memWrite sz a v (performAll before s))).foreignByte (offset a k)
      = (memWrite sz a v (performAll before s)).foreignByte (offset a k) :=
        performAll_outside ((memWrite_accessEnable ..).trans he) ha
    _ = orderedByte order sz v k := (memWrite_storesValue sz a v he).1 order hc k hk

theorem performAll_read_holdsValue (xs : List PortAccess) (h : s.accessEnable = true)
    (ho : s.foreign.collaborator = .reference order) :
    HoldsValue order sz (performAll xs s) a (memRead sz a (performAll xs s)).1 :=
  memRead_holdsValue ((performAll_accessEnable xs s).trans h) ((performAll_collaborator xs s).trans ho)

end

/-- Settles O34: the value the reference memory holds is the one that is read and logged. -/
theorem referenceReadReturnsMemory : Obligations.ReferenceReadReturnsMemory := fun _ sz a _ h ho =>
  ⟨memRead_holdsValue h ho, by rw [memRead_reference sz a h ho]⟩

/-- Settles O35: each byte by its last write, and a value read by its bytes. -/
theorem readReturnsTheValueWritten : Obligations.ReadReturnsTheValueWritten := by
  intro order s h ho
  refine ⟨fun before after sz a v k hk ha => performAll_lastWrite h ho hk ha,
    fun xs b hb => performAll_outside h hb,
    fun xs sz a => performAll_read_holdsValue xs h ho,
    fun before after sz a v ha => ?_⟩
  obtain ⟨hlt, bytes⟩ := performAll_read_holdsValue (sz := sz) (a := a) (before ++ .write sz a v :: after) h ho
  exact toNat_eq_sized hlt fun k hk =>
    (bytes k hk).symm.trans (performAll_lastWrite h ho hk fun x hx => ha x hx k hk)

/-- Settles O36: the answer comes from the list while it lasts, then from the free values. -/
theorem arbitraryReadReturnsTheNextAnswer : Obligations.ArbitraryReadReturnsTheNextAnswer := by
  intro sz a s h ho
  rw [memRead_enabled sz a h]
  refine ⟨fun v vs ha => ?_, fun ha => ?_⟩
  · rw [answerRead_answer ho ha]
    exact ⟨toNat_truncate sz v, rfl⟩
  · rw [answerRead_free ho ha]
    exact ⟨toNat_truncate sz _, rfl⟩

end Sys2Proof.Machine

/-! ## The line a SearchTemplate writes (R72, R310, R311) -/

namespace Sys2Proof.Machine

section

variable {m : OpcodeMap} {s : State} {found : Word} {i : Instr}

/-- The line of R310 decodes to the LoadPointerDirectly it is meant to be, whatever follows. -/
theorem decode_pointerLine (hm : m.legal) (found : Word) (rest : List Byte) :
    decode m (pointerLine m found ++ rest) = .ok (.ldptrd found) := by
  simp only [pointerLine, be32Bytes, List.cons_append, List.nil_append, decode, OpcodeMap.lookup_value hm,
    decodeOpcode, Line.operand, readU32_extract]

/-- What stands at the cursor, byte by byte, is the head of the remaining stream. -/
theorem remaining_of_line {line : List Byte} (hl : line ≠ []) (hr : line.length ≤ s.rem.toNat)
    (h : ∀ k < line.length, s.streamByte (s.pc.toNat + k) = line.getD k 0) :
    ∃ rest, s.remaining = line ++ rest := by
  have stands : MatchesAt line s 0 :=
    ⟨by omega, fun k hk => by rw [Nat.add_zero, h k hk, List.getD_eq_getElem _ _ hk]⟩
  obtain ⟨rest, e⟩ := (matchesAt_iff line s 0 hl).1 stands
  exact ⟨rest, e.symm⟩

/-- A running block in front of such a line loads the address it holds. -/
theorem step_of_pointerLine (hh : s.host = []) (hr : s.runState = .running) (hm : s.params.opc.legal)
    (hw : s.logicalLength ≤ s.streamMax) (h8 : s.rem.toNat % 8 = 0) (hrem : 8 ≤ s.rem.toNat)
    (h : ∀ k < 8, s.streamByte (s.pc.toNat + k) = (pointerLine s.params.opc found).getD k 0) :
    step s = .next (advance 8 (setLoadedPointer found s)) := by
  obtain ⟨rest, e⟩ := remaining_of_line (line := pointerLine s.params.opc found) (by simp [pointerLine]) hrem h
  have h0 : s.rem ≠ 0 := fun e0 => by simp [e0] at hrem
  rw [step_of_no_event hh, blockStep_of_decoded hr h0 h8 hw (e ▸ decode_pointerLine hm found rest)]
  rfl

end

/-- Settles O60: the search leaves its line at the cursor of a sound running state, and that line is decoded next. -/
theorem rewrittenLineRunsNext : Obligations.RewrittenLineRunsNext := by
  intro s x sh eh tm inv hh hr h8 h0 hd
  have fits : 8 + padded tm.length ≤ s.rem.toNat := by simpa [Instr.length] using (decode_fits hd).2
  obtain ⟨t, ht, hparams, hhost, hrun, -, hpc, hrem, hsum, -, -, -, line⟩ := execSearch_progress x sh eh tm fits
  have hs : step s = .next t := by
    rw [step_of_no_event hh, blockStep_of_decoded hr h0 h8 inv.window hd, ht]
  have tinv : t.Inv := stepKeepsTheInvariant s t inv hs
  have lines := padded_mod_eight tm.length
  rw [← hpc, ← hparams] at line
  have next := step_of_pointerLine (hhost.trans hh) (hrun.trans hr) tinv.opcodes tinv.window (by omega) (by omega) line
  refine ⟨_, t, hs, hpc, hrem, rfl, hparams ▸ line, ?_, fun h => by rw [searchTemplate_disabled h]⟩
  rw [next, ← hpc]
  rfl

end Sys2Proof.Machine

/-! ## What decoding does after the opcode is known (R102, R138, R166, R168) -/

namespace Sys2Proof

section

variable {op : Opcode} {l : Line} {rest : List Byte} {n : Nat}

/-! ### Functions of the bytes after the first line that read only the first of them -/

section

variable {α β : Type}

/-- What `f` makes of enough bytes is settled by the first `n` of them. -/
def ReadsFirst (n : Nat) (f : List Byte → α) : Prop := ∀ bs, n ≤ bs.length → f (bs.take n) = f bs

theorem ReadsFirst.const (a : α) : ReadsFirst n fun _ => a := fun _ _ => rfl

theorem ReadsFirst.app {f : List Byte → β → α} {g : List Byte → β} (hf : ReadsFirst n f) (hg : ReadsFirst n g) :
    ReadsFirst n fun bs => f bs (g bs) := fun bs h => by
  simp only [hf bs h, hg bs h]

/-- Bytes that agree on the first `n` are the same to `f`. -/
theorem ReadsFirst.take_append {f : List Byte → α} (h : ReadsFirst n f) (hn : n ≤ rest.length)
    (tail : List Byte) : f (rest.take n ++ tail) = f rest := by
  have hl : (rest.take n).length = n := List.length_take_of_le hn
  rw [← h (rest.take n ++ tail) (by rw [List.length_append]; omega), List.take_left' hl, h rest hn]

theorem wordAt_readsFirst {k : Nat} (h : k + 4 ≤ n) : ReadsFirst n fun bs => wordAt bs k := fun bs _ => by
  have byte : ∀ j < n, (bs.take n).getD j 0 = bs.getD j 0 := fun j hj => by
    rw [List.getD_eq_getElem?_getD, List.getElem?_take_of_lt hj, List.getD_eq_getElem?_getD]
  simp only [wordAt]
  rw [byte k (by omega), byte (k + 1) (by omega), byte (k + 2) (by omega), byte (k + 3) (by omega)]

theorem twoWords_readsFirst (h : 8 ≤ n) (mk : Word → Word → α) :
    ReadsFirst n fun bs => mk (wordAt bs 0) (wordAt bs 4) :=
  ((ReadsFirst.const mk).app (wordAt_readsFirst (by omega))).app (wordAt_readsFirst (by omega))

theorem threeWords_readsFirst (h : 12 ≤ n) (mk : Word → Word → Word → α) :
    ReadsFirst n fun bs => mk (wordAt bs 0) (wordAt bs 4) (wordAt bs 8) :=
  (((ReadsFirst.const mk).app (wordAt_readsFirst (by omega))).app (wordAt_readsFirst (by omega))).app
    (wordAt_readsFirst (by omega))

theorem take_readsFirst {k : Nat} (h : k ≤ n) : ReadsFirst n fun bs : List Byte => bs.take k := fun bs _ => by
  simp only [List.take_take, Nat.min_eq_left h]

theorem takeWords_readsFirst {k : Nat} (h : 4 * k ≤ n) : ReadsFirst n (takeWords k) := by
  intro bs hn
  induction k generalizing n bs with
  | zero => simp [takeWords]
  | succ k ih =>
    obtain ⟨n, rfl⟩ := Nat.exists_eq_add_of_le' (show 4 ≤ n by omega)
    match bs, hn with
    | b0 :: b1 :: b2 :: b3 :: bs, hn =>
      simp only [List.take_succ_cons, takeWords]
      rw [ih (by omega) bs (by simpa using hn)]

end

/-! ### The stages of R168 -/

/-- The errors that the fields of a known opcode can raise: all but the unknown opcode. -/
def FieldError (e : DecodeError) : Prop := ∀ b, e ≠ .unknownOpcode b

/-- The order of R168 after the opcode: an error of the first line, whatever follows it; or the length check, and then an
instruction of that length, formed from its own bytes alone. -/
inductive Staged (op : Opcode) (l : Line) (dec : List Byte → Except DecodeError Instr) : Prop
  | rejected {e : DecodeError} (he : FieldError e) (h : ∀ rest, dec rest = .error e)
  | checked {f : List Byte → Instr} (hf : ReadsFirst (lengthOf op l - 8) f)
      (hl : ∀ rest, lengthOf op l ≤ 8 + rest.length → (f rest).length = lengthOf op l)
      (h : ∀ rest, dec rest = checkLength op l rest >>= fun _ => pure (f rest))

/-- A check of the first line comes before whatever is staged after it. -/
theorem Staged.bind {α : Type} {x : Except DecodeError α} {dec : α → List Byte → Except DecodeError Instr}
    (hx : ∀ e, x = .error e → FieldError e) (h : ∀ a, Staged op l (dec a)) :
    Staged op l fun rest => x >>= fun a => dec a rest := by
  cases x with
  | error e => exact .rejected (hx e rfl) fun _ => rfl
  | ok a => exact h a

/-- An instruction of one line, which needs no length check. -/
theorem Staged.line {i : Instr} (hop : lengthOf op l = 8) (hi : i.length = 8) : Staged op l fun _ => .ok i :=
  .checked (.const i) (fun _ _ => hi.trans hop.symm) fun rest => by
    rw [checkLength_ok (by omega)]
    rfl

theorem decodePointerMode_fieldError {b : Byte} (e : DecodeError) (h : decodePointerMode b = .error e) :
    FieldError e := by
  unfold decodePointerMode at h
  split at h <;> cases h
  exact fun _ => nofun

theorem decodeValueSize_fieldError {b : Byte} (e : DecodeError) (h : decodeValueSize b = .error e) :
    FieldError e := by
  unfold decodeValueSize at h
  split at h <;> cases h
  exact fun _ => nofun

theorem decodeRegister_fieldError {b : Byte} (e : DecodeError) (h : decodeRegister b = .error e) :
    FieldError e := by
  unfold decodeRegister at h
  split at h <;> cases h
  exact fun _ => nofun

theorem decodeOperand_staged {mk : PointerMode → ValueSize → Word → Word → Word → Instr} (hop : lengthOf op l = 16)
    (hmk : ∀ p sz a v w, (mk p sz a v w).length = 16) : Staged op l fun rest => decodeOperand op l rest mk :=
  .bind decodePointerMode_fieldError fun p => .bind decodeValueSize_fieldError fun sz =>
    .checked (twoWords_readsFirst (by omega) (mk p sz l.operand)) (fun _ _ => (hmk ..).trans hop.symm) fun _ => rfl

theorem decodeFixedOperand_staged {mk : PointerMode → Word → Word → Word → Instr} (hop : lengthOf op l = 16)
    (hmk : ∀ p a v w, (mk p a v w).length = 16) : Staged op l fun rest => decodeFixedOperand op l rest mk :=
  .bind decodePointerMode_fieldError fun p =>
    .checked (twoWords_readsFirst (by omega) (mk p l.operand)) (fun _ _ => (hmk ..).trans hop.symm) fun _ => rfl

theorem decodeIntegerTransfer_staged {mk : PointerMode → ValueSize → Reg → Word → Instr} (hop : lengthOf op l = 8)
    (hmk : ∀ p sz r a, (mk p sz r a).length = 8) : Staged op l fun _ => decodeIntegerTransfer l mk :=
  .bind decodePointerMode_fieldError fun _ => .bind decodeValueSize_fieldError fun _ =>
    .bind decodeRegister_fieldError fun _ => .line hop (hmk ..)

theorem decodeFloatTransfer_staged {mk : PointerMode → Reg → Word → Instr} (hop : lengthOf op l = 8)
    (hmk : ∀ p r a, (mk p r a).length = 8) : Staged op l fun _ => decodeFloatTransfer l mk :=
  .bind decodePointerMode_fieldError fun _ => .bind decodeRegister_fieldError fun _ => .line hop (hmk ..)

theorem decodeRegisterForm_staged {mk : Reg → Reg → Instr} (hop : lengthOf op l = 8)
    (hmk : ∀ d r, (mk d r).length = 8) : Staged op l fun _ => decodeRegisterForm l mk :=
  .bind decodeRegister_fieldError fun _ => .bind decodeRegister_fieldError fun _ => .line hop (hmk ..)

theorem decodeDirectForm_staged {mk : Reg → Word → Instr} (hop : lengthOf op l = 8)
    (hmk : ∀ d v, (mk d v).length = 8) : Staged op l fun _ => decodeDirectForm l mk :=
  .bind decodeRegister_fieldError fun _ => .line hop (hmk ..)

theorem decodeIntegerOperation_staged : Staged .integerOperation l fun _ => decodeIntegerOperation l := by
  unfold decodeIntegerOperation
  split
  iterate 4 exact decodeRegisterForm_staged rfl fun _ _ => rfl
  iterate 4 exact decodeDirectForm_staged rfl fun _ _ => rfl
  exact .rejected (e := .badSubopcode l.b1) (fun _ => nofun) fun _ => rfl

theorem decodeFloatOperation_staged : Staged .floatOperation l fun _ => decodeFloatOperation l := by
  unfold decodeFloatOperation
  split
  iterate 4 exact decodeRegisterForm_staged rfl fun _ _ => rfl
  iterate 4 exact decodeDirectForm_staged rfl fun _ _ => rfl
  · exact decodeRegisterForm_staged rfl fun _ _ => rfl
  · exact .rejected (e := .badSubopcode l.b1) (fun _ => nofun) fun _ => rfl

theorem decodeCall_staged : Staged .call l (decodeCall l) := by
  refine .bind decodeRegister_fieldError fun rlo => .bind decodeRegister_fieldError fun rhi => ?_
  split
  · exact .rejected (e := .argcountRange l.b3) (fun _ => nofun) fun _ => rfl
  · have room : 4 * l.b3.toNat ≤ lengthOf .call l - 8 := by simp only [lengthOf, argBytes]; omega
    refine .checked ((ReadsFirst.const (Instr.call rlo rhi l.operand)).app (takeWords_readsFirst room))
      (fun rest h => ?_) fun _ => rfl
    simp only [Instr.length, length_takeWords (show 4 * l.b3.toNat ≤ rest.length by omega), lengthOf]

theorem decodeOpcode_staged (op : Opcode) (l : Line) : Staged op l (decodeOpcode op l) := by
  change Staged op l fun rest => decodeOpcode op l rest
  cases op <;> simp only [decodeOpcode]
  case ramwrite | ifeq | ifne | ifgt | iflt | ifge | ifle | ifand | ifor | ifbetween =>
    exact decodeOperand_staged rfl fun _ _ _ _ _ => rfl
  case fill | ldptr => exact decodeFixedOperand_staged rfl fun _ _ _ _ => rfl
  case ldi | sti => exact decodeIntegerTransfer_staged rfl fun _ _ _ _ => rfl
  case ldf | stf => exact decodeFloatTransfer_staged rfl fun _ _ _ => rfl
  case integerOperation => exact decodeIntegerOperation_staged
  case floatOperation => exact decodeFloatOperation_staged
  case call => exact decodeCall_staged
  case timedep | resettimer | addptr | ldptrd | syscall | term | nop | timerterm => exact .line rfl rfl
  case skipwrite =>
    have room : 12 ≤ lengthOf .skipwrite l - 8 := show 12 ≤ 24 - 8 by decide
    exact .bind decodePointerMode_fieldError fun p => .bind decodeValueSize_fieldError fun sz =>
      .checked (threeWords_readsFirst room (.skipwrite p sz l.aux l.operand)) (fun _ _ => rfl) fun _ => rfl
  case corrupt =>
    have room : 12 ≤ lengthOf .corrupt l - 8 := show 12 ≤ 24 - 8 by decide
    exact .checked (threeWords_readsFirst room (.corrupt l.operand)) (fun _ _ => rfl) fun _ => rfl
  case strwrite =>
    have room : l.aux.toNat ≤ lengthOf .strwrite l - 8 := by
      simpa only [lengthOf, Nat.add_sub_cancel_left] using le_padded _
    exact .bind decodePointerMode_fieldError fun p =>
      .checked ((ReadsFirst.const (Instr.strwrite p l.operand)).app (take_readsFirst room))
        (fun rest h => by simp only [Instr.length, length_take_of_padded h, lengthOf]) fun _ => rfl
  case search =>
    have room : l.b3.toNat ≤ lengthOf .search l - 8 := by
      simpa only [lengthOf, Nat.add_sub_cancel_left] using le_padded _
    exact .checked ((ReadsFirst.const (Instr.search _ _ _)).app (take_readsFirst room))
      (fun rest h => by simp only [Instr.length, length_take_of_padded h, lengthOf]) fun _ => rfl
  case execasm =>
    have room : lengthOf .execasm l - 8 = 8 * l.aux.toNat := Nat.add_sub_cancel_left ..
    refine .checked ((ReadsFirst.const Instr.execasm).app (take_readsFirst room.ge)) (fun rest h => ?_) fun _ => rfl
    have hn : (rest.take (8 * l.aux.toNat)).length = 8 * l.aux.toNat := List.length_take_of_le (by omega)
    simp only [Instr.length, hn, lengthOf]

/-! ### What the stages imply -/

/-- An accepted instruction is as long as its first line says, and its own bytes decide. -/
theorem decodeOpcode_of_ok {i : Instr} (h : decodeOpcode op l rest = .ok i) :
    i.length = lengthOf op l ∧
    (∀ tail, decodeOpcode op l (rest.take (i.length - 8) ++ tail) = .ok i) ∧
    ∀ cut : List Byte, 8 + cut.length < i.length → decodeOpcode op l cut = .error (.truncated i.length) := by
  cases decodeOpcode_staged op l with
  | rejected _ hd => exact nomatch (hd rest).symm.trans h
  | checked hf hl hd =>
    rw [hd, except_bind_eq_ok] at h
    obtain ⟨_, hc, ⟨⟩⟩ := h
    have room := checkLength_eq_ok.1 hc
    rw [hl rest room]
    refine ⟨rfl, fun tail => ?_, fun cut hcut => ?_⟩
    · rw [hd, checkLength_ok (by rw [List.length_append, List.length_take]; omega), hf.take_append (by omega)]
      rfl
    · rw [hd, checkLength_truncated hcut]
      rfl

theorem decodeOpcode_ne_unknownOpcode (b : Byte) : decodeOpcode op l rest ≠ .error (.unknownOpcode b) := by
  intro h
  cases decodeOpcode_staged op l with
  | rejected he hd => exact he b (Except.error.inj ((hd rest).symm.trans h))
  | checked _ _ hd =>
    rw [hd] at h
    unfold checkLength at h
    split at h <;> cases h

theorem le_lengthOf (op : Opcode) (l : Line) : 8 ≤ lengthOf op l := by
  cases op <;> simp [lengthOf]

variable {m : OpcodeMap} {bs : List Byte} {i : Instr}

/-- The bytes of a first line, in stream order (R90). -/
def Line.bytes (l : Line) : List Byte := [l.b0, l.b1, l.b2, l.b3, l.b4, l.b5, l.b6, l.b7]

theorem decode_of_lookup (h : m.lookup l.b0 = some op) (rest : List Byte) :
    decode m (l.bytes ++ rest) = decodeOpcode op l rest := by
  simp only [Line.bytes, List.cons_append, List.nil_append, decode, h]

/-- What the decoder accepts is a first line with a known opcode, and what its fields and the bytes after it say. -/
theorem decode_eq_ok (h : decode m bs = .ok i) :
    ∃ op l rest, bs = l.bytes ++ rest ∧ m.lookup l.b0 = some op ∧ decodeOpcode op l rest = .ok i := by
  unfold decode at h
  split at h
  · split at h
    · exact nomatch h
    · next op hop => exact ⟨op, ⟨_, _, _, _, _, _, _, _⟩, _, rfl, hop, h⟩
  · exact nomatch h

theorem take_line {k : Nat} (hk : 8 ≤ k) : (l.bytes ++ rest).take k = l.bytes ++ rest.take (k - 8) := by
  rw [List.take_append, List.take_of_length_le (by simpa [Line.bytes] using hk)]
  rfl

/-- An accepted instruction keeps its meaning under other bytes after it, and is truncated where its own are cut. -/
theorem decode_of_ok (h : decode m bs = .ok i) :
    (∀ tail, decode m (bs.take i.length ++ tail) = .ok i) ∧
    ∀ k, 8 ≤ k → k < i.length → decode m (bs.take k) = .error (.truncated i.length) := by
  obtain ⟨op, l, rest, rfl, hop, hd⟩ := decode_eq_ok h
  obtain ⟨hlen, own, short⟩ := decodeOpcode_of_ok hd
  have line : 8 ≤ i.length := hlen ▸ le_lengthOf op l
  refine ⟨fun tail => ?_, fun k hk hki => ?_⟩
  · rw [take_line line, List.append_assoc, decode_of_lookup hop, own]
  · rw [take_line hk, decode_of_lookup hop, short _ (by rw [List.length_take]; omega)]

end

/-- Settles O3: after the first line the decoder reads as many bytes as that line says. -/
theorem decodingReadsOnlyItsOwnBytes : Obligations.DecodingReadsOnlyItsOwnBytes := fun _ _ _ h => (decode_of_ok h).1

/-- Settles O8: a known opcode is looked up, and none of its fields raises this error. -/
theorem unknownOpcodeIsRejected : Obligations.UnknownOpcodeIsRejected := by
  intro m b0 b1 b2 b3 b4 b5 b6 b7 rest
  rw [← OpcodeMap.lookup_eq_none]
  constructor
  · intro h
    simp only [List.cons_append, List.nil_append, decode, h]
  · intro h
    by_contra hn
    obtain ⟨op, hop⟩ := Option.ne_none_iff_exists'.1 hn
    have known := decode_of_lookup (l := ⟨b0, b1, b2, b3, b4, b5, b6, b7⟩) hop rest
    exact decodeOpcode_ne_unknownOpcode b0 (known.symm.trans h)

end Sys2Proof

/-! ## The formats of R98, ignored bytes and padding free (R95, R101) -/

namespace Sys2Proof

section

variable {m : OpcodeMap} {op : Opcode} {rest : List Byte}

/-! ### Fields, words and first lines as the encoder writes them -/

@[simp] theorem except_ok_bind {ε α β : Type} (a : α) (f : α → Except ε β) : ((Except.ok a : Except ε α) >>= f) = f a :=
  rfl

@[simp] theorem except_pure {ε α : Type} (a : α) : (pure a : Except ε α) = .ok a := rfl

@[simp] theorem be32Bytes_length (v : Word) : (be32Bytes v).length = 4 := rfl

@[simp] theorem wordAt_be32Bytes (v : Word) (bs : List Byte) : wordAt (be32Bytes v ++ bs) 0 = v := readU32_extract v

@[simp] theorem wordAt_be32Bytes_add (v : Word) (bs : List Byte) (k : Nat) :
    wordAt (be32Bytes v ++ bs) (k + 4) = wordAt bs k := rfl

/-- A first line with a 32-bit operand in its bytes 4 to 7 (R98, R140). -/
def Line.ofOperand (b0 b1 b2 b3 : Byte) (a : Word) : Line :=
  ⟨b0, b1, b2, b3, a.extractLsb' 24 8, a.extractLsb' 16 8, a.extractLsb' 8 8, a.extractLsb' 0 8⟩

section

variable (b0 b1 b2 b3 : Byte) (a : Word)

@[simp] theorem Line.ofOperand_b1 : (Line.ofOperand b0 b1 b2 b3 a).b1 = b1 := rfl

@[simp] theorem Line.ofOperand_b2 : (Line.ofOperand b0 b1 b2 b3 a).b2 = b2 := rfl

@[simp] theorem Line.ofOperand_b3 : (Line.ofOperand b0 b1 b2 b3 a).b3 = b3 := rfl

@[simp] theorem Line.ofOperand_operand : (Line.ofOperand b0 b1 b2 b3 a).operand = a := readU32_extract a

@[simp] theorem Line.ofOperand_aux (c : HalfWord) :
    (Line.ofOperand b0 b1 (c.extractLsb' 8 8) (c.extractLsb' 0 8) a).aux = c := readU16_extract c

end

theorem decode_line (hm : m.legal) (op : Opcode) (b1 b2 b3 b4 b5 b6 b7 : Byte) (rest : List Byte) :
    decode m (m.value op :: b1 :: b2 :: b3 :: b4 :: b5 :: b6 :: b7 :: rest)
      = decodeOpcode op ⟨m.value op, b1, b2, b3, b4, b5, b6, b7⟩ rest :=
  decode_of_lookup (l := ⟨m.value op, b1, b2, b3, b4, b5, b6, b7⟩) (OpcodeMap.lookup_value hm op) rest

theorem decode_operandLine (hm : m.legal) (op : Opcode) (b1 b2 b3 : Byte) (a : Word) (rest : List Byte) :
    decode m (m.value op :: b1 :: b2 :: b3 :: (be32Bytes a ++ rest))
      = decodeOpcode op (.ofOperand (m.value op) b1 b2 b3 a) rest :=
  decode_line hm op b1 b2 b3 _ _ _ _ rest

/-! ### Formats IMM, SYS, ARITH and REG -/

theorem decode_imm (hm : m.legal) {mk : Word → Instr} (hop : ∀ l rest, decodeOpcode op l rest = .ok (mk l.operand))
    (b1 b2 b3 : Byte) (v : Word) (rest : List Byte) :
    decode m ([m.value op, b1, b2, b3] ++ be32Bytes v ++ rest) = .ok (mk v) := by
  simp [decode_operandLine hm, hop]

theorem decode_syscall (hm : m.legal) (c : HalfWord) (b1 b4 b5 b6 b7 : Byte) (rest : List Byte) :
    decode m ([m.value .syscall, b1] ++ be16Bytes c ++ [b4, b5, b6, b7] ++ rest) = .ok (.syscall c) := by
  simp [be16Bytes, decode_line hm, decodeOpcode, Line.aux]

theorem decode_registerForm (hm : m.legal) {t : Byte} {mk : Reg → Reg → Instr}
    (hop : ∀ l rest, l.b1 = t → decodeOpcode op l rest = decodeRegisterForm l mk) (d r : Reg) (b4 b5 b6 b7 : Byte)
    (rest : List Byte) :
    decode m ([m.value op, t, regByte d, regByte r, b4, b5, b6, b7] ++ rest) = .ok (mk d r) := by
  simp [decode_line hm, hop, decodeRegisterForm]

theorem decode_directForm (hm : m.legal) {t : Byte} {mk : Reg → Word → Instr}
    (hop : ∀ l rest, l.b1 = t → decodeOpcode op l rest = decodeDirectForm l mk) (d : Reg) (b3 : Byte) (v : Word)
    (rest : List Byte) :
    decode m ([m.value op, t, regByte d, b3] ++ be32Bytes v ++ rest) = .ok (mk d v) := by
  simp [decode_operandLine hm, hop (.ofOperand _ t _ b3 v) rest rfl, decodeDirectForm]

theorem decode_integerTransfer (hm : m.legal) {mk : PointerMode → ValueSize → Reg → Word → Instr}
    (hop : ∀ l rest, decodeOpcode op l rest = decodeIntegerTransfer l mk) (p : PointerMode) (sz : ValueSize) (b2 : Byte)
    (r : Reg) (a : Word) (rest : List Byte) :
    decode m ([m.value op, p.nibble ++ sz.nibble, b2, regByte r] ++ be32Bytes a ++ rest) = .ok (mk p sz r a) := by
  simp [decode_operandLine hm, hop, decodeIntegerTransfer]

theorem decode_floatTransfer (hm : m.legal) {mk : PointerMode → Reg → Word → Instr}
    (hop : ∀ l rest, decodeOpcode op l rest = decodeFloatTransfer l mk) (p : PointerMode) (n : BitVec 4) (b2 : Byte)
    (r : Reg) (a : Word) (rest : List Byte) :
    decode m ([m.value op, p.nibble ++ n, b2, regByte r] ++ be32Bytes a ++ rest) = .ok (mk p r a) := by
  simp [decode_operandLine hm, hop, decodeFloatTransfer]

/-! ### Formats OPD, SKIP and COR -/

theorem decode_operand (hm : m.legal) {mk : PointerMode → ValueSize → Word → Word → Word → Instr}
    (hop : ∀ l rest, decodeOpcode op l rest = decodeOperand op l rest mk) (hl : ∀ l, lengthOf op l = 16)
    (p : PointerMode) (sz : ValueSize) (b2 b3 : Byte) (a v w : Word) (rest : List Byte) :
    decode m ([m.value op, p.nibble ++ sz.nibble, b2, b3] ++ be32Bytes a ++ be32Bytes v ++ be32Bytes w ++ rest)
      = .ok (mk p sz a v w) := by
  have room : ∀ l, checkLength op l (be32Bytes v ++ (be32Bytes w ++ rest)) = .ok () := fun l =>
    checkLength_ok (by simp [hl]; omega)
  simp [decode_operandLine hm, hop, decodeOperand, room]

/-- Format OPD where `W` is ignored. -/
theorem decode_valueOperand (hm : m.legal) {mk : PointerMode → ValueSize → Word → Word → Instr}
    (hop : ∀ l rest, decodeOpcode op l rest = decodeOperand op l rest fun p sz a v _ => mk p sz a v)
    (hl : ∀ l, lengthOf op l = 16) (p : PointerMode) (sz : ValueSize) (b2 b3 : Byte) (a v w : Word) (rest : List Byte) :
    decode m ([m.value op, p.nibble ++ sz.nibble, b2, b3] ++ be32Bytes a ++ be32Bytes v ++ be32Bytes w ++ rest)
      = .ok (mk p sz a v) :=
  decode_operand hm hop hl p sz b2 b3 a v w rest

theorem decode_fixedOperand (hm : m.legal) {mk : PointerMode → Word → Word → Word → Instr}
    (hop : ∀ l rest, decodeOpcode op l rest = decodeFixedOperand op l rest mk) (hl : ∀ l, lengthOf op l = 16)
    (p : PointerMode) (n : BitVec 4) (b2 b3 : Byte) (a v w : Word) (rest : List Byte) :
    decode m ([m.value op, p.nibble ++ n, b2, b3] ++ be32Bytes a ++ be32Bytes v ++ be32Bytes w ++ rest)
      = .ok (mk p a v w) := by
  have room : ∀ l, checkLength op l (be32Bytes v ++ (be32Bytes w ++ rest)) = .ok () := fun l =>
    checkLength_ok (by simp [hl]; omega)
  simp [decode_operandLine hm, hop, decodeFixedOperand, room]

theorem decode_skipwrite (hm : m.legal) (p : PointerMode) (sz : ValueSize) (c : HalfWord) (a v st inc z : Word)
    (rest : List Byte) :
    decode m ([m.value .skipwrite, p.nibble ++ sz.nibble] ++ be16Bytes c ++ be32Bytes a ++ be32Bytes v ++ be32Bytes st
      ++ be32Bytes inc ++ be32Bytes z ++ rest) = .ok (.skipwrite p sz c a v st inc) := by
  have room : ∀ l, checkLength .skipwrite l
      (be32Bytes v ++ (be32Bytes st ++ (be32Bytes inc ++ (be32Bytes z ++ rest)))) = .ok () := fun l =>
    checkLength_ok (by simp [lengthOf]; omega)
  simp [be16Bytes, decode_operandLine hm, decodeOpcode, room]

theorem decode_corrupt (hm : m.legal) (b1 b2 b3 : Byte) (first limit find repl z : Word) (rest : List Byte) :
    decode m ([m.value .corrupt, b1, b2, b3] ++ be32Bytes first ++ be32Bytes limit ++ be32Bytes find ++ be32Bytes repl
      ++ be32Bytes z ++ rest) = .ok (.corrupt first limit find repl) := by
  have room : ∀ l, checkLength .corrupt l
      (be32Bytes limit ++ (be32Bytes find ++ (be32Bytes repl ++ (be32Bytes z ++ rest)))) = .ok () := fun l =>
    checkLength_ok (by simp [lengthOf]; omega)
  simp [decode_operandLine hm, decodeOpcode, room]

/-! ### Formats STR, ASM, SRCH and CALL -/

theorem decode_strwrite (hm : m.legal) (p : PointerMode) (n : BitVec 4) (a : Word) {data pad : List Byte}
    (hd : data.length < 65536) (hpad : pad.length = padded data.length - data.length) (rest : List Byte) :
    decode m ([m.value .strwrite, p.nibble ++ n] ++ be16Bytes (BitVec.ofNat 16 data.length) ++ be32Bytes a ++ data
      ++ pad ++ rest) = .ok (.strwrite p a data) := by
  have count : (BitVec.ofNat 16 data.length).toNat = data.length := Nat.mod_eq_of_lt hd
  have room : ∀ l : Line, l.aux = BitVec.ofNat 16 data.length →
      checkLength .strwrite l (data ++ (pad ++ rest)) = .ok () := fun l hl =>
    checkLength_ok (by simp [lengthOf, hl, count]; omega)
  simp [be16Bytes, decode_operandLine hm, decodeOpcode, room, count]

theorem decode_execasm (hm : m.legal) (b1 b4 b5 b6 b7 : Byte) {lines : Nat} (hn : lines < 65536) {data : List Byte}
    (hd : data.length = 8 * lines) (rest : List Byte) :
    decode m ([m.value .execasm, b1] ++ be16Bytes (BitVec.ofNat 16 lines) ++ [b4, b5, b6, b7] ++ data ++ rest)
      = .ok (.execasm data) := by
  have count : (BitVec.ofNat 16 lines).toNat = lines := Nat.mod_eq_of_lt hn
  have room : ∀ l : Line, l.aux = BitVec.ofNat 16 lines → checkLength .execasm l (data ++ rest) = .ok () := fun l hl =>
    checkLength_ok (by simp [lengthOf, hl, count]; omega)
  simp [be16Bytes, decode_line hm, decodeOpcode, Line.aux, room, count, ← hd]

theorem decode_search (hm : m.legal) (idx sh eh : HalfWord) {data pad : List Byte} (hd : data.length < 256)
    (hpad : pad.length = padded data.length - data.length) (rest : List Byte) :
    decode m ([m.value .search] ++ be16Bytes idx ++ [BitVec.ofNat 8 data.length] ++ be16Bytes sh ++ be16Bytes eh
      ++ data ++ pad ++ rest) = .ok (.search idx sh eh data) := by
  have count : (BitVec.ofNat 8 data.length).toNat = data.length := Nat.mod_eq_of_lt hd
  have room : ∀ l : Line, l.b3 = BitVec.ofNat 8 data.length →
      checkLength .search l (data ++ (pad ++ rest)) = .ok () := fun l hl =>
    checkLength_ok (by simp [lengthOf, hl, count]; omega)
  simp [be16Bytes, decode_line hm, decodeOpcode, room, count]

theorem decode_call (hm : m.legal) (rlo rhi : Reg) (a : Word) {args : List Word} (hargs : args.length ≤ 8)
    {pad : List Byte} (hpad : pad.length = 4 * (args.length % 2)) (rest : List Byte) :
    decode m ([m.value .call, regByte rlo, regByte rhi, BitVec.ofNat 8 args.length] ++ be32Bytes a
      ++ args.flatMap be32Bytes ++ pad ++ rest) = .ok (.call rlo rhi a args) := by
  have count : (BitVec.ofNat 8 args.length).toNat = args.length := Nat.mod_eq_of_lt (by omega)
  have room : ∀ b0 b1 b2, checkLength .call (.ofOperand b0 b1 b2 (BitVec.ofNat 8 args.length) a)
      (args.flatMap be32Bytes ++ (pad ++ rest)) = .ok () := fun _ _ _ =>
    checkLength_ok (by simp [lengthOf, argBytes, count]; omega)
  simp [decode_operandLine hm, decodeOpcode, decodeCall, room, count, takeWords_flatMap, Nat.not_lt.2 hargs]

end

end Sys2Proof

/-! ## The decoder and the encoder: the statements (R93 to R102, R141, R146, R165 to R168) -/

namespace Sys2Proof

/-- Settles O1: every encoding is one of the formats with its ignored bytes and its padding zero. -/
theorem decodeInvertsEncode : Obligations.DecodeInvertsEncode := by
  intro m hm i hw tail
  cases i
  case ramwrite p sz a v | ifeq p sz a v | ifne p sz a v | ifgt p sz a v | iflt p sz a v | ifge p sz a v |
      ifle p sz a v | ifand p sz a v | ifor p sz a v =>
    exact decode_valueOperand hm (fun _ _ => rfl) (fun _ => rfl) p sz 0 0 a v 0 tail
  case ifbetween p sz a lo hi => exact decode_operand hm (fun _ _ => rfl) (fun _ => rfl) p sz 0 0 a lo hi tail
  case fill p a v w | ldptr p a v w => exact decode_fixedOperand hm (fun _ _ => rfl) (fun _ => rfl) p 0 0 0 a v w tail
  case skipwrite p sz c a v st inc => exact decode_skipwrite hm p sz c a v st inc 0 tail
  case corrupt a b f r => exact decode_corrupt hm 0 0 0 a b f r 0 tail
  case strwrite p a data =>
    exact decode_strwrite hm p 0 a (by simpa [Instr.wellFormed] using hw) (linePadding_length _) tail
  case search idx sh eh data =>
    exact decode_search hm idx sh eh (by simpa [Instr.wellFormed] using hw) (linePadding_length _) tail
  case execasm data =>
    simp only [Instr.wellFormed, Bool.and_eq_true, beq_iff_eq, decide_eq_true_eq] at hw
    exact decode_execasm hm 0 0 0 0 0 (by omega) (by omega) tail
  case call rlo rhi a args =>
    exact decode_call hm rlo rhi a (by simpa [Instr.wellFormed] using hw)
      (by rw [List.length_replicate, argBytes]; omega) tail
  case ldi p sz r a | sti p sz r a => exact decode_integerTransfer hm (fun _ _ => rfl) p sz 0 r a tail
  case ldf p r a | stf p r a => exact decode_floatTransfer hm (fun _ _ => rfl) p 0 0 r a tail
  case iadd d r | isub d r | imul d r | idiv d r | fadd d r | fsub d r | fmul d r | fdiv d r | f2i d r =>
    exact decode_registerForm hm (by rintro ⟨⟩ _ ⟨⟩; rfl) d r 0 0 0 0 tail
  case iaddi d v | isubi d v | imuli d v | idivi d v | faddi d v | fsubi d v | fmuli d v | fdivi d v =>
    exact decode_directForm hm (by rintro ⟨⟩ _ ⟨⟩; rfl) d 0 v tail
  case timedep v | addptr v | ldptrd v => exact decode_imm hm (fun _ _ => rfl) 0 0 0 v tail
  case syscall c => exact decode_syscall hm c 0 0 0 0 0 tail
  case resettimer | term | nop | timerterm => exact decode_line hm _ _ _ _ _ _ _ _ tail

/-- Settles O6: the formats with a count field, whatever fills their padding. -/
theorem countedFormatsDecode : Obligations.CountedFormatsDecode := fun _ hm p n a _ _ rest x1 x4 x5 x6 x7 =>
  ⟨fun hd hpad => decode_strwrite hm p n a hd hpad rest,
    fun _ hn hd => decode_execasm hm x1 x4 x5 x6 x7 hn hd rest,
    fun idx sh eh hd hpad => decode_search hm idx sh eh hd hpad rest,
    fun rlo rhi _ hargs hpad => decode_call hm rlo rhi a hargs hpad rest⟩

/-- Settles O12: the whole encoding decodes, so that a cut of it fails the length check alone. -/
theorem truncatedInstructionIsRejected : Obligations.TruncatedInstructionIsRejected := by
  intro m hm i hw
  have whole : decode m (encode m i) = .ok i := by simpa using decodeInvertsEncode m hm i hw []
  exact (decode_of_ok whole).2

/-- Settles O4: every clause is an entry of one format, whose lemma leaves the ignored bytes free. -/
theorem oneLineFormatsDecode : Obligations.OneLineFormatsDecode := by
  intro m hm x1 x2 x3 x4 x5 x6 x7 rest
  simp only [List.forall_mem_cons, List.not_mem_nil, false_implies, implies_true, and_true]
  refine ⟨?marks, fun v => ?imm, fun c => decode_syscall hm c x1 x4 x5 x6 x7 rest, fun d r => ?integerRegister,
    fun d r => ?floatRegister, fun d v => ?integerDirect, fun d v => ?floatDirect, fun p sz r a => ?integerTransfer,
    fun p n r a => ?floatTransfer⟩
  case marks => and_intros <;> exact decode_line hm _ x1 x2 x3 x4 x5 x6 x7 rest
  case imm => and_intros <;> exact decode_imm hm (fun _ _ => rfl) x1 x2 x3 v rest
  case integerRegister | floatRegister =>
    and_intros <;> exact decode_registerForm hm (by rintro ⟨⟩ _ ⟨⟩; rfl) d r x4 x5 x6 x7 rest
  case integerDirect | floatDirect =>
    and_intros <;> exact decode_directForm hm (by rintro ⟨⟩ _ ⟨⟩; rfl) d x3 v rest
  case integerTransfer => and_intros <;> exact decode_integerTransfer hm (fun _ _ => rfl) p sz x2 r a rest
  case floatTransfer => and_intros <;> exact decode_floatTransfer hm (fun _ _ => rfl) p n x2 r a rest

/-- Settles O5: as for one line, the operand words standing in the bytes after the first line. -/
theorem operandFormatsDecode : Obligations.OperandFormatsDecode := by
  intro m hm p sz n a v w u z c x1 x2 x3 rest
  simp only [List.forall_mem_cons, List.not_mem_nil, false_implies, implies_true, and_true]
  refine ⟨?valueOperand, decode_operand hm (fun _ _ => rfl) (fun _ => rfl) p sz x2 x3 a v w rest, ?fixedOperand,
    decode_skipwrite hm p sz c a v w u z rest, decode_corrupt hm x1 x2 x3 a v w u z rest⟩
  case valueOperand =>
    and_intros <;> exact decode_valueOperand hm (fun _ _ => rfl) (fun _ => rfl) p sz x2 x3 a v w rest
  case fixedOperand =>
    and_intros <;> exact decode_fixedOperand hm (fun _ _ => rfl) (fun _ => rfl) p n x2 x3 a v w rest

/-- Settles O7 by evaluation: the words are closed and at most two lines long. -/
theorem sampleWordsDecode : Obligations.SampleWordsDecode := by
  unfold Obligations.SampleWordsDecode
  and_intros <;> decide

/-! ### Reserved pointer modes and value sizes (R93, R94, R168) -/

section

variable {b : Byte} {op : Opcode}

theorem toNat_hi4 (b : Byte) : (hi4 b).toNat = b.toNat / 16 := by
  simp only [hi4, BitVec.extractLsb'_toNat, Nat.shiftRight_eq_div_pow]
  omega

theorem toNat_lo4 (b : Byte) : (lo4 b).toNat = b.toNat % 16 := by
  simp only [lo4, BitVec.extractLsb'_toNat, Nat.shiftRight_zero]

theorem decodePointerMode_reserved (h : 2 ≤ b.toNat / 16) :
    decodePointerMode b = .error (.badPointerMode (BitVec.ofNat 4 (b.toNat / 16))) := by
  rw [← toNat_hi4] at h ⊢
  unfold decodePointerMode
  split
  · omega
  · omega
  · rw [BitVec.ofNat_toNat, BitVec.setWidth_eq]

theorem decodePointerMode_legal (h : b.toNat / 16 < 2) : ∃ p, decodePointerMode b = .ok p := by
  rw [← toNat_hi4] at h
  rcases (by omega : (hi4 b).toNat = 0 ∨ (hi4 b).toNat = 1) with e | e
  · exact ⟨.noPointer, by simp only [decodePointerMode, e]⟩
  · exact ⟨.pointer, by simp only [decodePointerMode, e]⟩

theorem decodeValueSize_reserved (h : 3 ≤ b.toNat % 16) :
    decodeValueSize b = .error (.badValueSize (BitVec.ofNat 4 (b.toNat % 16))) := by
  rw [← toNat_lo4] at h ⊢
  unfold decodeValueSize
  split
  · omega
  · omega
  · omega
  · rw [BitVec.ofNat_toNat, BitVec.setWidth_eq]

/-- The decoder looks at the pointer mode before anything else of the instruction. -/
def PointerModeFirst (op : Opcode) : Prop :=
  ∀ l rest, ∃ next, decodeOpcode op l rest = decodePointerMode l.b1 >>= next

/-- The decoder looks at the pointer mode, and then at the value size. -/
def ValueSizeSecond (op : Opcode) : Prop :=
  ∀ l rest, ∃ next : PointerMode → ValueSize → Except DecodeError Instr,
    decodeOpcode op l rest = decodePointerMode l.b1 >>= fun p => decodeValueSize l.b1 >>= next p

theorem decode_badPointerMode {m : OpcodeMap} (hm : m.legal) (hop : PointerModeFirst op) {b1 : Byte}
    (h : 2 ≤ b1.toNat / 16) (b2 b3 b4 b5 b6 b7 : Byte) (rest : List Byte) :
    decode m ([m.value op, b1, b2, b3, b4, b5, b6, b7] ++ rest)
      = .error (.badPointerMode (BitVec.ofNat 4 (b1.toNat / 16))) := by
  obtain ⟨next, hnext⟩ := hop ⟨m.value op, b1, b2, b3, b4, b5, b6, b7⟩ rest
  simp only [List.cons_append, List.nil_append, decode_line hm, hnext, decodePointerMode_reserved h]
  rfl

theorem decode_badValueSize {m : OpcodeMap} (hm : m.legal) (hop : ValueSizeSecond op) {b1 : Byte}
    (hp : b1.toNat / 16 < 2) (h : 3 ≤ b1.toNat % 16) (b2 b3 b4 b5 b6 b7 : Byte) (rest : List Byte) :
    decode m ([m.value op, b1, b2, b3, b4, b5, b6, b7] ++ rest)
      = .error (.badValueSize (BitVec.ofNat 4 (b1.toNat % 16))) := by
  obtain ⟨next, hnext⟩ := hop ⟨m.value op, b1, b2, b3, b4, b5, b6, b7⟩ rest
  obtain ⟨p, hp⟩ := decodePointerMode_legal hp
  simp only [List.cons_append, List.nil_append, decode_line hm, hnext, hp, decodeValueSize_reserved h]
  rfl

end

/-- Settles O9: in every format with the field the pointer mode comes first, and the value size next. -/
theorem pointerModeAndSizeErrors : Obligations.PointerModeAndSizeErrors := by
  intro m hm b1 b2 b3 b4 b5 b6 b7 rest
  refine ⟨fun op hop h => decode_badPointerMode hm ?_ h b2 b3 b4 b5 b6 b7 rest,
    fun op hop hp h => decode_badValueSize hm ?_ hp h b2 b3 b4 b5 b6 b7 rest⟩
  · fin_cases hop <;> exact fun _ _ => ⟨_, rfl⟩
  · fin_cases hop <;> exact fun _ _ => ⟨_, rfl⟩

end Sys2Proof

namespace Sys2Proof.Machine

/-- Settles O14: the sum of two words is taken modulo 2^32, and `truncate` keeps the low-order bytes. -/
theorem operandsAreFormed : Obligations.OperandsAreFormed :=
  ⟨fun _ _ => rfl, fun addr s => BitVec.toNat_add s.loadedPointer addr, toNat_truncate⟩

/-- Settles O18: the fetch answers the error's code and info, and the fatal transition records them. -/
theorem rejectedInstructionIsFatal : Obligations.RejectedInstructionIsFatal := by
  have byte : ∀ b : Byte, (b.setWidth 32).toNat = b.toNat := fun b => BitVec.toNat_setWidth_of_le (by decide)
  have nibble : ∀ n : BitVec 4, (n.setWidth 32).toNat = n.toNat := fun n => BitVec.toNat_setWidth_of_le (by decide)
  refine ⟨fun s e hh hr h0 h8 hw hd => ?_, fun n hn => ⟨rfl, Nat.mod_eq_of_lt hn⟩, fun b => ⟨rfl, byte b⟩,
    fun b => ⟨rfl, byte b⟩, fun b => ⟨rfl, byte b⟩, fun n => ⟨rfl, nibble n⟩, fun n => ⟨rfl, nibble n⟩,
    fun b => ⟨rfl, byte b⟩⟩
  rw [step_of_no_event hh, ← raiseFatal_eq]
  simp only [blockStep, hr, fetchInstruction_rejected h0 hw h8 hd]

end Sys2Proof.Machine

/-! ## The byte-order converter (R130 to R134) -/

namespace Sys2Proof

section

variable (b0 b1 b2 b3 : Byte)

/-! ### The value read -/

/-- A byte appended below a value is its last digit to the base 256. -/
theorem toNat_append_byte {n : Nat} (x : BitVec n) (b : Byte) : (x ++ b).toNat = x.toNat * 256 + b.toNat := by
  rw [BitVec.toNat_append, ← Nat.shiftLeft_add_eq_or_of_lt b.isLt, Nat.shiftLeft_eq]

theorem toNat_readU16 : (readU16 b0 b1).toNat = b0.toNat * 256 + b1.toNat := toNat_append_byte b0 b1

theorem toNat_readU32 :
    (readU32 b0 b1 b2 b3).toNat = b0.toNat * 2 ^ 24 + b1.toNat * 2 ^ 16 + b2.toNat * 2 ^ 8 + b3.toNat := by
  rw [readU32, toNat_append_byte, toNat_append_byte, toNat_append_byte]
  omega

/-! ### The bytes of the value read -/

@[simp] theorem readU16_byte0 : (readU16 b0 b1).extractLsb' 8 8 = b0 := BitVec.extractLsb'_append_eq_left

@[simp] theorem readU16_byte1 : (readU16 b0 b1).extractLsb' 0 8 = b1 := BitVec.extractLsb'_append_eq_right

/-- Above its last byte, the word read is the three bytes before it. -/
theorem extract_readU32_of_le {start len : Nat} (h : 8 ≤ start) :
    (readU32 b0 b1 b2 b3).extractLsb' start len = (b0 ++ b1 ++ b2).extractLsb' (start - 8) len :=
  BitVec.extractLsb'_append_eq_of_le h

@[simp] theorem readU32_byte0 : (readU32 b0 b1 b2 b3).extractLsb' 24 8 = b0 := by
  rw [extract_readU32_of_le _ _ _ _ (by decide), BitVec.extractLsb'_append_eq_of_le (by decide)]
  exact BitVec.extractLsb'_append_eq_left

@[simp] theorem readU32_byte1 : (readU32 b0 b1 b2 b3).extractLsb' 16 8 = b1 := by
  rw [extract_readU32_of_le _ _ _ _ (by decide), BitVec.extractLsb'_append_eq_of_le (by decide)]
  exact BitVec.extractLsb'_append_eq_right

@[simp] theorem readU32_byte2 : (readU32 b0 b1 b2 b3).extractLsb' 8 8 = b2 := by
  rw [extract_readU32_of_le _ _ _ _ (by decide)]
  exact BitVec.extractLsb'_append_eq_right

@[simp] theorem readU32_byte3 : (readU32 b0 b1 b2 b3).extractLsb' 0 8 = b3 := BitVec.extractLsb'_append_eq_right

theorem be16Bytes_readU16 : be16Bytes (readU16 b0 b1) = [b0, b1] := by
  rw [be16Bytes, readU16_byte0, readU16_byte1]

theorem be32Bytes_readU32 : be32Bytes (readU32 b0 b1 b2 b3) = [b0, b1, b2, b3] := by
  rw [be32Bytes, readU32_byte0, readU32_byte1, readU32_byte2, readU32_byte3]

/-! ### The datapath of either order (R134) -/

/-- A little-endian datapath forms the word of the same bytes in the opposite order. -/
theorem nativeWord_le : nativeWord .le b0 b1 b2 b3 = readU32 b3 b2 b1 b0 := rfl

theorem bswap32_readU32 : bswap32 (readU32 b0 b1 b2 b3) = readU32 b3 b2 b1 b0 := by
  rw [bswap32, readU32_byte0, readU32_byte1, readU32_byte2, readU32_byte3]
  rfl

theorem convertU32_eq_readU32 (host : ByteOrder) : convertU32 host b0 b1 b2 b3 = readU32 b0 b1 b2 b3 := by
  cases host with
  | be => rfl
  | le => exact (congrArg bswap32 (nativeWord_le b0 b1 b2 b3)).trans (bswap32_readU32 b3 b2 b1 b0)

theorem convertU16_eq_readU16 (host : ByteOrder) : convertU16 host b0 b1 = readU16 b0 b1 := by
  cases host with
  | be => rfl
  | le => exact congrArg₂ readU16 (readU16_byte1 b1 b0) (readU16_byte0 b1 b0)

end

/-- Settles O13: the values by the base-256 digits, the round trips by the bytes of the value read, and the little-endian
datapath because the swap undoes its order. -/
theorem converterIsBigEndianOnEveryHost : Obligations.ConverterIsBigEndianOnEveryHost :=
  ⟨toNat_readU16, toNat_readU32, fun x => ⟨rfl, readU32_extract x⟩, be32Bytes_readU32,
    fun x => ⟨rfl, readU16_extract x⟩, be16Bytes_readU16, fun _ _ _ _ => ⟨rfl, rfl⟩,
    fun host b0 b1 b2 b3 => convertU32_eq_readU32 b0 b1 b2 b3 host,
    fun host b0 b1 => convertU16_eq_readU16 b0 b1 host⟩

end Sys2Proof

namespace Sys2Proof.Machine

/-- Settles O32: whatever the instruction, behind a closed gate its meaning is the cursor's advance by its length. -/
theorem suppressedInstructionOnlyAdvances : Obligations.SuppressedInstructionOnlyAdvances :=
  fun _ _ _ hm hg => exec_of_gate_closed hm (gate_of_not_open hg)

end Sys2Proof.Machine

/-! ## Register indices, sub-opcodes and argument counts (R168, R246, R252, R293) -/

namespace Sys2Proof

section

variable {b : Byte} {l : Line} {op : Opcode} {n : Nat}

/-! ### One field -/

theorem decodeRegister_legal (h : b.toNat < 8) : decodeRegister b = .ok ⟨b.toNat, h⟩ := dif_pos h

theorem decodeRegister_outOfRange (h : 8 ≤ b.toNat) : decodeRegister b = .error (.registerRange b) :=
  dif_neg (not_lt.2 h)

theorem decodeValueSize_legal (h : b.toNat % 16 < 3) : ∃ sz, decodeValueSize b = .ok sz := by
  rw [← toNat_lo4] at h
  rcases (by omega : (lo4 b).toNat = 0 ∨ (lo4 b).toNat = 1 ∨ (lo4 b).toNat = 2) with e | e | e
  · exact ⟨.byte, by simp only [decodeValueSize, e]⟩
  · exact ⟨.half, by simp only [decodeValueSize, e]⟩
  · exact ⟨.word, by simp only [decodeValueSize, e]⟩

/-! ### The formats REG and ARITH -/

theorem decodeIntegerTransfer_registerRange (hp : l.b1.toNat / 16 < 2) (hsz : l.b1.toNat % 16 < 3)
    (hr : 8 ≤ l.b3.toNat) (mk : PointerMode → ValueSize → Reg → Word → Instr) :
    decodeIntegerTransfer l mk = .error (.registerRange l.b3) := by
  obtain ⟨p, ep⟩ := decodePointerMode_legal hp
  obtain ⟨sz, esz⟩ := decodeValueSize_legal hsz
  rw [decodeIntegerTransfer, ep, esz, decodeRegister_outOfRange hr]
  rfl

theorem decodeFloatTransfer_registerRange (hp : l.b1.toNat / 16 < 2) (hr : 8 ≤ l.b3.toNat)
    (mk : PointerMode → Reg → Word → Instr) : decodeFloatTransfer l mk = .error (.registerRange l.b3) := by
  obtain ⟨p, ep⟩ := decodePointerMode_legal hp
  rw [decodeFloatTransfer, ep, decodeRegister_outOfRange hr]
  rfl

theorem decodeRegisterForm_badDestination (h : 8 ≤ l.b2.toNat) (mk : Reg → Reg → Instr) :
    decodeRegisterForm l mk = .error (.registerRange l.b2) := by
  rw [decodeRegisterForm, decodeRegister_outOfRange h]
  rfl

theorem decodeDirectForm_badDestination (h : 8 ≤ l.b2.toNat) (mk : Reg → Word → Instr) :
    decodeDirectForm l mk = .error (.registerRange l.b2) := by
  rw [decodeDirectForm, decodeRegister_outOfRange h]
  rfl

theorem decodeRegisterForm_badSource (hd : l.b2.toNat < 8) (hr : 8 ≤ l.b3.toNat) (mk : Reg → Reg → Instr) :
    decodeRegisterForm l mk = .error (.registerRange l.b3) := by
  rw [decodeRegisterForm, decodeRegister_legal hd, decodeRegister_outOfRange hr]
  rfl

/-- An arithmetic opcode with `n` sub-opcodes (R251, R252): from `n` on they are reserved, and below `n` they are of the
register form or, from 4 on but for 8, of the direct form. -/
structure ArithmeticForms (op : Opcode) (n : Nat) : Prop where
  reserved : ∀ l rest, n ≤ l.b1.toNat → decodeOpcode op l rest = .error (.badSubopcode l.b1)
  forms : ∀ l rest, l.b1.toNat < n →
    (∃ mk, decodeOpcode op l rest = decodeRegisterForm l mk) ∨
    ¬ (l.b1.toNat < 4 ∨ l.b1.toNat = 8) ∧ ∃ mk, decodeOpcode op l rest = decodeDirectForm l mk

theorem integerOperation_forms : ArithmeticForms .integerOperation 8 where
  reserved l _ h := by
    simp only [decodeOpcode, decodeIntegerOperation]
    split
    iterate 8 omega
    rfl
  forms l _ h := by
    simp only [decodeOpcode, decodeIntegerOperation]
    split
    iterate 4 exact .inl ⟨_, rfl⟩
    iterate 4 exact .inr ⟨by omega, _, rfl⟩
    · simp only [imp_false] at *
      omega

theorem floatOperation_forms : ArithmeticForms .floatOperation 9 where
  reserved l _ h := by
    simp only [decodeOpcode, decodeFloatOperation]
    split
    iterate 9 omega
    rfl
  forms l _ h := by
    simp only [decodeOpcode, decodeFloatOperation]
    split
    iterate 4 exact .inl ⟨_, rfl⟩
    iterate 4 exact .inr ⟨by omega, _, rfl⟩
    · exact .inl ⟨_, rfl⟩
    · simp only [imp_false] at *
      omega

theorem ArithmeticForms.badDestination (h : ArithmeticForms op n) (ht : l.b1.toNat < n) (hd : 8 ≤ l.b2.toNat)
    (rest : List Byte) : decodeOpcode op l rest = .error (.registerRange l.b2) := by
  rcases h.forms l rest ht with ⟨mk, e⟩ | ⟨-, mk, e⟩
  · rw [e, decodeRegisterForm_badDestination hd]
  · rw [e, decodeDirectForm_badDestination hd]

/-- The second source is checked in the register form alone (R252). -/
theorem ArithmeticForms.badSource (h : ArithmeticForms op n) (ht : l.b1.toNat < n) (hd : l.b2.toNat < 8)
    (hform : l.b1.toNat < 4 ∨ l.b1.toNat = 8) (hr : 8 ≤ l.b3.toNat) (rest : List Byte) :
    decodeOpcode op l rest = .error (.registerRange l.b3) := by
  rcases h.forms l rest ht with ⟨mk, e⟩ | ⟨direct, -⟩
  · rw [e, decodeRegisterForm_badSource hd hr]
  · exact absurd hform direct

/-! ### The format CALL -/

theorem decodeCall_badLow (h : 8 ≤ l.b1.toNat) (rest : List Byte) :
    decodeCall l rest = .error (.registerRange l.b1) := by
  rw [decodeCall, decodeRegister_outOfRange h]
  rfl

theorem decodeCall_badHigh (hlo : l.b1.toNat < 8) (h : 8 ≤ l.b2.toNat) (rest : List Byte) :
    decodeCall l rest = .error (.registerRange l.b2) := by
  rw [decodeCall, decodeRegister_legal hlo, decodeRegister_outOfRange h]
  rfl

theorem decodeCall_badCount (hlo : l.b1.toNat < 8) (hhi : l.b2.toNat < 8) (h : 8 < l.b3.toNat) (rest : List Byte) :
    decodeCall l rest = .error (.argcountRange l.b3) := by
  rw [decodeCall, decodeRegister_legal hlo, decodeRegister_legal hhi, except_ok_bind, except_ok_bind, if_pos h]
  rfl

end

/-- Settles O10: the transfers check their register last, the arithmetic opcodes their sub-opcode, then the
registers of its form. -/
theorem registerAndSubopcodeErrors : Obligations.RegisterAndSubopcodeErrors := by
  intro m hm b1 b2 b3 b4 b5 b6 b7 rest
  refine ⟨fun op hop hp hsz hr => ?integerTransfer, fun op hop hp hr => ?floatTransfer, fun e he => ?arithmetic⟩
  case integerTransfer =>
    refine (decode_line hm op ..).trans ?_
    fin_cases hop <;> exact decodeIntegerTransfer_registerRange hp hsz hr _
  case floatTransfer =>
    refine (decode_line hm op ..).trans ?_
    fin_cases hop <;> exact decodeFloatTransfer_registerRange hp hr _
  case arithmetic =>
    have forms : ArithmeticForms e.1 e.2 := by
      fin_cases he
      · exact integerOperation_forms
      · exact floatOperation_forms
    exact ⟨fun ht => (decode_line hm e.1 ..).trans (forms.reserved _ rest ht),
      fun ht hd => (decode_line hm e.1 ..).trans (forms.badDestination ht hd rest),
      fun ht hd hform hr => (decode_line hm e.1 ..).trans (forms.badSource ht hd hform hr rest)⟩

/-- Settles O11: the three checks of `decodeCall` before its length check, each after the ones before it have passed. -/
theorem callFieldErrors : Obligations.CallFieldErrors := fun _ hm _ _ _ _ _ _ _ rest =>
  ⟨fun hlo => (decode_line hm .call ..).trans (decodeCall_badLow hlo rest),
    fun hlo hhi => (decode_line hm .call ..).trans (decodeCall_badHigh hlo hhi rest),
    fun hlo hhi hc => (decode_line hm .call ..).trans (decodeCall_badCount hlo hhi hc rest)⟩

end Sys2Proof

/-! ## Runs: the timer gate, the end of a run (R164, R174, R231) -/

namespace Sys2Proof.Machine

section

variable {s t : State} {i : Instr} {delay : Word}

/-! ### The timer gate (R231) -/

theorem timerSkips_iff :
    timerSkips delay s = true ↔ delay.toNat ≠ 0 ∧ s.executionCount.toNat % delay.toNat ≠ 0 := by
  simp [timerSkips, BitVec.toNat_eq]

/-! ### The counter (R29, R164) -/

/-- Only the normal end of a run writes the counter. -/
theorem blockStep_executionCount (h : blockStep s = .next t) :
    t.executionCount = s.executionCount ∨ t = finishRun s := by
  by_cases hr : s.runState = .running
  · simp only [blockStep, hr] at h
    cases hf : fetchInstruction s <;> simp only [hf] at h
    case outside => cases h
    case finished =>
      cases h
      exact .inr rfl
    case fatal =>
      cases h
      exact .inl rfl
    case instruction i => exact .inl (frame_of_exec h).executionCount
  · cases (blockStep_of_not_running hr).symm.trans h
    exact .inl rfl

/-! ### Runs of several steps -/

theorem run_one {M : Host.Core} {a b : M.State} (h : M.step a = .next b) : M.run 1 a = .next b := by
  simp only [Host.Core.run, h]

theorem run_add {M : Host.Core} {a b : M.State} {j : Nat} (h : M.run j a = .next b) (k : Nat) :
    M.run (j + k) a = M.run k b := by
  induction j generalizing a with
  | zero =>
    cases h
    rw [Nat.zero_add]
  | succ j ih =>
    rw [Nat.add_right_comm]
    simp only [Host.Core.run] at h ⊢
    cases hs : M.step a with
    | next c =>
      simp only [hs] at h
      exact ih h
    | fault r => simp only [hs, reduceCtorEq] at h
    | refused r => simp only [hs, reduceCtorEq] at h

/-! ### Every run ends (R174) -/

/-- A sound block in a run that the host leaves alone. -/
structure SoundRun (s : State) : Prop where
  inv : s.Inv
  host : s.host = []
  running : s.runState = .running

/-- DONE or FATAL: what a run ends in. -/
def Ended (s : State) : Prop := s.runState = .done ∨ s.runState = .fatal

/-- From `s` at most two steps lead on in the run, with at least one line less to go. -/
def ConsumesLine (s : State) : Prop :=
  ∃ k ≤ 2, ∃ t, Host.Core.run Sys2Proof.core k s = .next t ∧ SoundRun t ∧ t.rem.toNat + 8 ≤ s.rem.toNat

theorem eight_le_length_of_decode {m : OpcodeMap} {bs : List Byte} (h : decode m bs = .ok i) : 8 ≤ i.length := by
  obtain ⟨op, l, rest, -, -, hd⟩ := decode_eq_ok h
  exact (decodeOpcode_of_ok hd).1 ▸ le_lengthOf op l

/-- A SearchTemplate removes its template and leaves the cursor; the line it writes there runs next and takes its own
8 bytes (R310, R311). So an empty template costs no more than the two steps. -/
theorem search_consumesLine {x sh eh : HalfWord} {tm : List Byte} (h : SoundRun s) (h8 : s.rem.toNat % 8 = 0)
    (hd : decode s.params.opc s.remaining = .ok (.search x sh eh tm)) : ConsumesLine s := by
  have fits : 8 + padded tm.length ≤ s.rem.toNat := by simpa [Instr.length] using (decode_fits hd).2
  have h0 : s.rem ≠ 0 := fun e => by simp [e] at fits
  obtain ⟨t, ht, -, hhost, hrun, -, -, -, hsum, -⟩ := execSearch_progress x sh eh tm fits
  obtain ⟨found, t', hs, -, -, -, -, hnext, -⟩ :=
    rewrittenLineRunsNext s x sh eh tm h.inv h.host h.running h8 h0 hd
  have same : t' = t := by
    rw [step_of_no_event h.host, blockStep_of_decoded h.running h0 h8 h.inv.window hd, ht] at hs
    exact (Host.Outcome.next.inj hs).symm
  subst same
  have less : (t'.rem - 8).toNat = t'.rem.toNat - 8 := advance_rem_toNat (n := 8) (by omega)
  refine ⟨1 + 1, le_rfl, _, (run_add (run_one hs) 1).trans (run_one hnext), ⟨?_, hhost.trans h.host,
    hrun.trans h.running⟩, ?_⟩
  · exact stepKeepsTheInvariant _ _ (stepKeepsTheInvariant _ _ h.inv hs) hnext
  · simp only [less]
    omega

/-- Every other instruction ends the run, by a failed skip, or takes its own bytes. -/
theorem exec_ends_or_consumesLine (h : SoundRun s) (hs : step s = exec i s) (h8 : 8 ≤ i.length)
    (hl : i.length ≤ s.rem.toNat) (hn : ∀ x sh eh tm, i ≠ .search x sh eh tm) :
    (∃ t, step s = .next t ∧ Ended t) ∨ ConsumesLine s := by
  obtain ⟨t, ht, p⟩ := exec_progress hl h.inv.length_lt hn
  have hs' : step s = .next t := hs.trans ht
  rcases p.run with ⟨hrun, -⟩ | ⟨hfatal, -⟩
  · have less := p.rem
    exact .inr ⟨1, by decide, t, run_one hs', ⟨stepKeepsTheInvariant _ _ h.inv hs', p.host.trans h.host,
      hrun.trans h.running⟩, by omega⟩
  · exact .inl ⟨t, hs', .inr hfatal⟩

/-- A run ends at its next step, or has a line less to go within two. -/
theorem ends_or_consumesLine (h : SoundRun s) : (∃ t, step s = .next t ∧ Ended t) ∨ ConsumesLine s := by
  have hs := step_of_no_event h.host
  rcases blockStep_cases h.running h.inv.window with ⟨-, e⟩ | ⟨code, info, -, e⟩ | ⟨i, h8, hd, e⟩
  · exact .inl ⟨_, hs.trans e, .inl rfl⟩
  · exact .inl ⟨_, hs.trans e, .inr rfl⟩
  · by_cases hi : ∃ x sh eh tm, i = .search x sh eh tm
    · obtain ⟨x, sh, eh, tm, rfl⟩ := hi
      exact .inr (search_consumesLine h h8 hd)
    · exact exec_ends_or_consumesLine h (hs.trans e) (eight_le_length_of_decode hd)
        (by simpa using (decode_fits hd).2) fun x sh eh tm e => hi ⟨x, sh, eh, tm, e⟩

theorem run_ends (h : SoundRun s) : ∃ k ≤ 2 * (s.rem.toNat / 8) + 1, ∃ t,
    Host.Core.run Sys2Proof.core k s = .next t ∧ Ended t := by
  induction hn : s.rem.toNat using Nat.strong_induction_on generalizing s with
  | _ n ih =>
    subst hn
    rcases ends_or_consumesLine h with ⟨t, hs, ended⟩ | ⟨j, hj, t, hrun, sound, less⟩
    · exact ⟨1, by omega, t, run_one hs, ended⟩
    · obtain ⟨k, hk, u, hrun', ended⟩ := ih t.rem.toNat (by omega) sound rfl
      exact ⟨j + k, by omega, u, (run_add hrun k).trans hrun', ended⟩

end

/-- Settles O28, by induction on the bytes left: two steps take at least a line, and one step ends the run. -/
theorem everyRunEnds : Obligations.EveryRunEnds := fun _ inv hh hr => run_ends ⟨inv, hh, hr⟩

/-- Settles O46: both branches start from the state with the delay stored, and the first one is a skip. -/
theorem timeDependenceGatesByRunCount : Obligations.TimeDependenceGatesByRunCount := by
  intro delay s
  refine ⟨_, rfl, ?_⟩
  split
  · next h =>
    rw [if_pos (timerSkips_iff.2 h)]
    exact skipTo_skips .resetTimer _
  · next h =>
    rw [if_neg (mt timerSkips_iff.1 h)]
    rfl

/-- Settles O16: the check finds `rem = 0` first, and no other iteration writes the counter. -/
theorem runEndsWhenNothingRemains : Obligations.RunEndsWhenNothingRemains := by
  refine ⟨fun s hh hr h0 => ?_, fun s t hh _ hs hfatal => ?_⟩
  · have count : s.executionCount + 1 = BitVec.ofNat 32 ((s.executionCount.toNat + 1) % 2 ^ 32) :=
      BitVec.eq_of_toNat_eq (by simp)
    rw [step_of_no_event hh, ← count]
    simp only [blockStep, hr, fetchInstruction_finished h0]
    rfl
  · rw [step_of_no_event hh] at hs
    rcases blockStep_executionCount hs with hcount | rfl
    · exact hcount
    · cases hfatal

end Sys2Proof.Machine

/-! ## The write instructions (R190 to R194, R248, R250) -/

namespace Sys2Proof.Machine

section

variable {p : PointerMode} {s t : State} {order : ByteOrder} {sz : ValueSize} {a b v w : Word}

/-! ### An open gate and addresses -/

/-- Behind an open gate an instruction issues its accesses and advances (R144). -/
theorem advance_of_gate_open (h : GateOpen p s) (n : Nat) (u : State) :
    advance n (if gate p s then u else s) = advance n u := by
  rw [if_pos (gate_of_open h)]

theorem offset_offset (a : Word) (m k : Nat) : offset (offset a m) k = offset a (m + k) := by
  simp only [offset, BitVec.ofNat_add, BitVec.add_assoc]

@[simp] theorem offset_zero (a : Word) : offset a 0 = a := BitVec.add_zero a

/-- Below 2^30 words stand at four times their number, so no two of them share a byte. -/
theorem offset_words_ne {i j k l : Nat} (hi : i < 2 ^ 30) (hj : j < 2 ^ 30) (hk : k < 4) (hl : l < 4) (hne : i ≠ j) :
    offset (offset a (4 * i)) k ≠ offset (offset a (4 * j)) l := by
  rw [offset_offset, offset_offset, Ne, offset_inj (by omega) (by omega)]
  omega

/-! ### One sized value (R191, R248, R250) -/

theorem memWrite_storeEffect (n : Nat) (h : s.accessEnable = true) :
    StoreEffect n sz a v s (advance n (memWrite sz a v s)) :=
  ⟨by rw [memWrite_log sz a v h]; rfl, memWrite_storesValue sz a v h⟩

/-! ### The bytes of a string (R192) -/

theorem writeString_byte {bs : List Byte} (h : s.accessEnable = true) (hl : bs.length ≤ 2 ^ 32) {k : Nat}
    (hk : k < bs.length) : (writeString bs a s).foreignByte (offset a k) = bs[k] := by
  have place : (offset a k - a).toNat = k := toNat_offset_sub a (by omega)
  rw [writeString_read bs a h hl, dif_pos (by omega)]
  simp only [place]

theorem writeString_outside {bs : List Byte} (h : s.accessEnable = true) (hl : bs.length ≤ 2 ^ 32)
    (hb : ∀ k < bs.length, b ≠ offset a k) : (writeString bs a s).foreignByte b = s.foreignByte b := by
  rw [writeString_read bs a h hl, dif_neg fun hlt => hb _ hlt (offset_toNat_sub a b).symm]

/-! ### Series (R193, R194) -/

theorem writeSeries_seriesEffect (n : Nat) (stride incr : Word) (count : Nat) (h : s.accessEnable = true) :
    SeriesEffect n sz count a stride v incr s (advance n (writeSeries sz stride incr count a v s)) :=
  ⟨by rw [writeSeries_log sz stride incr count a v h]; rfl,
    fun _ ho => writeSeries_covered sz stride incr count a v h ho,
    writeSeries_outside sz stride incr count a v h⟩

/-- The writes of an area stand at consecutive words. -/
theorem seriesTerm_four (a : Word) (i : Nat) : seriesTerm a 4 i = offset a (4 * i) := by
  rw [seriesTerm, offset, Nat.mul_comm, BitVec.ofNat_mul]
  rfl

/-- With no increment every write of a series has the same value. -/
@[simp] theorem seriesTerm_step_zero (v : Word) (i : Nat) : seriesTerm v 0 i = v := by simp [seriesTerm]

/-- No later word of an area covers an earlier one, so all of them stand in the end. -/
theorem writeSeries_area {n i k : Nat} (h : s.accessEnable = true) (ho : s.foreign.collaborator = .reference order)
    (hn : n ≤ 2 ^ 30) (hi : i < n) (hk : k < 4) :
    (writeSeries .word 4 0 n a v s).foreignByte (offset a (4 * i + k)) = orderedByte order .word v k := by
  have covered := writeSeries_covered .word 4 0 n a v h ho i hi k hk fun j hij hj l hl => by
    rw [seriesTerm_four, seriesTerm_four]
    exact offset_words_ne (by omega) (by omega) hl hk (by omega)
  rwa [seriesTerm_four, offset_offset, seriesTerm_step_zero] at covered

end

/-- Settles O37: all three are one write of the port behind the gate. -/
theorem sizedStoresWriteTheirValue : Obligations.SizedStoresWriteTheirValue :=
  ⟨fun _ _ _ _ _ h => ⟨_, congrArg Host.Outcome.next (advance_of_gate_open h ..), memWrite_storeEffect 16 h.1⟩,
    fun _ _ _ _ _ h => ⟨_, congrArg Host.Outcome.next (advance_of_gate_open h ..), memWrite_storeEffect 8 h.1⟩,
    fun _ _ _ _ h => ⟨_, congrArg Host.Outcome.next (advance_of_gate_open h ..), memWrite_storeEffect 8 h.1⟩⟩

/-- Settles O38: a string is shorter than the address space, so no byte of it is written twice. -/
theorem stringWriteStoresItsBytes : Obligations.StringWriteStoresItsBytes := by
  intro p addr data s hl h
  refine ⟨_, congrArg Host.Outcome.next (advance_of_gate_open h ..), ?_,
    fun k hk => writeString_byte h.1 (by omega) hk, fun b hb => writeString_outside h.1 (by omega) hb⟩
  rw [writeString_log _ _ h.1]
  rfl

/-- Settles O39: the series of the port's writes behind the gate. -/
theorem skipWriteWritesTheSeries : Obligations.SkipWriteWritesTheSeries := fun _ _ _ _ _ _ _ _ h =>
  ⟨_, congrArg Host.Outcome.next (advance_of_gate_open h ..), writeSeries_seriesEffect 24 _ _ _ h.1⟩

/-- Settles O40: an area holds at most 2^30 words, so the series never comes back to a word it wrote. -/
theorem fillWritesTheArea : Obligations.FillWritesTheArea := by
  intro p addr value span s h
  have words : span.toNat / 4 ≤ 2 ^ 30 := by omega
  exact ⟨_, congrArg Host.Outcome.next (advance_of_gate_open h ..), writeSeries_seriesEffect 16 _ _ _ h.1,
    fun _ ho _ hi _ hk => writeSeries_area h.1 ho words hi hk⟩

end Sys2Proof.Machine

/-! ## Corrupter (R65, R195) -/

namespace Sys2Proof.Machine

/-- The transactions of one iteration of Corrupter at an address, once the value read is known (R195). -/
def corruptTransactions (find repl a w : Word) : List Transaction :=
  .read a .word w :: if w = find then [.write a .word repl] else []

/-- The transactions of `n` iterations of Corrupter from an address, once the values read are known. -/
def corruptSeries (find repl a : Word) (n : Nat) (answer : Nat → Word) : List Transaction :=
  (List.range n).flatMap fun k => corruptTransactions find repl (offset a (4 * k)) (answer k)

section

variable {s t : State} {order : ByteOrder} {sz : ValueSize} {a b w find repl : Word} {n : Nat}

/-- The log takes the newest transaction first. -/
theorem reverse_corruptTransactions (find repl a w : Word) :
    (corruptTransactions find repl a w).reverse =
      (if w = find then [.write a .word repl] else []) ++ [.read a .word w] := by
  unfold corruptTransactions
  split <;> rfl

theorem reverse_corruptSeries_succ (find repl a : Word) (n : Nat) (answer : Nat → Word) (log : List Transaction) :
    (corruptSeries find repl a (n + 1) answer).reverse ++ log =
      (if answer n = find then [.write (offset a (4 * n)) .word repl] else []) ++
        .read (offset a (4 * n)) .word (answer n) :: ((corruptSeries find repl a n answer).reverse ++ log) := by
  simp [corruptSeries, List.range_succ, reverse_corruptTransactions]

/-! ### Values that stand in memory -/

theorem readSized_holdsValue (order : ByteOrder) (sz : ValueSize) (a : Word) (s : State) :
    HoldsValue order sz s a (s.foreign.mem.readSized order sz a) := readSized_holds s.foreign.mem order sz a

theorem HoldsValue.congr (h : HoldsValue order sz s a w)
    (same : ∀ k < sz.bytes, t.foreignByte (offset a k) = s.foreignByte (offset a k)) : HoldsValue order sz t a w :=
  ⟨h.1, fun k hk => (same k hk).trans (h.2 k hk)⟩

/-- A value that stands at an address is the one a read of the reference memory finds. -/
theorem HoldsValue.eq_readSized (h : HoldsValue order sz s a w) : w = s.foreign.mem.readSized order sz a := by
  obtain ⟨hlt, bytes⟩ := readSized_holdsValue order sz a s
  apply BitVec.eq_of_toNat_eq
  rw [toNat_eq_sized h.1 fun k hk => (h.2 k hk).symm.trans (bytes k hk)]
  exact Nat.mod_eq_of_lt hlt

theorem readSized_congr (order : ByteOrder)
    (same : ∀ k < sz.bytes, t.foreignByte (offset a k) = s.foreignByte (offset a k)) :
    t.foreign.mem.readSized order sz a = s.foreign.mem.readSized order sz a :=
  ((readSized_holdsValue order sz a s).congr same).eq_readSized.symm

/-! ### One word -/

theorem corruptWord_outside (h : s.accessEnable = true) (hb : ∀ j < 4, b ≠ offset a j) :
    (corruptWord find repl a s).foreignByte b = s.foreignByte b :=
  corruptLoop_outside find repl 1 a h b fun k hk j hj => by
    rw [show 4 * k + j = j by omega]
    exact hb j hj

/-- The word at hand is replaced where it matches, and stays where it does not. -/
theorem corruptWord_holdsValue (h : s.accessEnable = true) (ho : s.foreign.collaborator = .reference order)
    (hw : HoldsValue order .word s a w) :
    HoldsValue order .word (corruptWord find repl a s) a (if w = find then repl else w) := by
  rw [corruptWord_reference find repl a h ho, ← hw.eq_readSized]
  by_cases found : w = find
  · simp only [if_pos found]
    refine ⟨repl.isLt, fun k hk => ?_⟩
    have place : (offset a k - a).toNat = k := toNat_offset_sub a (hk.trans (by decide))
    rw [State.foreignByte, read_writeSized, place, if_pos hk]
  · simp only [if_neg found]
    exact hw

/-! ### The loop, word by word -/

/-- The loop reads its next word after all the earlier ones. -/
theorem corruptLoop_succ_last (find repl : Word) (n : Nat) (a : Word) (s : State) :
    corruptLoop find repl (n + 1) a s = corruptWord find repl (offset a (4 * n)) (corruptLoop find repl n a s) := by
  induction n generalizing a s with
  | zero => rw [Nat.mul_zero, offset_zero]; rfl
  | succ n ih =>
    have next : offset (a + 4) (4 * n) = offset a (4 * (n + 1)) := by
      rw [show 4 * (n + 1) = 4 + 4 * n by omega, ← offset_offset]
      rfl
    rw [corruptLoop, ih, next]
    rfl

/-- The words scanned before the one at hand are not it. -/
theorem corruptLoop_later (h : s.accessEnable = true) {k j : Nat} (hn : n ≤ k) (hk : k < 2 ^ 30) (hj : j < 4) :
    (corruptLoop find repl n a s).foreignByte (offset (offset a (4 * k)) j) =
      s.foreignByte (offset (offset a (4 * k)) j) :=
  corruptLoop_outside find repl n a h _ fun i hi l hl => by
    rw [← offset_offset]
    exact offset_words_ne hk (by omega) hj hl (by omega)

/-- Every word scanned is replaced where it matches, and stays where it does not (R195). -/
theorem corruptLoop_holdsValue (h : s.accessEnable = true) (ho : s.foreign.collaborator = .reference order)
    (hn : n ≤ 2 ^ 30) {k : Nat} (hk : k < n) (hw : HoldsValue order .word s (offset a (4 * k)) w) :
    HoldsValue order .word (corruptLoop find repl n a s) (offset a (4 * k)) (if w = find then repl else w) := by
  induction n with
  | zero => omega
  | succ n ih =>
    have enabled : (corruptLoop find repl n a s).accessEnable = true := by rw [corruptLoop_accessEnable, h]
    rw [corruptLoop_succ_last]
    rcases (by omega : k < n ∨ k = n) with earlier | rfl
    · exact (ih (by omega) earlier).congr fun j hj => corruptWord_outside enabled fun l hl =>
        offset_words_ne (by omega) (by omega) hj hl (by omega)
    · exact corruptWord_holdsValue enabled (by rw [corruptLoop_collaborator, ho])
        (hw.congr fun j hj => corruptLoop_later h (le_refl k) (by omega) hj)

/-- Under the reference memory the loop reads every word as it stood before, and changes memory and the log alone. -/
theorem corruptLoop_reference (find repl a : Word) (h : s.accessEnable = true)
    (ho : s.foreign.collaborator = .reference order) (hn : n ≤ 2 ^ 30) :
    (corruptLoop find repl n a s).foreign = { s.foreign with
      mem := (corruptLoop find repl n a s).foreign.mem
      log := (corruptSeries find repl a n fun k => s.foreign.mem.readSized order .word (offset a (4 * k))).reverse
        ++ s.foreign.log } := by
  induction n with
  | zero => rfl
  | succ n ih =>
    have unread : (corruptLoop find repl n a s).foreign.mem.readSized order .word (offset a (4 * n)) =
        s.foreign.mem.readSized order .word (offset a (4 * n)) :=
      readSized_congr order fun j hj => corruptLoop_later h (le_refl n) (by omega) hj
    rw [corruptLoop_succ_last, corruptWord_reference find repl _ (by rw [corruptLoop_accessEnable, h])
      (by rw [corruptLoop_collaborator, ho]), unread, ih (by omega), reverse_corruptSeries_succ]

/-- With an arbitrary collaborator the loop uses up one answer for every word, in order. -/
theorem corruptLoop_arbitrary (find repl a : Word) (n : Nat) (h : s.accessEnable = true)
    (ho : s.foreign.collaborator = .arbitrary) :
    AnswersUsed n s (corruptLoop find repl n a s) ∧
    (corruptLoop find repl n a s).foreign = { s.foreign with
      mem := (corruptLoop find repl n a s).foreign.mem
      readAnswers := (corruptLoop find repl n a s).foreign.readAnswers
      draws := (corruptLoop find repl n a s).foreign.draws
      log := (corruptSeries find repl a n (nextAnswer s)).reverse ++ s.foreign.log } := by
  induction n with
  | zero => exact ⟨⟨rfl, by simp [corruptLoop]⟩, rfl⟩
  | succ n ih =>
    obtain ⟨used, frame⟩ := ih
    obtain ⟨usedOne, frameOne⟩ := corruptWord_arbitrary find repl (offset a (4 * n))
      (s := corruptLoop find repl n a s) (by rw [corruptLoop_accessEnable, h]) (by rw [corruptLoop_collaborator, ho])
    rw [corruptLoop_succ_last]
    refine ⟨used.trans usedOne, ?_⟩
    rw [frameOne, nextAnswer_used used, frame, reverse_corruptSeries_succ]
    rfl

end

/-- Settles O41: at most 2^30 words are scanned, so each is read as it stood before and written once at most. -/
theorem corrupterReplacesMatchingWords : Obligations.CorrupterReplacesMatchingWords := by
  intro first limit find repl s h
  have words : (limit.toNat - first.toNat + 3) / 4 ≤ 2 ^ 30 := by omega
  refine ⟨_, congrArg Host.Outcome.next (advance_of_gate_open h ..), ?_, corruptLoop_outside find repl _ first h.1,
    fun order ho => ⟨fun k hk w hw => corruptLoop_holdsValue h.1 ho words hk hw,
      corruptLoop_reference find repl first h.1 ho words⟩,
    corruptLoop_arbitrary find repl first _ h.1⟩
  rw [(corruptLoop_onlyForeign find repl (corruptCount first limit) first s).eq]
  rfl

end Sys2Proof.Machine

/-! ## The conditionals: their predicates in unsigned numbers, and their results (R210 to R222) -/

namespace Sys2Proof.Machine

/-! ### The comparison with a sized operand is the comparison of the two numbers (R211) -/

theorem condEqual_truncate_iff (sz : ValueSize) (value m : Word) :
    condEqual m (truncate sz value) = true ↔ m.toNat = sized sz value := by
  rw [condEqual, beq_iff_eq, ← BitVec.toNat_inj, toNat_truncate]

theorem condNotEqual_truncate_iff (sz : ValueSize) (value m : Word) :
    condNotEqual m (truncate sz value) = true ↔ m.toNat ≠ sized sz value := by
  rw [condNotEqual, bne_iff_ne, BitVec.toNat_ne, toNat_truncate]

theorem condAnd_truncate_iff (sz : ValueSize) (value m : Word) :
    condAnd m (truncate sz value) = true ↔ m.toNat &&& sized sz value ≠ 0 := by
  rw [condAnd, bne_iff_ne, BitVec.toNat_ne, BitVec.toNat_and, toNat_truncate]
  exact Iff.rfl

theorem condOr_truncate_iff (sz : ValueSize) (value m : Word) :
    condOr m (truncate sz value) = true ↔ m.toNat ||| sized sz value ≠ 0 := by
  rw [condOr, bne_iff_ne, BitVec.toNat_ne, BitVec.toNat_or, toNat_truncate]
  exact Iff.rfl

theorem condBetween_truncate_iff (sz : ValueSize) (lower upper m : Word) :
    condBetween m (truncate sz lower) (truncate sz upper) = true ↔
      sized sz lower < m.toNat ∧ m.toNat < sized sz upper := by
  rw [condBetween, Bool.and_eq_true, decide_eq_true_iff, decide_eq_true_iff, BitVec.lt_def, BitVec.lt_def,
    toNat_truncate, toNat_truncate]

/-- The true ordering of two numbers that a kind of `ordered_cmp` names (R215 to R218). -/
def NumbersOrdered (kind : OrderKind) (m v : Nat) : Prop :=
  match kind with
  | .gt => m > v
  | .lt => m < v
  | .ge => m ≥ v
  | .le => m ≤ v

theorem unsignedOrder_iff (kind : OrderKind) (m v : Word) :
    unsignedOrder kind m v = true ↔ NumbersOrdered kind m.toNat v.toNat := by
  cases kind <;> exact decide_eq_true_iff

/-- At its default `ordered_cmp` orders the numbers, and the size matters for the operand alone (R222). -/
theorem orderedCompare_unsigned_iff (kind : OrderKind) (sz : ValueSize) (value m : Word) :
    orderedCompare .unsigned kind sz m (truncate sz value) = true ↔
      NumbersOrdered kind m.toNat (sized sz value) := by
  rw [orderedCompare, unsignedOrder_iff, toNat_truncate]

/-- The unknown function is asked about the sized operand, never about the bytes of `V` that the size drops (log 3). -/
theorem orderedCompare_original (kind : OrderKind) (sz : ValueSize) (value m : Word) :
    orderedCompare .original kind sz m (truncate sz value) =
      Config.orderedCmp kind sz m (BitVec.ofNat 32 (sized sz value)) := by
  rw [orderedCompare, truncate_eq]

/-! ### The four ordered conditionals are one instruction over the kinds of `ordered_cmp` -/

/-- The conditional that asks `ordered_cmp` about `kind` (R215 to R218). -/
def orderedConditional (kind : OrderKind) (p : PointerMode) (sz : ValueSize) (addr value : Word) : Instr :=
  match kind with
  | .gt => .ifgt p sz addr value
  | .lt => .iflt p sz addr value
  | .ge => .ifge p sz addr value
  | .le => .ifle p sz addr value

theorem exec_orderedConditional (kind : OrderKind) (p : PointerMode) (sz : ValueSize) (addr value : Word) (s : State) :
    exec (orderedConditional kind p sz addr value) s =
      .next (conditional p sz addr (fun m => orderedCompare s.params.ordered kind sz m (truncate sz value)) s) := by
  cases kind <;> rfl

theorem orderedConditional_tests_unsigned (kind : OrderKind) {p : PointerMode} {s : State} (sz : ValueSize)
    (addr value : Word) (h : GateOpen p s) (hm : s.params.ordered = .unsigned) :
    ConditionalTests (orderedConditional kind p sz addr value) p sz addr s
      (fun m => NumbersOrdered kind m.toNat (sized sz value)) :=
  conditional_tests h (exec_orderedConditional ..) fun m => hm ▸ orderedCompare_unsigned_iff kind sz value m

theorem orderedConditional_tests_original (kind : OrderKind) {p : PointerMode} {s : State} (sz : ValueSize)
    (addr value : Word) (h : GateOpen p s) (hm : s.params.ordered = .original) :
    ConditionalTests (orderedConditional kind p sz addr value) p sz addr s
      (fun m => Config.orderedCmp kind sz m (BitVec.ofNat 32 (sized sz value)) = true) :=
  conditional_tests h (exec_orderedConditional ..) fun m => by rw [hm, orderedCompare_original]

/-! ### The statements -/

/-- Settles O42: both have the common shape, and two words are equal when their numbers are. -/
theorem equalityConditionals : Obligations.EqualityConditionals := by
  intro p sz addr value s h
  exact ⟨conditional_tests h rfl (condEqual_truncate_iff sz value),
    conditional_tests h rfl (condNotEqual_truncate_iff sz value)⟩

/-- Settles O43, kind by kind: the default `ordered_cmp` orders the numbers. -/
theorem orderedConditionals : Obligations.OrderedConditionals := by
  intro p sz addr value s h hm
  have tests (kind : OrderKind) := orderedConditional_tests_unsigned kind sz addr value h hm
  exact ⟨tests .gt, tests .lt, tests .ge, tests .le⟩

/-- Settles O44, kind by kind: the unknown `ordered_cmp` alone decides. -/
theorem orderedConditionalsOfTheOriginal : Obligations.OrderedConditionalsOfTheOriginal := by
  intro p sz addr value s h hm
  have tests (kind : OrderKind) := orderedConditional_tests_original kind sz addr value h hm
  exact ⟨tests .gt, tests .lt, tests .ge, tests .le⟩

/-- Settles O45: the bits and the bounds are those of the numbers, the operands cut to the size first. -/
theorem bitwiseAndBetweenConditionals : Obligations.BitwiseAndBetweenConditionals := by
  intro p sz addr value upper s h
  exact ⟨conditional_tests h rfl (condAnd_truncate_iff sz value),
    conditional_tests h rfl (condOr_truncate_iff sz value),
    conditional_tests h rfl (condBetween_truncate_iff sz value upper)⟩

end Sys2Proof.Machine

/-! ## The stream-control instructions (R232 to R235) -/

namespace Sys2Proof.Machine

/-! ### One line taken, and one equation per instruction -/

/-- The cursor passes one line, and the rest of the state stands. -/
theorem advance_line (s : State) : advance 8 s = { s with pc := s.pc + 8, rem := s.rem - 8 } := rfl

theorem exec_resettimer (s : State) : exec .resettimer s = .next (advance 8 { s with timeDependenceDelay := 0 }) := rfl

theorem exec_term (s : State) :
    exec .term s = .next (advance 8 { s with conditionFlag := false, loadedPointer := 0 }) := rfl

theorem exec_nop (s : State) : exec .nop s = .next (advance 8 s) := rfl

theorem exec_timerterm (s : State) : exec .timerterm s = .next (advance 8 s) := rfl

/-! ### The statement -/

/-- Settles O47: each of the four clears its fields, if it has any, and takes its line. -/
theorem streamControlInstructions : Obligations.StreamControlInstructions := by
  intro s
  refine ⟨?resettimer, ?term, ?nop, ?timerterm⟩
  case resettimer => rw [exec_resettimer, advance_line]
  case term => rw [exec_term, advance_line]
  case nop => rw [exec_nop, advance_line]
  case timerterm => rw [exec_timerterm, advance_line]

end Sys2Proof.Machine

/-! ## Binary32: rounding to the nearest pattern (R271) -/

namespace Sys2Proof.Machine

/-! ### The patterns in the order of their numbers -/

/-- The number of the low 31 bits `n` of a pattern, in units of 2^-149. Beyond the finite patterns it goes on as if the
exponent field had no end. -/
def patternUnits (n : ℕ) : ℕ := if n < 2 ^ 23 then n else (2 ^ 23 + n % 2 ^ 23) * 2 ^ (n / 2 ^ 23 - 1)

/-- A significand of exactly 2^24 carries into the exponent field. -/
theorem patternUnits_eq {k m : ℕ} (hk : k = 0 ∨ 2 ^ 23 ≤ m) (hm : m ≤ 2 ^ 24) :
    patternUnits (k * 2 ^ 23 + m) = m * 2 ^ k := by
  unfold patternUnits
  obtain rfl | carry := hm.eq_or_lt
  · have field : (k * 2 ^ 23 + 2 ^ 24) / 2 ^ 23 = k + 2 := by omega
    have fraction : (k * 2 ^ 23 + 2 ^ 24) % 2 ^ 23 = 0 := by omega
    rw [if_neg (by omega), field, fraction, Nat.add_sub_assoc (by decide), pow_succ]
    ring
  obtain low | high := lt_or_ge m (2 ^ 23)
  · obtain rfl : k = 0 := by omega
    rw [if_pos (by omega)]
    simp
  · have field : (k * 2 ^ 23 + m) / 2 ^ 23 = k + 1 := by omega
    have fraction : 2 ^ 23 + (k * 2 ^ 23 + m) % 2 ^ 23 = m := by omega
    rw [if_neg (by omega), field, fraction, Nat.add_sub_cancel]

/-- Every pattern has an exponent and a significand. -/
theorem exists_pattern_eq (n : ℕ) : ∃ k m, n = k * 2 ^ 23 + m ∧ (k = 0 ∨ 2 ^ 23 ≤ m) ∧ m < 2 ^ 24 := by
  obtain low | high := lt_or_ge n (2 ^ 23)
  · exact ⟨0, n, by omega, .inl rfl, by omega⟩
  · exact ⟨n / 2 ^ 23 - 1, 2 ^ 23 + n % 2 ^ 23, by omega, .inr (by omega), by omega⟩

theorem patternUnits_strictMono : StrictMono patternUnits := by
  refine strictMono_nat_of_lt_succ fun n => ?_
  obtain ⟨k, m, rfl, hk, hm⟩ := exists_pattern_eq n
  rw [patternUnits_eq hk hm.le, add_assoc, patternUnits_eq (by omega) hm]
  exact Nat.mul_lt_mul_of_pos_right m.lt_succ_self (by positivity)

theorem patternUnits_lt {p q : ℕ} (h : p < q) : (patternUnits p : ℚ) < patternUnits q := by
  exact_mod_cast patternUnits_strictMono h

theorem patternUnits_le {p q : ℕ} (h : p ≤ q) : (patternUnits p : ℚ) ≤ patternUnits q := by
  exact_mod_cast patternUnits_strictMono.monotone h

/-! ### Nearest whole numbers and nearest patterns -/

/-- `m` is nearest to `x` among the whole numbers, and even where two are nearest. -/
def NearestInteger (x : ℚ) (m : ℕ) : Prop :=
  (2 * x ≤ 2 * m + 1 ∧ (2 * x = 2 * m + 1 → m % 2 = 0)) ∧ 2 * m - 1 ≤ 2 * x ∧ (2 * x = 2 * m - 1 → m % 2 = 0)

/-- The pattern `n` is at least as near to `x` units of 2^-149 as the patterns beside it, and even where one of them is
as near. -/
structure NearestPattern (x : ℚ) (n : ℕ) : Prop where
  above : 2 * x ≤ patternUnits n + patternUnits (n + 1) ∧
    (2 * x = patternUnits n + patternUnits (n + 1) → n % 2 = 0)
  below : ∀ p, n = p + 1 →
    (patternUnits p + patternUnits n : ℚ) ≤ 2 * x ∧ (2 * x = patternUnits p + patternUnits n → n % 2 = 0)

section

variable {x : ℚ} {k m n : ℕ}

theorem nearestInteger_self (m : ℕ) : NearestInteger m m :=
  ⟨⟨by linarith, fun e => by linarith⟩, by linarith, fun e => by linarith⟩

theorem NearestInteger.le_of_lt {c : ℕ} (h : NearestInteger x m) (hx : x < c) : m ≤ c := by
  have lt : (2 * m : ℚ) < 2 * c + 1 := by linarith [h.2.1]
  have : 2 * m < 2 * c + 1 := by exact_mod_cast lt
  omega

theorem NearestInteger.ge_of_le {c : ℕ} (h : NearestInteger x m) (hx : c ≤ x) : c ≤ m := by
  have le : (2 * c : ℚ) ≤ 2 * m + 1 := by linarith [h.1.1]
  have : 2 * c ≤ 2 * m + 1 := by exact_mod_cast le
  omega

/-- Rounding to a whole number of units of 2^k gives the nearest pattern, when k is least or the significand has all its
24 bits. At either end of the significands the neighbour on that side only has to be on that side. -/
theorem NearestInteger.nearestPattern (h : NearestInteger x m) (hk : k = 0 ∨ 2 ^ 23 ≤ x) (hx : x < 2 ^ 24) :
    NearestPattern (x * 2 ^ k) (k * 2 ^ 23 + m) := by
  have hm : m ≤ 2 ^ 24 := h.le_of_lt (by exact_mod_cast hx)
  have hkm : k = 0 ∨ 2 ^ 23 ≤ m := hk.imp_right fun hx' => h.ge_of_le (by exact_mod_cast hx')
  have parity : (k * 2 ^ 23 + m) % 2 = m % 2 := by omega
  have unit : (0 : ℚ) < 2 ^ k := by positivity
  have here : (patternUnits (k * 2 ^ 23 + m) : ℚ) = m * 2 ^ k := by exact_mod_cast patternUnits_eq hkm hm
  obtain ⟨⟨le_above, even_above⟩, ⟨le_below, even_below⟩⟩ := h
  constructor
  case above =>
    rw [parity, here]
    obtain rfl | lt := hm.eq_or_lt
    · have next := patternUnits_lt (k * 2 ^ 23 + 2 ^ 24).lt_succ_self
      have under : x * 2 ^ k < (2 ^ 24 : ℕ) * 2 ^ k := mul_lt_mul_of_pos_right (by exact_mod_cast hx) unit
      rw [here] at next
      exact ⟨by linarith, fun e => by linarith⟩
    · have next : (patternUnits (k * 2 ^ 23 + m + 1) : ℚ) = (m + 1) * 2 ^ k := by
        rw [add_assoc]
        exact_mod_cast patternUnits_eq (by omega) lt
      rw [next]
      exact ⟨by linarith [mul_le_mul_of_nonneg_right le_above unit.le],
        fun e => even_above (mul_right_cancel₀ unit.ne' (by linarith))⟩
  case below =>
    rintro p hp
    rw [parity, here]
    obtain ⟨hkm', hm'⟩ | ⟨least, hk'⟩ : (k = 0 ∨ 2 ^ 23 ≤ m - 1) ∧ 1 ≤ m ∨ m = 2 ^ 23 ∧ k ≠ 0 := by omega
    · have prev : (patternUnits p : ℚ) = (m - 1) * 2 ^ k := by
        rw [show p = k * 2 ^ 23 + (m - 1) by omega, patternUnits_eq hkm' (by omega)]
        push_cast [hm']
        rfl
      rw [prev]
      exact ⟨by linarith [mul_le_mul_of_nonneg_right le_below unit.le],
        fun e => even_below (mul_right_cancel₀ unit.ne' (by linarith))⟩
    · have prev := patternUnits_lt (show p < k * 2 ^ 23 + m by omega)
      have reached : (m : ℚ) * 2 ^ k ≤ x * 2 ^ k := by
        rw [least]
        exact mul_le_mul_of_nonneg_right (by exact_mod_cast hk.resolve_left hk') unit.le
      rw [here] at prev
      exact ⟨by linarith, fun e => by linarith⟩

/-- What is nearest beside its neighbours is nearest among all patterns. -/
theorem NearestPattern.abs_sub_le (h : NearestPattern x n) (c : ℕ) :
    |x - patternUnits n| ≤ |x - patternUnits c| ∧
      (c ≠ n → |x - patternUnits c| = |x - patternUnits n| → n % 2 = 0) := by
  obtain lt | rfl | gt := lt_trichotomy c n
  · obtain ⟨p, rfl⟩ := Nat.exists_eq_add_one_of_ne_zero (Nat.ne_zero_of_lt lt)
    obtain ⟨near, even⟩ := h.below p rfl
    have hc := patternUnits_le (Nat.le_of_lt_succ lt)
    have hn := patternUnits_lt lt
    refine ⟨?_, fun _ same => even ?_⟩
    · rw [abs_of_nonneg (show 0 ≤ x - patternUnits c by linarith), abs_le]
      constructor <;> linarith
    · obtain e | e := abs_eq_abs.1 same <;> linarith
  · exact ⟨le_rfl, fun ne => absurd rfl ne⟩
  · obtain ⟨near, even⟩ := h.above
    have hc := patternUnits_le (Nat.succ_le_of_lt gt)
    have hn := patternUnits_lt gt
    rw [Nat.succ_eq_add_one] at hc
    refine ⟨?_, fun _ same => even ?_⟩
    · rw [abs_of_nonpos (show x - patternUnits c ≤ 0 by linarith), abs_le]
      constructor <;> linarith
    · obtain e | e := abs_eq_abs.1 same <;> linarith

end

/-! ### The number that is rounded, and the whole number that stands for it -/

/-- `m` stands for `x` where `x` is rounded: it is `x`, or it is the odd number between the even ones around `x`, and has
two more bits than a significand. -/
def StandsFor (m : ℕ) (x : ℚ) : Prop := x = m ∨ 25 ≤ m.log2 ∧ m % 2 = 1 ∧ m - 1 < x ∧ x < m + 1

section

variable {x : ℚ} {m : ℕ} {t : ℤ}

theorem StandsFor.nonneg (h : StandsFor m x) : 0 ≤ x := by
  obtain rfl | ⟨-, odd, lo, -⟩ := h
  · exact Nat.cast_nonneg m
  · have : (1 : ℚ) ≤ m := by exact_mod_cast (by omega : 1 ≤ m)
    linarith

/-- An even number has both on one side. -/
theorem StandsFor.same_side (h : StandsFor m x) (ht : x = m ∨ 2 ∣ t) :
    x = m ∨ (x < t ∧ (m : ℚ) < t) ∨ (t < x ∧ (t : ℚ) < m) := by
  obtain exactly | ⟨-, odd, lo, hi⟩ := h
  · exact .inl exactly
  refine ht.imp_right fun even => ?_
  obtain above | below : (m : ℤ) + 1 ≤ t ∨ t ≤ (m : ℤ) - 1 := by omega
  · have above' : (m + 1 : ℚ) ≤ t := by exact_mod_cast above
    exact .inl ⟨by linarith, by linarith⟩
  · have below' : (t : ℚ) ≤ (m - 1 : ℤ) := by exact_mod_cast below
    push_cast at below'
    exact .inr ⟨by linarith, by linarith⟩

theorem StandsFor.le_iff (h : StandsFor m x) (ht : x = m ∨ 2 ∣ t) : x ≤ t ↔ (m : ℚ) ≤ t := by
  obtain rfl | ⟨hx, hm⟩ | ⟨hx, hm⟩ := h.same_side ht
  · rfl
  · exact iff_of_true hx.le hm.le
  · exact iff_of_false hx.not_ge hm.not_ge

theorem StandsFor.ge_iff (h : StandsFor m x) (ht : x = m ∨ 2 ∣ t) : t ≤ x ↔ (t : ℚ) ≤ m := by
  obtain rfl | ⟨hx, hm⟩ | ⟨hx, hm⟩ := h.same_side ht
  · rfl
  · exact iff_of_false hx.not_ge hm.not_ge
  · exact iff_of_true hx.le hm.le

theorem StandsFor.eq_iff (h : StandsFor m x) (ht : x = m ∨ 2 ∣ t) : x = t ↔ (m : ℚ) = t := by
  rw [le_antisymm_iff, le_antisymm_iff, h.le_iff ht, h.ge_iff ht]

/-- The size of what is rounded is read off the number that stands for it. -/
theorem StandsFor.log2_bounds (h : StandsFor m x) (hm : m ≠ 0) : 2 ^ m.log2 ≤ x ∧ x < 2 ^ (m.log2 + 1) := by
  have even (n : ℕ) (hn : m.log2 ≤ n) : x = m ∨ 2 ∣ ((2 ^ n : ℕ) : ℤ) :=
    h.imp_right fun ⟨large, _⟩ => by exact_mod_cast dvd_pow_self 2 (by omega)
  have lo := (h.ge_iff (even m.log2 le_rfl)).2 (by exact_mod_cast Nat.log2_self_le hm)
  have hi := (not_congr (h.ge_iff (even (m.log2 + 1) (Nat.le_succ _)))).2
    (not_le.2 (by exact_mod_cast Nat.lt_log2_self))
  push_cast at lo hi
  exact ⟨lo, not_le.1 hi⟩

/-! ### `divRoundEven` answers the nearest whole number -/

/-- The midpoints beside `n` multiples of 2^(j+1) are odd multiples of 2^j. -/
theorem nearestInteger_div_iff {n j : ℕ} : NearestInteger (x / 2 ^ (j + 1)) n ↔
    (x ≤ ((2 * n + 1) * 2 ^ j : ℤ) ∧ (x = ((2 * n + 1) * 2 ^ j : ℤ) → n % 2 = 0)) ∧
      ((2 * n - 1) * 2 ^ j : ℤ) ≤ x ∧ (x = ((2 * n - 1) * 2 ^ j : ℤ) → n % 2 = 0) := by
  have unit : (0 : ℚ) < 2 ^ j := by positivity
  have halve : 2 * (x / 2 ^ (j + 1)) = x / 2 ^ j := by rw [pow_succ]; field_simp
  rw [NearestInteger, halve, div_le_iff₀ unit, div_eq_iff unit.ne', le_div_iff₀ unit, div_eq_iff unit.ne']
  push_cast
  rfl

/-- The midpoints between multiples of 2^k are even for `k` at least 2. -/
theorem NearestInteger.of_standsFor {n k : ℕ} (h : StandsFor m x) (hk : x = m ∨ 2 ≤ k)
    (hn : NearestInteger (m / 2 ^ k) n) : NearestInteger (x / 2 ^ k) n := by
  obtain rfl | large := hk
  · exact hn
  obtain ⟨j, rfl⟩ := Nat.exists_eq_add_of_le' large
  have even (c : ℤ) : x = m ∨ 2 ∣ c * 2 ^ (j + 1) := .inr (Dvd.dvd.mul_left (dvd_pow_self 2 (by omega)) c)
  rw [nearestInteger_div_iff] at hn ⊢
  rwa [h.le_iff (even _), h.ge_iff (even _), h.eq_iff (even _), h.eq_iff (even _)]

theorem divRoundEven_nearest (m j : ℕ) : NearestInteger (m / 2 ^ (j + 1)) (divRoundEven m (j + 1)) := by
  have small : m % 2 ^ (j + 1) < 2 ^ (j + 1) := Nat.mod_lt _ (by positivity)
  have parts := Nat.div_add_mod m (2 ^ (j + 1))
  have unit : (2 ^ j : ℤ) = (2 ^ j : ℕ) := by push_cast; rfl
  rw [nearestInteger_div_iff, unit, ← Int.cast_natCast m, Int.cast_le, Int.cast_le, Int.cast_inj, Int.cast_inj]
  simp only [divRoundEven]
  rw [pow_succ] at *
  generalize m / (2 ^ j * 2) = t at *
  generalize m % (2 ^ j * 2) = r at *
  generalize 2 ^ j = u at *
  have whole : (m : ℤ) = 2 * (u * t) + r := by rw [← parts]; push_cast; ring
  rw [whole]
  split
  case isTrue up =>
    rw [show (2 * ((t + 1 : ℕ) : ℤ) + 1) * u = 2 * (u * t) + 3 * u by push_cast; ring,
      show (2 * ((t + 1 : ℕ) : ℤ) - 1) * u = 2 * (u * t) + u by push_cast; ring]
    omega
  case isFalse down =>
    rw [show (2 * (t : ℤ) + 1) * u = 2 * (u * t) + u by ring, show (2 * (t : ℤ) - 1) * u = 2 * (u * t) - u by ring]
    omega

/-! ### `roundToFloat` answers the nearest pattern -/

/-- The exponent of the unit a result is rounded to: never below the least one, and above it a significand has 24 bits. -/
def roundingUnit (m : ℕ) (e : ℤ) : ℤ := max (m.log2 + e - 23) (-149)

/-- The significand that rounding leaves, in the rounding unit. -/
def roundedSignificand (m : ℕ) (e : ℤ) : ℕ :=
  if roundingUnit m e ≤ e then m * 2 ^ (e - roundingUnit m e).toNat
  else divRoundEven m (roundingUnit m e - e).toNat

theorem roundToFloat_zero (sign : Bool) (e : ℤ) : roundToFloat sign 0 e = withSign sign 0 := rfl

theorem roundToFloat_eq (sign : Bool) (e : ℤ) (hm : m ≠ 0) : roundToFloat sign m e =
    withSign sign (min infinityBits ((roundingUnit m e + 149).toNat * 2 ^ 23 + roundedSignificand m e)) := by
  rw [roundToFloat, if_neg hm]
  rfl

theorem StandsFor.roundedSignificand_nearest (h : StandsFor m x) (e : ℤ) :
    NearestInteger (x * 2 ^ (e - roundingUnit m e)) (roundedSignificand m e) := by
  rw [roundedSignificand]
  split
  case isTrue fits =>
    have exactly : x = m := h.resolve_right fun ⟨large, _⟩ => by unfold roundingUnit at fits; omega
    obtain ⟨j, hj⟩ := Int.eq_ofNat_of_zero_le (sub_nonneg.2 fits)
    rw [hj, exactly, Int.toNat_natCast, zpow_natCast]
    exact_mod_cast nearestInteger_self (m * 2 ^ j)
  case isFalse drops =>
    obtain ⟨j, hj⟩ := Int.eq_ofNat_of_zero_le (show 0 ≤ roundingUnit m e - e - 1 by omega)
    have hk : x = m ∨ 2 ≤ j + 1 := h.imp_right fun ⟨large, _⟩ => by unfold roundingUnit at hj; omega
    have down : e - roundingUnit m e = -((j + 1 : ℕ) : ℤ) := by push_cast; omega
    have count : (roundingUnit m e - e).toNat = j + 1 := by omega
    rw [down, count, zpow_neg, zpow_natCast, ← div_eq_mul_inv]
    exact .of_standsFor h hk (divRoundEven_nearest m j)

/-- What is rounded fills the 24 bits of a significand unless the unit is the least one, and never more. -/
theorem StandsFor.scaled_bounds (h : StandsFor m x) (hm : m ≠ 0) (e : ℤ) :
    ((roundingUnit m e + 149).toNat = 0 ∨ 2 ^ 23 ≤ x * 2 ^ (e - roundingUnit m e)) ∧
      x * 2 ^ (e - roundingUnit m e) < 2 ^ 24 := by
  obtain ⟨lo, hi⟩ := h.log2_bounds hm
  have full : x * 2 ^ (23 - m.log2 : ℤ) = x / 2 ^ m.log2 * 2 ^ 23 := by
    rw [zpow_sub₀ two_ne_zero, zpow_natCast, mul_div_assoc', div_mul_eq_mul_div]
    rfl
  rw [← one_le_div (by positivity)] at lo
  rw [pow_succ', ← div_lt_iff₀ (by positivity)] at hi
  constructor
  · obtain least | above : (roundingUnit m e + 149).toNat = 0 ∨ e - roundingUnit m e = 23 - m.log2 := by
      unfold roundingUnit
      omega
    · exact .inl least
    · rw [above, full]
      exact .inr (by linarith)
  · have small : (2 : ℚ) ^ (e - roundingUnit m e) ≤ 2 ^ (23 - m.log2 : ℤ) :=
      zpow_le_zpow_right₀ one_le_two (by unfold roundingUnit; omega)
    calc x * 2 ^ (e - roundingUnit m e) ≤ x * 2 ^ (23 - m.log2 : ℤ) := mul_le_mul_of_nonneg_left small h.nonneg
      _ < 2 ^ 24 := by rw [full]; linarith

/-- `roundToFloat` answers the nearest pattern, or an infinity in place of a pattern beyond the finite ones. -/
theorem StandsFor.roundToFloat_nearest (h : StandsFor m x) (sign : Bool) (e : ℤ) :
    ∃ n, roundToFloat sign m e = withSign sign (min infinityBits n) ∧ NearestPattern (x * 2 ^ (e + 149)) n := by
  obtain rfl | hm := eq_or_ne m 0
  · obtain rfl : x = 0 := by simpa [StandsFor] using h
    refine ⟨0, roundToFloat_zero sign e, ?_⟩
    simpa using (nearestInteger_self 0).nearestPattern (k := 0) (.inl rfl) (by norm_num)
  · obtain ⟨hk, hx⟩ := h.scaled_bounds hm e
    refine ⟨_, roundToFloat_eq sign e hm, ?_⟩
    have unit : ((roundingUnit m e + 149).toNat : ℤ) = roundingUnit m e + 149 :=
      Int.toNat_of_nonneg (by unfold roundingUnit; omega)
    convert (h.roundedSignificand_nearest e).nearestPattern hk hx using 1
    rw [mul_assoc, ← zpow_natCast, unit, ← zpow_add₀ two_ne_zero]
    congr 2
    ring

end

end Sys2Proof.Machine

/-! ## Binary32: patterns and the numbers they stand for (R271) -/

namespace Sys2Proof.Machine

/-! ### The fields of a pattern -/

/-- The low 31 bits of a pattern. -/
def magnitudeBits (f : Word) : ℕ := f.toNat % 2 ^ 31

/-- The factor -1 or 1 that a sign bit stands for. -/
def signFactor (sign : Bool) : ℚ := if sign then -1 else 1

theorem signFactor_mul (s t : Bool) : signFactor s * signFactor t = signFactor (s != t) := by
  cases s <;> cases t <;> simp [signFactor]

theorem signFactor_div (s t : Bool) : signFactor s / signFactor t = signFactor (s != t) := by
  cases s <;> cases t <;> simp [signFactor]

section

variable (f : Word) (sign : Bool)

theorem floatExponent_eq : floatExponent f = magnitudeBits f / 2 ^ 23 := by
  simp only [floatExponent, magnitudeBits, BitVec.extractLsb'_toNat, Nat.shiftRight_eq_div_pow]
  omega

theorem floatFraction_eq : floatFraction f = magnitudeBits f % 2 ^ 23 := by
  simp only [floatFraction, magnitudeBits, BitVec.extractLsb'_toNat, Nat.shiftRight_eq_div_pow]
  omega

theorem getLsbD_zero_eq : f.getLsbD 0 = decide (magnitudeBits f % 2 = 1) := by
  rw [BitVec.getLsbD, Nat.testBit_zero, magnitudeBits, Nat.mod_mod_of_dvd _ (by decide)]

theorem isFinite_iff : IsFinite f ↔ magnitudeBits f < infinityBits := by
  show floatExponent f ≠ 255 ↔ _
  have small : magnitudeBits f < 2 ^ 31 := Nat.mod_lt _ (by decide)
  rw [floatExponent_eq, infinityBits]
  omega

theorem significand_lt : significand f < 2 ^ 24 := by
  unfold significand
  rw [floatFraction_eq]
  split <;> omega

/-- The exponent and the significand of a pattern, put together, are its low bits. -/
theorem magnitudeBits_eq : magnitudeBits f = scale f * 2 ^ 23 + significand f := by
  unfold scale significand
  rw [floatFraction_eq, floatExponent_eq]
  split <;> omega

theorem scale_eq_zero_or : scale f = 0 ∨ 2 ^ 23 ≤ significand f := by
  unfold scale significand
  split
  case isTrue subnormal => exact .inl (by rw [subnormal])
  case isFalse => exact .inr (Nat.le_add_right ..)

theorem patternUnits_magnitudeBits : patternUnits (magnitudeBits f) = significand f * 2 ^ scale f := by
  rw [magnitudeBits_eq, patternUnits_eq (scale_eq_zero_or f) (significand_lt f).le]

/-! ### The number of a pattern -/

theorem floatValue_eq : floatValue f = signFactor (floatSign f) * (significand f * 2 ^ scale f) / 2 ^ 149 := by
  show signFactor (floatSign f) * (if floatExponent f = 0 then (floatFraction f : ℚ) / 2 ^ 149
    else ((2 ^ 23 + floatFraction f : ℕ) : ℚ) * 2 ^ floatExponent f / 2 ^ 150) = _
  unfold significand scale
  split
  case isTrue subnormal => rw [subnormal, pow_zero, mul_one, mul_div_assoc]
  case isFalse normal =>
    obtain ⟨k, hk⟩ := Nat.exists_eq_add_one_of_ne_zero normal
    rw [hk, Nat.add_sub_cancel, pow_succ, pow_succ (2 : ℚ) 149]
    field_simp
    rw [pow_succ]
    ring

theorem floatValue_eq_patternUnits :
    floatValue f = signFactor (floatSign f) * patternUnits (magnitudeBits f) / 2 ^ 149 := by
  rw [floatValue_eq, patternUnits_magnitudeBits]
  push_cast
  rfl

theorem floatValue_eq_zpow : floatValue f = signFactor (floatSign f) * (significand f * 2 ^ (scale f - 149 : ℤ)) := by
  rw [floatValue_eq, zpow_sub₀ two_ne_zero, zpow_natCast, mul_div_assoc, mul_div_assoc]
  rfl

/-! ### A pattern put together -/

/-- Two fields side by side are a sum. -/
theorem toNat_append_eq_add {m n : ℕ} (x : BitVec m) (y : BitVec n) :
    (x ++ y).toNat = x.toNat * 2 ^ n + y.toNat := by
  rw [BitVec.toNat_append, ← Nat.shiftLeft_add_eq_or_of_lt y.isLt, Nat.shiftLeft_eq]

theorem toNat_withSign (n : ℕ) : (withSign sign n).toNat = sign.toNat * 2 ^ 31 + n % 2 ^ 31 := by
  rw [withSign, toNat_append_eq_add, BitVec.toNat_ofBool, BitVec.toNat_ofNat]

theorem floatSign_withSign (n : ℕ) : floatSign (withSign sign n) = sign := by
  show (withSign sign n).msb = sign
  rw [BitVec.msb_eq_decide, toNat_withSign]
  cases sign
  · simp
    omega
  · simp

theorem magnitudeBits_withSign {n : ℕ} (h : n < 2 ^ 31) : magnitudeBits (withSign sign n) = n := by
  rw [magnitudeBits, toNat_withSign]
  omega

theorem infinity_eq : infinity sign = withSign sign infinityBits := by cases sign <;> rfl

theorem zero_eq : zero sign = withSign sign 0 := by cases sign <;> rfl

end

/-! ### The nearest pattern, with the sign, is the rounded number -/

/-- The distance of two signed numbers. -/
theorem abs_signFactor_sub (s t : Bool) (x v : ℚ) :
    |signFactor s * x - signFactor t * v| = if s = t then |x - v| else |x + v| := by
  cases s <;> cases t <;> simp only [signFactor, if_true, if_false, Bool.false_eq_true, reduceCtorEq]
  · simp
  · congr 1; ring
  · rw [← abs_neg]; congr 1; ring
  · rw [← abs_neg]; congr 1; ring

section

variable {x : ℚ} {m n : ℕ}

/-- The midpoint above the largest finite number parts the finite results from the infinite ones. -/
theorem NearestPattern.infinityBits_le_iff (h : NearestPattern x n) :
    infinityBits ≤ n ↔ 2 ^ 128 - 2 ^ 103 ≤ x / 2 ^ 149 := by
  have largest : patternUnits (infinityBits - 1) = (2 ^ 24 - 1) * 2 ^ 253 := by
    rw [show infinityBits - 1 = 253 * 2 ^ 23 + (2 ^ 24 - 1) by decide, patternUnits_eq (by decide) (by decide)]
  have next : patternUnits infinityBits = 2 ^ 23 * 2 ^ 254 := by
    rw [show infinityBits = 254 * 2 ^ 23 + 2 ^ 23 by decide, patternUnits_eq (by decide) (by decide)]
  have midpoint : 2 ^ 128 - 2 ^ 103 ≤ x / 2 ^ 149 ↔
      (patternUnits (infinityBits - 1) + patternUnits infinityBits : ℚ) ≤ 2 * x := by
    rw [le_div_iff₀ (by positivity), largest, next]
    norm_num
    constructor <;> intro le <;> linarith
  rw [midpoint]
  constructor
  · intro beyond
    obtain ⟨p, rfl⟩ := Nat.exists_eq_add_one_of_ne_zero (show n ≠ 0 by rintro rfl; exact absurd beyond (by decide))
    linarith [(h.below p rfl).1, patternUnits_le (show infinityBits - 1 ≤ p by omega), patternUnits_le beyond]
  · intro le
    by_contra finite
    obtain rfl | lt : n = infinityBits - 1 ∨ n + 1 ≤ infinityBits - 1 := by omega
    · exact absurd (h.above.2 (le_antisymm h.above.1 le)) (by decide)
    · linarith [h.above.1, patternUnits_lt n.lt_succ_self, patternUnits_le lt,
        patternUnits_le (show infinityBits - 1 ≤ infinityBits by decide)]

/-- No number of the other sign is nearer than the nearest pattern, and only zero can be as near. -/
theorem NearestPattern.abs_signed_sub_le (h : NearestPattern x n) (hx : 0 ≤ x) (s t : Bool) (c : ℕ) :
    |signFactor s * x - signFactor s * patternUnits n| ≤ |signFactor s * x - signFactor t * patternUnits c| ∧
      (signFactor t * patternUnits c ≠ signFactor s * patternUnits n →
        |signFactor s * x - signFactor t * patternUnits c| = |signFactor s * x - signFactor s * patternUnits n| →
          n % 2 = 0) := by
  obtain ⟨near, even⟩ := h.abs_sub_le c
  rw [abs_signFactor_sub, abs_signFactor_sub, if_pos rfl]
  obtain rfl | ne := eq_or_ne s t
  · rw [if_pos rfl]
    exact ⟨near, fun hne => even fun e => hne (e ▸ rfl)⟩
  · have hc : (0 : ℚ) ≤ patternUnits c := Nat.cast_nonneg _
    have farther : |x - patternUnits c| ≤ x + patternUnits c := by
      rw [abs_le]
      constructor <;> linarith
    rw [if_neg ne, abs_of_nonneg (add_nonneg hx hc)]
    refine ⟨near.trans farther, fun _ same => ?_⟩
    obtain rfl | hne := eq_or_ne c n
    · obtain _ | p := c
      · rfl
      · have below : (patternUnits p + patternUnits (p + 1) : ℚ) ≤ 2 * x := (h.below p rfl).1
        have prev : (0 : ℚ) ≤ patternUnits p := Nat.cast_nonneg _
        have pos := patternUnits_lt p.lt_succ_self
        obtain e | e := abs_choice (x - patternUnits (p + 1)) <;> linarith
    · exact even hne (le_antisymm (farther.trans same.le) near)

theorem NearestPattern.roundsTo (h : NearestPattern x n) (hx : 0 ≤ x) (sign : Bool) :
    RoundsTo (signFactor sign * x / 2 ^ 149) sign (withSign sign (min infinityBits n)) := by
  have size : |signFactor sign * x / 2 ^ 149| = x / 2 ^ 149 := by
    cases sign <;> simp [signFactor, abs_div, abs_of_nonneg hx]
  rw [RoundsTo, size]
  split
  case isTrue beyond => rw [min_eq_left (h.infinityBits_le_iff.2 beyond), infinity_eq]
  case isFalse within =>
    have finite : n < infinityBits := not_le.1 (mt h.infinityBits_le_iff.1 within)
    have bits : magnitudeBits (withSign sign n) = n := magnitudeBits_withSign sign (finite.trans (by decide))
    have value : floatValue (withSign sign n) = signFactor sign * patternUnits n / 2 ^ 149 := by
      rw [floatValue_eq_patternUnits, floatSign_withSign, bits]
    have scaled (a b : ℚ) : |a / 2 ^ 149 - b / 2 ^ 149| = |a - b| / 2 ^ 149 := by
      rw [← sub_div, abs_div, abs_of_pos (by positivity : (0 : ℚ) < 2 ^ 149)]
    have nearest (g : Word) := h.abs_signed_sub_le hx sign (floatSign g) (magnitudeBits g)
    rw [min_eq_right finite.le, isFinite_iff, getLsbD_zero_eq, bits, value]
    refine ⟨finite, floatSign_withSign sign n, fun g _ => ?nearest, fun g _ => ?tie⟩
    case nearest =>
      rw [floatValue_eq_patternUnits, scaled, scaled]
      exact div_le_div_of_nonneg_right (nearest g).1 (by positivity)
    case tie =>
      rw [floatValue_eq_patternUnits, scaled, scaled, Ne, div_left_inj' (by positivity), div_left_inj' (by positivity)]
      intro hne same
      simp [(nearest g).2 hne same]

/-- `roundToFloat` rounds the number that its arguments stand for (R271). -/
theorem StandsFor.roundToFloat_roundsTo (h : StandsFor m x) (sign : Bool) (e : ℤ) :
    RoundsTo (signFactor sign * (x * 2 ^ e)) sign (roundToFloat sign m e) := by
  obtain ⟨n, result, near⟩ := h.roundToFloat_nearest sign e
  have value : signFactor sign * (x * 2 ^ e) = signFactor sign * (x * 2 ^ (e + 149)) / 2 ^ 149 := by
    rw [zpow_add₀ two_ne_zero, mul_div_assoc, mul_div_assoc, mul_div_assoc]
    norm_num
  rw [result, value]
  exact near.roundsTo (mul_nonneg h.nonneg (by positivity)) sign

theorem roundToFloat_exact (sign : Bool) (m : ℕ) (e : ℤ) :
    RoundsTo (signFactor sign * (m * 2 ^ e)) sign (roundToFloat sign m e) :=
  StandsFor.roundToFloat_roundsTo (.inl rfl) sign e

theorem withSign_zero_roundsTo (sign : Bool) : RoundsTo 0 sign (withSign sign 0) := by
  have zero := roundToFloat_exact sign 0 0
  rwa [Nat.cast_zero, zero_mul, mul_zero] at zero

end

end Sys2Proof.Machine

/-! ## Binary32: the four operations and the conversion (R270, R271) -/

namespace Sys2Proof.Machine

/-! ### Kinds of operands -/

section

variable {f a b : Word}

theorem isNaN_iff (f : Word) : isNaN f = true ↔ IsNaN f := by
  rw [isNaN, Bool.and_eq_true, beq_iff_eq, bne_iff_ne]
  rfl

theorem isFinite_eq_true_iff (f : Word) : isFinite f = true ↔ IsFinite f := bne_iff_ne

theorem IsFinite.isNaN (h : IsFinite f) : isNaN f = false := by
  have exponent : (floatExponent f == 255) = false := beq_false_of_ne h
  rw [Machine.isNaN, exponent, Bool.false_and]

theorem IsFinite.isInfinite (h : IsFinite f) : isInfinite f = false := by
  have exponent : (floatExponent f == 255) = false := beq_false_of_ne h
  rw [Machine.isInfinite, exponent, Bool.false_and]

theorem floatValue_of_significand_zero (h : significand f = 0) : floatValue f = 0 := by
  rw [floatValue_eq, h, Nat.cast_zero, zero_mul, mul_zero, zero_div]

theorem isZero_of_floatValue_ne_zero (h : floatValue f ≠ 0) : isZero f = false := by
  by_contra zero
  rw [Bool.not_eq_false, isZero, Bool.and_eq_true, beq_iff_eq, beq_iff_eq] at zero
  exact h (floatValue_of_significand_zero (by rw [significand, if_pos zero.1, zero.2]))

@[simp] theorem isNaN_infinity (x : Bool) : isNaN (infinity x) = false := by cases x <;> rfl
@[simp] theorem isInfinite_infinity (x : Bool) : isInfinite (infinity x) = true := by cases x <;> rfl
@[simp] theorem isZero_infinity (x : Bool) : isZero (infinity x) = false := by cases x <;> rfl
@[simp] theorem floatSign_infinity (x : Bool) : floatSign (infinity x) = x := by cases x <;> rfl
@[simp] theorem isNaN_zero (x : Bool) : isNaN (zero x) = false := by cases x <;> rfl
@[simp] theorem isInfinite_zero (x : Bool) : isInfinite (zero x) = false := by cases x <;> rfl
@[simp] theorem isZero_zero (x : Bool) : isZero (zero x) = true := by cases x <;> rfl
@[simp] theorem floatSign_zero (x : Bool) : floatSign (zero x) = x := by cases x <;> rfl

/-! ### The sign of a subtrahend is inverted -/

@[simp] theorem magnitudeBits_negatePattern (f : Word) : magnitudeBits (negatePattern f) = magnitudeBits f := by
  rw [magnitudeBits, negatePattern, BitVec.toNat_xor, Nat.xor_mod_two_pow]
  exact Nat.xor_zero _

@[simp] theorem floatSign_negatePattern (f : Word) : floatSign (negatePattern f) = !floatSign f := by
  simp [floatSign, negatePattern]

@[simp] theorem floatValue_negatePattern (f : Word) : floatValue (negatePattern f) = -floatValue f := by
  rw [floatValue_eq_patternUnits, floatValue_eq_patternUnits, floatSign_negatePattern, magnitudeBits_negatePattern]
  cases floatSign f <;> simp [signFactor, neg_div]

@[simp] theorem isNaN_negatePattern (f : Word) : isNaN (negatePattern f) = isNaN f := by
  simp only [isNaN, floatExponent_eq, floatFraction_eq, magnitudeBits_negatePattern]

@[simp] theorem isInfinite_negatePattern (f : Word) : isInfinite (negatePattern f) = isInfinite f := by
  simp only [isInfinite, floatExponent_eq, floatFraction_eq, magnitudeBits_negatePattern]

@[simp] theorem negatePattern_infinity (x : Bool) : negatePattern (infinity x) = infinity !x := by cases x <;> rfl

/-! ### Each operation by the kinds of its operands -/

theorem floatAdd_nan (h : IsNaN a ∨ IsNaN b) : floatAdd a b = freeNaN .add a b := by
  rw [← isNaN_iff, ← isNaN_iff, ← Bool.or_eq_true] at h
  rw [floatAdd, addPatterns, if_pos h]

theorem floatSub_nan (h : IsNaN a ∨ IsNaN b) : floatSub a b = freeNaN .sub a b := by
  rw [← isNaN_iff, ← isNaN_iff, ← Bool.or_eq_true] at h
  rw [floatSub, addPatterns, isNaN_negatePattern, if_pos h]

theorem floatMul_nan (h : IsNaN a ∨ IsNaN b) : floatMul a b = freeNaN .mul a b := by
  rw [← isNaN_iff, ← isNaN_iff, ← Bool.or_eq_true] at h
  rw [floatMul, if_pos h]

theorem floatDiv_nan (h : IsNaN a ∨ IsNaN b) : floatDiv a b = freeNaN .div a b := by
  rw [← isNaN_iff, ← isNaN_iff, ← Bool.or_eq_true] at h
  rw [floatDiv, if_pos h]

theorem addPatterns_infinity_left (nan : Word) (x : Bool) (h : isNaN b = false) : addPatterns nan (infinity x) b =
    if isInfinite b && x != floatSign b then nan else infinity x := by
  simp [addPatterns, h]

theorem addPatterns_infinity_right (nan : Word) (x : Bool) (h : IsFinite a) :
    addPatterns nan a (infinity x) = infinity x := by
  simp [addPatterns, h.isNaN, h.isInfinite]

theorem floatMul_infinity_left (x : Bool) (h : isNaN b = false) : floatMul (infinity x) b =
    if isZero b then freeNaN .mul (infinity x) b else infinity (x != floatSign b) := by
  simp [floatMul, h, productSign, infinity_eq (x != floatSign b)]

theorem floatMul_infinity_right (x : Bool) (h : isNaN a = false) : floatMul a (infinity x) =
    if isZero a then freeNaN .mul a (infinity x) else infinity (floatSign a != x) := by
  simp [floatMul, h, productSign, infinity_eq (floatSign a != x)]

theorem floatDiv_infinity_left (x : Bool) (h : isNaN b = false) : floatDiv (infinity x) b =
    if isInfinite b then freeNaN .div (infinity x) b else infinity (x != floatSign b) := by
  simp [floatDiv, h, productSign, infinity_eq (x != floatSign b)]

theorem floatDiv_infinity_right (x : Bool) (h : IsFinite a) : floatDiv a (infinity x) = zero (floatSign a != x) := by
  simp [floatDiv, h.isNaN, h.isInfinite, productSign, zero_eq (floatSign a != x)]

theorem floatDiv_zero_right (x : Bool) (ha : isNaN a = false) (hi : isInfinite a = false) : floatDiv a (zero x) =
    if isZero a then freeNaN .div a (zero x) else infinity (floatSign a != x) := by
  simp [floatDiv, ha, hi, productSign, infinity_eq (floatSign a != x)]

theorem floatAdd_finite (ha : IsFinite a) (hb : IsFinite b) : floatAdd a b = addFinite a b := by
  simp [floatAdd, addPatterns, ha.isNaN, ha.isInfinite, hb.isNaN, hb.isInfinite]

theorem floatSub_finite (ha : IsFinite a) (hb : IsFinite b) : floatSub a b = addFinite a (negatePattern b) := by
  simp [floatSub, addPatterns, ha.isNaN, ha.isInfinite, hb.isNaN, hb.isInfinite]

theorem floatMul_finite (ha : IsFinite a) (hb : IsFinite b) : floatMul a b =
    roundToFloat (productSign a b) (significand a * significand b) ((scale a + scale b : Nat) - 298) := by
  simp [floatMul, ha.isNaN, ha.isInfinite, hb.isNaN, hb.isInfinite]

theorem floatDiv_finite (ha : IsFinite a) (hb : IsFinite b) (hz : floatValue b ≠ 0) :
    floatDiv a b = divFinite a b := by
  simp [floatDiv, ha.isNaN, ha.isInfinite, hb.isNaN, hb.isInfinite, isZero_of_floatValue_ne_zero hz]

end

/-! ### Quiet NaNs -/

/-- Whatever sign and payload are chosen (U2, log 5). -/
theorem freeNaN_quiet (op : FloatOp) (a b : Word) : IsQuietNaN (freeNaN op a b) := by
  simp only [freeNaN]
  generalize Config.nanChoice op a b = c
  have ones : (0xFF : BitVec 8).toNat = 255 := rfl
  have top : (1 : BitVec 1).toNat = 1 := rfl
  constructor
  · simp only [BitVec.extractLsb'_toNat, Nat.shiftRight_eq_div_pow, toNat_append_eq_add, ones, top]
    omega
  · rw [BitVec.getLsbD_append, if_neg (lt_irrefl 22), BitVec.getLsbD_append]
    rfl

/-! ### Sums -/

theorem alignedSignificand_eq (f : Word) (common : ℕ) : (alignedSignificand f common : ℚ) =
    signFactor (floatSign f) * (significand f * 2 ^ (scale f - common)) := by
  unfold alignedSignificand signFactor
  split <;> simp

theorem floatValue_eq_aligned (f : Word) {common : ℕ} (h : common ≤ scale f) :
    floatValue f = alignedSignificand f common * 2 ^ (common - 149 : ℤ) := by
  rw [alignedSignificand_eq, floatValue_eq_zpow, ← zpow_natCast, Nat.cast_sub h, mul_assoc, mul_assoc,
    ← zpow_add₀ two_ne_zero, sub_add_sub_cancel]

theorem intCast_eq_signFactor (n : ℤ) : (n : ℚ) = signFactor (n < 0) * n.natAbs := by
  rw [Nat.cast_natAbs, Int.cast_abs]
  obtain neg | nonneg := lt_or_ge n 0
  · have : (n : ℚ) < 0 := by exact_mod_cast neg
    simp [signFactor, neg, abs_of_neg this]
  · have : (0 : ℚ) ≤ n := by exact_mod_cast nonneg
    simp [signFactor, not_lt.2 nonneg, abs_of_nonneg this]

theorem addFinite_roundsTo (a b : Word) : RoundsTo (floatValue a + floatValue b)
    (if floatValue a + floatValue b = 0 then floatSign a && floatSign b else floatValue a + floatValue b < 0)
    (addFinite a b) := by
  simp only [addFinite]
  set common := min (scale a) (scale b)
  set sum := alignedSignificand a common + alignedSignificand b common with hsum
  have unit : (0 : ℚ) < 2 ^ (common - 149 : ℤ) := by positivity
  have value : floatValue a + floatValue b = sum * 2 ^ (common - 149 : ℤ) := by
    rw [floatValue_eq_aligned a (min_le_left _ _), floatValue_eq_aligned b (min_le_right _ _), ← add_mul, hsum,
      Int.cast_add]
  rw [value]
  by_cases cancels : sum = 0
  · simpa [cancels] using withSign_zero_roundsTo (floatSign a && floatSign b)
  · have negative : (sum : ℚ) * 2 ^ (common - 149 : ℤ) < 0 ↔ sum < 0 := by
      rw [mul_neg_iff, Int.cast_lt_zero]
      simp [unit, unit.not_gt]
    have nonzero : (sum : ℚ) * 2 ^ (common - 149 : ℤ) ≠ 0 := mul_ne_zero (Int.cast_ne_zero.2 cancels) unit.ne'
    rw [if_neg nonzero, if_neg cancels, decide_eq_decide.2 negative, intCast_eq_signFactor, mul_assoc]
    exact roundToFloat_exact ..

/-! ### Products -/

theorem floatValue_mul (a b : Word) : floatValue a * floatValue b = signFactor (productSign a b) *
    ((significand a * significand b : ℕ) * 2 ^ ((scale a + scale b : ℕ) - 298 : ℤ)) := by
  have exponent : (scale a - 149 + (scale b - 149) : ℤ) = (scale a + scale b : ℕ) - 298 := by push_cast; ring
  rw [floatValue_eq_zpow, floatValue_eq_zpow, mul_mul_mul_comm, mul_mul_mul_comm (significand a : ℚ),
    ← zpow_add₀ two_ne_zero, signFactor_mul, productSign, exponent, Nat.cast_mul]

/-! ### Quotients -/

/-- A truncated quotient with one bit more for the remainder stands for the quotient. -/
theorem quotient_standsFor {n d : ℕ} (hd : 0 < d) (hn : n = 0 ∨ 2 ^ 25 * d ≤ n) :
    StandsFor (2 * (n / d) + if n % d = 0 then 0 else 1) (2 * n / d) := by
  have parts : (d * (n / d : ℕ) + (n % d : ℕ) : ℚ) = n := by exact_mod_cast Nat.div_add_mod n d
  have small : ((n % d : ℕ) : ℚ) < d := by exact_mod_cast Nat.mod_lt n hd
  have divisor : (0 : ℚ) < d := by exact_mod_cast hd
  split
  case isTrue exactly =>
    refine .inl ?_
    rw [div_eq_iff divisor.ne', ← parts, exactly]
    push_cast
    ring
  case isFalse inexact =>
    have large : 2 ^ 25 ≤ n / d := by
      rw [Nat.le_div_iff_mul_le hd]
      exact hn.resolve_left fun zero => inexact (by rw [zero, Nat.zero_mod])
    have rest : (0 : ℚ) < (n % d : ℕ) := by exact_mod_cast Nat.pos_of_ne_zero inexact
    refine .inr ⟨(Nat.le_log2 (by omega)).2 (by omega), by omega, ?_, ?_⟩
    · rw [lt_div_iff₀ divisor, ← parts]
      push_cast
      linarith
    · rw [div_lt_iff₀ divisor, ← parts]
      push_cast
      linarith

theorem floatValue_div (a b : Word) : floatValue a / floatValue b = signFactor (productSign a b) *
    (2 * (significand a * 2 ^ 50 : ℕ) / significand b * 2 ^ (scale a - scale b - 51 : ℤ)) := by
  have exponent : (2 : ℚ) ^ (scale a - 149 - (scale b - 149) : ℤ) = 2 ^ 51 * 2 ^ (scale a - scale b - 51 : ℤ) := by
    rw [← zpow_natCast, ← zpow_add₀ two_ne_zero]
    congr 1
    push_cast
    ring
  rw [floatValue_eq_zpow, floatValue_eq_zpow, mul_div_mul_comm, mul_div_mul_comm (significand a : ℚ), signFactor_div,
    ← zpow_sub₀ two_ne_zero, exponent, productSign]
  push_cast
  ring

theorem divFinite_roundsTo (a b : Word) (hb : floatValue b ≠ 0) :
    RoundsTo (floatValue a / floatValue b) (productSign a b) (divFinite a b) := by
  have divisor : 0 < significand b := Nat.pos_of_ne_zero fun zero => hb (floatValue_of_significand_zero zero)
  have bits : significand a * 2 ^ 50 = 0 ∨ 2 ^ 25 * significand b ≤ significand a * 2 ^ 50 := by
    have small := significand_lt b
    omega
  rw [floatValue_div]
  exact (quotient_standsFor divisor bits).roundToFloat_roundsTo ..

/-! ### Conversion -/

theorem truncateToward_floatValue (f : Word) : truncateToward (floatValue f) = truncatedInteger f := by
  have floor : ⌊(significand f * 2 ^ scale f / 2 ^ 149 : ℚ)⌋ = (significand f * 2 ^ scale f / 2 ^ 149 : ℕ) := by
    exact_mod_cast Rat.floor_natCast_div_natCast (significand f * 2 ^ scale f) (2 ^ 149)
  have size : (0 : ℚ) ≤ significand f * 2 ^ scale f / 2 ^ 149 := by positivity
  rw [floatValue_eq, truncatedInteger, ← floor, mul_div_assoc]
  generalize (significand f * 2 ^ scale f / 2 ^ 149 : ℚ) = x at *
  cases floatSign f
  case false => simp [truncateToward, signFactor, not_lt.2 size]
  case true =>
    have ceil : ⌈-x⌉ = -⌊x⌋ := Int.ceil_neg
    obtain pos | rfl := size.lt_or_eq
    · simp [truncateToward, signFactor, pos, ceil]
    · simp [truncateToward, signFactor]

/-- The pattern converts to an integer of 32 bits (R270). -/
def Convertible (f : Word) : Prop :=
  IsFinite f ∧ -(2 ^ 31) ≤ truncateToward (floatValue f) ∧ truncateToward (floatValue f) ≤ 2 ^ 31 - 1

theorem inRange_iff_convertible (f : Word) : (isFinite f && (-(2 ^ 31 : Int) ≤ truncatedInteger f &&
    truncatedInteger f ≤ 2 ^ 31 - 1)) = true ↔ Convertible f := by
  rw [Convertible, truncateToward_floatValue, ← isFinite_eq_true_iff]
  simp only [Bool.and_eq_true, decide_eq_true_iff]

theorem floatToInteger_convertible {f : Word} (h : Convertible f) :
    (floatToInteger f).toInt = truncateToward (floatValue f) := by
  rw [floatToInteger, if_pos ((inRange_iff_convertible f).2 h)]
  obtain ⟨-, lo, hi⟩ := h
  rw [truncateToward_floatValue] at *
  exact BitVec.toInt_ofInt_eq_self (by decide) lo (Int.lt_of_le_sub_one hi)

theorem floatToInteger_invalid {f : Word} (h : ¬ Convertible f) : floatToInteger f = Config.f2iInvalid f := by
  rw [floatToInteger, if_neg (mt (inRange_iff_convertible f).1 h)]

/-! ### The statements about the operations -/

/-- Settles O52, operation by operation: its equation for the kinds of its operands, and every NaN made is quiet. -/
theorem floatSpecialCases : Obligations.FloatSpecialCases := by
  refine fun a b => ⟨fun nan => ?nan, fun x y => ⟨?addInvalid, ?subInvalid, ?mulInvalid, ?mulInvalidSwapped, ?divInvalid,
    ?divZeros, ?add, ?sub, ?mul, fun finite => ⟨?addLeft, ?addRight, ?subLeft, ?subRight, ?divLeft, ?divRight,
      fun nonzero => ⟨?mulLeft, ?mulRight, ?divZero⟩⟩⟩⟩
  case nan =>
    rw [floatAdd_nan nan, floatSub_nan nan, floatMul_nan nan, floatDiv_nan nan]
    exact ⟨freeNaN_quiet .., freeNaN_quiet .., freeNaN_quiet .., freeNaN_quiet ..⟩
  case addInvalid | subInvalid => simp [floatAdd, floatSub, addPatterns_infinity_left, freeNaN_quiet]
  case mulInvalid => simp [floatMul_infinity_left, freeNaN_quiet]
  case mulInvalidSwapped => simp [floatMul_infinity_right, freeNaN_quiet]
  case divInvalid => simp [floatDiv_infinity_left, freeNaN_quiet]
  case divZeros => simp [floatDiv_zero_right, freeNaN_quiet]
  case add | sub => simp [floatAdd, floatSub, addPatterns_infinity_left]
  case mul => simp [floatMul_infinity_left]
  case addLeft | subLeft => simp [floatAdd, floatSub, addPatterns_infinity_left, finite.isNaN, finite.isInfinite]
  case addRight | subRight => simp [floatAdd, floatSub, addPatterns_infinity_right _ _ finite]
  case divLeft => simp [floatDiv_infinity_left, finite.isNaN, finite.isInfinite, floatSign]
  case divRight => exact floatDiv_infinity_right x finite
  case mulLeft => simp [floatMul_infinity_left, finite.isNaN, isZero_of_floatValue_ne_zero nonzero, floatSign]
  case mulRight => simp [floatMul_infinity_right, finite.isNaN, isZero_of_floatValue_ne_zero nonzero, floatSign]
  case divZero =>
    simp [floatDiv_zero_right, finite.isNaN, finite.isInfinite, isZero_of_floatValue_ne_zero nonzero, floatSign]

/-- Settles O53: each is an exact result rounded once; a difference is the sum with the subtrahend's sign inverted. -/
theorem floatSumsAndProductsAreCorrectlyRounded : Obligations.FloatSumsAndProductsAreCorrectlyRounded := by
  intro a b ha hb
  rw [floatAdd_finite ha hb, floatSub_finite ha hb, floatMul_finite ha hb]
  refine ⟨addFinite_roundsTo a b, ?difference, ?product⟩
  case difference =>
    have rounds := addFinite_roundsTo a (negatePattern b)
    rwa [floatValue_negatePattern, ← sub_eq_add_neg, floatSign_negatePattern] at rounds
  case product =>
    rw [floatValue_mul]
    exact roundToFloat_exact ..

/-- Settles O54: the bit kept for the remainder decides as the exact quotient would. -/
theorem floatQuotientsAreCorrectlyRounded : Obligations.FloatQuotientsAreCorrectlyRounded := by
  intro a b ha hb hz
  rw [floatDiv_finite ha hb hz]
  exact divFinite_roundsTo a b hz

end Sys2Proof.Machine

/-! ## Register loads and arithmetic instructions (R245 to R271) -/

namespace Sys2Proof.Machine

section

variable {i : Instr} {d : Reg} {s : State}

/-! ### A result in a register -/

/-- An instruction with an integer result writes its destination and advances one line. -/
theorem integerResult_effect {v : Word} (h : exec i s = integerResult d v s) :
    ∃ t, exec i s = .next t ∧ t = { s with ireg := t.ireg, pc := s.pc + 8, rem := s.rem - 8 } ∧
      t.ireg.get d = v ∧ ∀ k, k ≠ d → t.ireg.get k = s.ireg.get k := by
  refine ⟨_, h, rfl, ?_, fun k hk => ?_⟩
  · rw [advance_ireg, setIreg_ireg, get_set_register, if_pos rfl]
  · rw [advance_ireg, setIreg_ireg, get_set_register, if_neg hk]

/-- An instruction with a float result writes its destination and advances one line. -/
theorem floatResult_effect {v : Word} (h : exec i s = floatResult d v s) :
    ∃ t, exec i s = .next t ∧ t = { s with freg := t.freg, pc := s.pc + 8, rem := s.rem - 8 } ∧
      t.freg.get d = v ∧ ∀ k, k ≠ d → t.freg.get k = s.freg.get k := by
  refine ⟨_, h, rfl, ?_, fun k hk => ?_⟩
  · rw [advance_freg, setFreg_freg, get_set_register, if_pos rfl]
  · rw [advance_freg, setFreg_freg, get_set_register, if_neg hk]

/-- The result as an unsigned number. -/
theorem integerResult_number {v : Word} {n : ℕ} (h : exec i s = integerResult d v s) (hv : v.toNat = n) :
    ∃ t, exec i s = .next t ∧ t = { s with ireg := t.ireg, pc := s.pc + 8, rem := s.rem - 8 } ∧
      (t.ireg.get d).toNat = n ∧ ∀ k, k ≠ d → t.ireg.get k = s.ireg.get k := by
  obtain ⟨t, ht, frame, result, others⟩ := integerResult_effect h
  exact ⟨t, ht, frame, by rw [result, hv], others⟩

/-- The quotient, or the free value for a zero divisor (R253, U1, log 4). -/
theorem integerResult_quotient {v : Word} (h : exec i s = integerResult d (divideUnsigned (s.ireg.get d) v) s) :
    ∃ t, exec i s = .next t ∧ t = { s with ireg := t.ireg, pc := s.pc + 8, rem := s.rem - 8 } ∧
      (v ≠ 0 → (t.ireg.get d).toNat = (s.ireg.get d).toNat / v.toNat) ∧
      (v = 0 → t.ireg.get d = Config.intDivZero (s.ireg.get d)) ∧ ∀ k, k ≠ d → t.ireg.get k = s.ireg.get k := by
  obtain ⟨t, ht, frame, result, others⟩ := integerResult_effect h
  refine ⟨t, ht, frame, fun nonzero => ?_, fun zero => ?_, others⟩
  · rw [result, divideUnsigned, if_neg nonzero, BitVec.toNat_udiv]
  · rw [result, divideUnsigned, if_pos zero]

/-- A difference in the order of R255. -/
theorem toNat_sub_eq (a b : Word) : (a - b).toNat = (a.toNat + 2 ^ 32 - b.toNat) % 2 ^ 32 := by
  rw [BitVec.toNat_sub]
  congr 1
  omega

end

/-! ### A read -/

/-- Whoever answers, a read has the size asked for (R65). -/
theorem memRead_lt (sz : ValueSize) (a : Word) (s : State) : (memRead sz a s).1.toNat < 2 ^ (8 * sz.bytes) := by
  have cut (v : Word) : (truncate sz v).toNat < 2 ^ (8 * sz.bytes) := by
    rw [toNat_truncate]
    exact Nat.mod_lt _ (by positivity)
  cases enabled : s.accessEnable
  case false =>
    rw [memRead_disabled sz a enabled]
    exact cut _
  case true =>
    rw [memRead_enabled sz a enabled, Foreign.answerRead]
    split
    · exact (readSized_holds s.foreign.mem _ sz a).1
    · split <;> exact cut _

/-! ### The statements -/

/-- Settles O55: the conversion is the truncated number where it fits, and the result of an integer instruction. -/
theorem floatToIntegerTruncates : Obligations.FloatToIntegerTruncates := by
  intro d r s
  obtain ⟨t, ht, frame, result, others⟩ : ∃ t, exec (.f2i d r) s = .next t ∧ _ := integerResult_effect rfl
  refine ⟨t, ht, frame, others, fun finite lo hi => ?_, fun invalid => ?_⟩
  · rw [result, floatToInteger_convertible ⟨finite, lo, hi⟩]
  · rw [result, floatToInteger_invalid invalid]

/-- Settles O48: behind the gate one read, and the register takes its value. -/
theorem registerLoads : Obligations.RegisterLoads := by
  refine ⟨fun p sz r addr s h => ⟨memRead_lt .., ?integer⟩, fun p r addr s h => ?float⟩
  case integer =>
    have loads : exec (.ldi p sz r addr) s = .next (advance 8 (setIreg r _ _)) :=
      congrArg Host.Outcome.next (advance_of_gate_open h ..)
    rw [loads, advance_line, setIreg]
    simp
  case float =>
    have loads : exec (.ldf p r addr) s = .next (advance 8 (setFreg r _ _)) :=
      congrArg Host.Outcome.next (advance_of_gate_open h ..)
    rw [loads, advance_line, setFreg]
    simp

/-- Settles O49: words are added, subtracted and multiplied as numbers modulo 2^32. -/
theorem integerArithmeticIsModular : Obligations.IntegerArithmeticIsModular := by
  intro d r v s
  simp only [List.forall_mem_cons, List.not_mem_nil, false_implies, implies_true, and_true]
  exact ⟨integerResult_number rfl (BitVec.toNat_add ..), integerResult_number rfl (toNat_sub_eq ..),
    integerResult_number rfl (BitVec.toNat_mul ..), integerResult_number rfl (BitVec.toNat_add ..),
    integerResult_number rfl (toNat_sub_eq ..), integerResult_number rfl (BitVec.toNat_mul ..)⟩

/-- Settles O50, for both kinds of divisor operand. -/
theorem integerDivisionTruncates : Obligations.IntegerDivisionTruncates := by
  intro d r v s
  simp only [List.forall_mem_cons, List.not_mem_nil, false_implies, implies_true, and_true]
  exact ⟨integerResult_quotient rfl, integerResult_quotient rfl⟩

/-- Settles O51: all eight are a float result of the old destination and the second operand. -/
theorem floatInstructionsWriteTheirResult : Obligations.FloatInstructionsWriteTheirResult := by
  intro d r v s
  simp only [List.forall_mem_cons, List.not_mem_nil, false_implies, implies_true, and_true]
  exact ⟨floatResult_effect rfl, floatResult_effect rfl, floatResult_effect rfl, floatResult_effect rfl,
    floatResult_effect rfl, floatResult_effect rfl, floatResult_effect rfl, floatResult_effect rfl⟩

end Sys2Proof.Machine

/-! ## The pointer instructions (R280 to R283) -/

namespace Sys2Proof.Machine

section

variable {p : PointerMode} {s : State} {addr lower upper : Word}

/-! ### One equation per instruction -/

/-- LoadPointer behind an open gate reads one word and keeps it between the bounds (R281). -/
theorem exec_ldptr_of_gate_open (h : GateOpen p s) :
    exec (.ldptr p addr lower upper) s = .next (advance 16 (setLoadedPointer
      (if lower ≤ (memRead .word (effectiveAddress p addr s) s).1 ∧
          (memRead .word (effectiveAddress p addr s) s).1 ≤ upper
        then (memRead .word (effectiveAddress p addr s) s).1 else 0)
      (memRead .word (effectiveAddress p addr s) s).2)) :=
  congrArg Host.Outcome.next (advance_of_gate_open h ..)

theorem exec_ldptrd (addr : Word) (s : State) :
    exec (.ldptrd addr) s = .next (advance 8 (setLoadedPointer addr s)) := rfl

theorem exec_addptr (off : Word) (s : State) :
    exec (.addptr off) s = .next (advance 8 (setLoadedPointer (s.loadedPointer + off) s)) := rfl

/-! ### The pointer and the cursor -/

/-- After a pointer is set and lines are taken, nothing else has changed. -/
theorem advance_setLoadedPointer (n : Nat) (v : Word) (s : State) :
    advance n (setLoadedPointer v s) =
      { s with loadedPointer := v, pc := s.pc + BitVec.ofNat 32 n, rem := s.rem - BitVec.ofNat 32 n } := rfl

/-- Addition modulo 2^32 does not see whether the offset is read as signed: the readings differ by 0 or 2^32 (R283). -/
theorem toNat_add_signed (a off : Word) : ((a + off).toNat : Int) = ((a.toNat : Int) + off.toInt) % 2 ^ 32 := by
  rw [BitVec.toNat_add, BitVec.toInt_eq_toNat_cond]
  split
  case isTrue nonnegative => omega
  case isFalse negative => omega

end

/-! ### The statement -/

/-- Settles O56: each instruction sets the pointer and takes its lines; LoadPointer's read moves no cursor. -/
theorem pointerInstructions : Obligations.PointerInstructions := by
  refine ⟨fun p addr lower upper s h => ⟨_, exec_ldptr_of_gate_open h, ?frame, ?bounds⟩, fun addr s => ?direct,
    fun off s => ⟨_, exec_addptr off s, rfl, toNat_add_signed s.loadedPointer off⟩⟩
  case frame =>
    rw [advance_setLoadedPointer, memRead_pc, memRead_rem]
    rfl
  case bounds =>
    rintro v rfl
    rw [advance_loadedPointer, setLoadedPointer_loadedPointer]
    exact ⟨fun within => if_pos within, fun outside => if_neg outside⟩
  case direct => rw [exec_ldptrd, advance_line, setLoadedPointer]

end Sys2Proof.Machine

/-! ## External calls (R290 to R294) -/

namespace Sys2Proof.Machine

section

variable {i : Instr} {s t u : State} {x : Transaction}

/-! ### One equation per instruction -/

theorem exec_execasm_of_gate_open (payload : List Byte) (h : GateOpen .noPointer s) :
    exec (.execasm payload) s =
      .next (advance (8 + payload.length) (callPort (fun _ => .execRaw payload) s).2) :=
  congrArg Host.Outcome.next (advance_of_gate_open h ..)

theorem exec_syscall_of_gate_open (code : HalfWord) (h : GateOpen .noPointer s) :
    exec (.syscall code) s = .next (advance 8 (callPort (fun _ => .sysCall code) s).2) :=
  congrArg Host.Outcome.next (advance_of_gate_open h ..)

/-- ProcedureCall behind an open gate writes the low half of the return, then the high half (R293). -/
theorem exec_call_of_gate_open (rlo rhi : Reg) (target : Word) (args : List Word) (h : GateOpen .noPointer s) :
    exec (.call rlo rhi target args) s = .next (advance (8 + argBytes args.length)
      (setIreg rhi ((nextReturn s).extractLsb' 32 32) (setIreg rlo ((nextReturn s).extractLsb' 0 32)
        (callPort (fun ret => .foreignCall target (callArguments args) args.length ret) s).2))) := by
  rw [← callPort_fst (fun ret => .foreignCall target (callArguments args) args.length ret) s]
  exact congrArg Host.Outcome.next (advance_of_gate_open h ..)

/-! ### One call transaction -/

/-- The effect of a call is on the foreign system: what is written to the block afterwards does not enter it. -/
theorem CallEffect.of_foreign_eq (h : CallEffect x s t) (same : u.foreign = t.foreign) : CallEffect x s u := by
  unfold CallEffect State.foreignByte at h ⊢
  rwa [same]

/-- An instruction that issues one call transaction and drops the return moves the cursor and nothing else of the
block (R291, R292). -/
theorem callOnly_effect {n : Nat} (h : exec i s = .next (advance n (callPort (fun _ => x) s).2)) :
    ∃ t, exec i s = .next t ∧
      t = { s with pc := s.pc + BitVec.ofNat 32 n, rem := s.rem - BitVec.ofNat 32 n, foreign := t.foreign } ∧
      CallEffect x s t :=
  ⟨_, h, rfl, (callPort_effect (fun _ => x) s).of_foreign_eq (advance_foreign ..)⟩

/-! ### The argument slots and the halves of the return (R293) -/

theorem length_callArguments {args : List Word} (h : args.length ≤ 8) : (callArguments args).length = 8 := by
  rw [callArguments, List.length_append, List.length_replicate, Nat.add_sub_cancel' h]

/-- The supplied arguments in their order, and zero in every other slot. -/
theorem getD_callArguments (args : List Word) (k : Nat) : (callArguments args).getD k 0 = args.getD k 0 := by
  unfold callArguments
  rcases Nat.lt_or_ge k args.length with supplied | unsupplied
  · rw [List.getD_append _ _ _ _ supplied]
  · rw [List.getD_append_right _ _ _ _ unsupplied, List.getD_eq_default _ _ unsupplied,
      List.getD_eq_getElem?_getD, List.getElem?_getD_replicate_default_eq]

theorem toNat_highWord (ret : BitVec 64) : (ret.extractLsb' 32 32).toNat = ret.toNat / 2 ^ 32 := by
  rw [BitVec.extractLsb'_toNat, Nat.shiftRight_eq_div_pow]
  omega

theorem toNat_lowWord (ret : BitVec 64) : (ret.extractLsb' 0 32).toNat = ret.toNat % 2 ^ 32 := by
  rw [BitVec.extractLsb'_toNat, Nat.shiftRight_zero]

/-- Two registers written one after the other: the second write stands where both name one register. -/
theorem get_setIreg_setIreg (rlo rhi k : Reg) (low high : Word) (s : State) :
    (setIreg rhi high (setIreg rlo low s)).ireg.get k =
      if k = rhi then high else if k = rlo then low else s.ireg.get k := by
  rw [setIreg_ireg, get_set_register, setIreg_ireg, get_set_register]

end

/-! ### The statements -/

/-- Settles O57: both issue one transaction whose return is dropped. -/
theorem rawExecutionAndSystemCall : Obligations.RawExecutionAndSystemCall :=
  ⟨fun payload _ h => callOnly_effect (exec_execasm_of_gate_open payload h),
    fun code _ h => callOnly_effect (exec_syscall_of_gate_open code h)⟩

/-- Settles O58: the eight slots are `callArguments`, and the high half is the second of two register writes. -/
theorem procedureCallSplitsItsReturn : Obligations.ProcedureCallSplitsItsReturn := by
  intro rlo rhi target args s count h
  refine ⟨_, callArguments args, exec_call_of_gate_open rlo rhi target args h, length_callArguments count,
    fun k _ => getD_callArguments args k, rfl, (callPort_effect _ s).of_foreign_eq rfl, ?high, fun distinct => ?low,
    fun k other_low other_high => ?others⟩
  all_goals rw [advance_ireg, get_setIreg_setIreg]
  case high => rw [if_pos rfl, toNat_highWord]
  case low => rw [if_neg distinct, if_pos rfl, toNat_lowWord]
  case others => rw [if_neg other_high, if_neg other_low, callPort_ireg]

end Sys2Proof.Machine

/-! ## A misaligned length (R163, R321) -/

namespace Sys2Proof.Machine

/-- Settles O17: the check finds the bad length before anything is fetched. -/
theorem misalignedLengthIsFatal : Obligations.MisalignedLengthIsFatal := by
  intro s hh hr hw h8
  have h0 : s.rem ≠ 0 := fun e => h8 (by rw [e]; rfl)
  refine ⟨?_, rfl⟩
  rw [step_of_no_event hh, ← raiseFatal_eq]
  simp only [blockStep, hr, fetchInstruction_badLength h0 hw h8]

end Sys2Proof.Machine

/-! ## The search (R305 to R312) -/

namespace Sys2Proof.Machine

/-- `t` differs from `s` in what reads of the foreign port may change: the answers used up and the log (R62). -/
def OnlyReads (s t : State) : Prop :=
  t = { s with
    foreign.readAnswers := t.foreign.readAnswers
    foreign.draws := t.foreign.draws
    foreign.log := t.foreign.log }

/-- The state after transactions that only the log shows, the first one first (log 13). -/
def logReads (reads : List Transaction) (s : State) : State :=
  { s with foreign.log := reads.reverse ++ s.foreign.log }

/-- The reads of `n` candidates from `start` upward under the reference memory, in order (R308). -/
def searchReads (template : List Byte) (s : State) (start n : Nat) : List Transaction :=
  (List.range n).flatMap fun i => candidateReads template s (BitVec.ofNat 32 (start + i))

/-- `a` is a candidate at which the template stands (R307). -/
def IsMatch (startHi endHi : HalfWord) (template : List Byte) (s : State) (a : Nat) : Prop :=
  Candidate startHi endHi template a ∧ TemplateAt template s (BitVec.ofNat 32 a)

section

variable {s t u : State} {order : ByteOrder} {template : List Byte} {sh eh : HalfWord}

/-! ### What a search leaves alone -/

theorem OnlyReads.refl (s : State) : OnlyReads s s := rfl

theorem OnlyReads.trans (h1 : OnlyReads s t) (h2 : OnlyReads t u) : OnlyReads s u := by
  unfold OnlyReads at *
  rw [h2, h1]

theorem answerRead_reads (f : Foreign) (sz : ValueSize) (a : Word) :
    (f.answerRead sz a).2 = { f with
      readAnswers := (f.answerRead sz a).2.readAnswers
      draws := (f.answerRead sz a).2.draws } := by
  unfold Foreign.answerRead
  split
  · rfl
  · split <;> rfl

theorem memRead_onlyReads (sz : ValueSize) (a : Word) (s : State) : OnlyReads s (memRead sz a s).2 := by
  cases h : s.accessEnable with
  | false => rw [memRead_disabled sz a h]; exact .refl s
  | true =>
    rw [memRead_enabled sz a h]
    unfold OnlyReads
    dsimp only
    rw [answerRead_reads]
    rfl

theorem matchTemplate_onlyReads (template : List Byte) (a : Word) (s : State) :
    OnlyReads s (matchTemplate template a s).2 := by
  induction template generalizing a s with
  | nil => exact .refl s
  | cons b bs ih =>
    rw [matchTemplate]
    split
    · exact (memRead_onlyReads ..).trans (ih ..)
    · exact memRead_onlyReads ..

theorem searchLoop_onlyReads (template : List Byte) (n : Nat) (a : Word) (k : Nat) (s : State) :
    OnlyReads s (searchLoop template n a k s).2 := by
  induction n generalizing a k s with
  | zero => exact .refl s
  | succ n ih =>
    have visit := matchTemplate_onlyReads template a s
    rw [searchLoop]
    split
    · split
      · exact visit
      · exact visit.trans (ih ..)
    · exact visit.trans (ih ..)

/-- With accesses enabled the search is the loop over the candidates of R307. -/
theorem searchTemplate_enabled (h : s.accessEnable = true) (x sh eh : HalfWord) (template : List Byte) :
    searchTemplate x sh eh template s =
      searchLoop template (eh.toNat * 65536 + 1 - (sh.toNat * 65536 + template.length))
        (BitVec.ofNat 32 (sh.toNat * 65536)) x.toNat s := by
  have start : highHalf sh = BitVec.ofNat 32 (sh.toNat * 65536) := by
    rw [← toNat_highHalf, BitVec.ofNat_toNat, BitVec.setWidth_eq]
  rw [searchTemplate, if_pos (gate_of_open (p := .noPointer) ⟨h, fun e => nomatch e⟩), candidateCount,
    toNat_highHalf, toNat_highHalf, start]

theorem searchTemplate_onlyReads (x sh eh : HalfWord) (template : List Byte) (s : State) :
    OnlyReads s (searchTemplate x sh eh template s).2 := by
  cases h : s.accessEnable with
  | false => rw [searchTemplate_disabled h]; exact .refl s
  | true => rw [searchTemplate_enabled h]; exact searchLoop_onlyReads ..

/-- What SearchTemplate leaves alone: all but the stream, the length and what reads change (R311). -/
theorem OnlyReads.rewriteStream (h : OnlyReads s t) (found : Word) (pad : Nat) :
    Machine.rewriteStream found pad t = { s with
      stream := (Machine.rewriteStream found pad t).stream
      rem := s.rem - BitVec.ofNat 32 pad
      foreign.readAnswers := t.foreign.readAnswers
      foreign.draws := t.foreign.draws
      foreign.log := t.foreign.log } := by
  rw [h]
  rfl

/-! ### Reads that only the log shows -/

theorem logReads_logReads (reads more : List Transaction) (s : State) :
    logReads more (logReads reads s) = logReads (reads ++ more) s := by
  simp only [logReads, List.reverse_append, List.append_assoc]

@[simp] theorem candidateReads_logReads (template : List Byte) (a : Word) (reads : List Transaction) (s : State) :
    candidateReads template (logReads reads s) a = candidateReads template s a := rfl

@[simp] theorem searchReads_logReads (template : List Byte) (start n : Nat) (reads : List Transaction) (s : State) :
    searchReads template (logReads reads s) start n = searchReads template s start n := rfl

theorem searchReads_succ (template : List Byte) (s : State) (start n : Nat) :
    searchReads template s start (n + 1) =
      candidateReads template s (BitVec.ofNat 32 start) ++ searchReads template s (start + 1) n := by
  simp only [searchReads, List.range_succ_eq_map, List.flatMap_cons, List.flatMap_map, Nat.add_zero,
    Nat.succ_eq_add_one, Nat.add_assoc, Nat.add_comm 1]

/-! ### One candidate under the reference memory (R308) -/

theorem readSized_byte (order : ByteOrder) (a : Word) (s : State) :
    s.foreign.mem.readSized order .byte a = (s.foreignByte a).setWidth 32 := by
  have one : arrange order [s.foreignByte a] = [s.foreignByte a] := by cases order <;> rfl
  apply BitVec.eq_of_toNat_eq
  rw [BitVec.toNat_setWidth_of_le (by decide), ← toNat_valueOfBytes_one, ← one]
  rfl

theorem comparedBytes_cons (b : Byte) (bs : List Byte) (a : Word) (s : State) :
    comparedBytes (b :: bs) s a = if s.foreignByte a = b then comparedBytes bs s (a + 1) + 1 else 1 := by
  have first : (s.foreignByte (offset a 0) != (b :: bs).getD 0 0) = (s.foreignByte a != b) := by
    rw [offset_zero, List.getD_cons_zero]
  unfold comparedBytes
  rw [List.length_cons, List.range_succ_eq_map, List.findIdx_cons, first]
  by_cases equal : s.foreignByte a = b
  · simp only [equal, bne_self_eq_false, cond_false, if_true, List.findIdx_map, Function.comp_def, offset_succ,
      Nat.succ_eq_add_one, List.getD_cons_succ]
    omega
  · simp only [bne_iff_ne.2 equal, cond_true, if_neg equal]
    omega

/-- The first byte is read in any case, the others only when it is equal. -/
theorem candidateReads_cons (b : Byte) (bs : List Byte) (a : Word) (s : State) :
    candidateReads (b :: bs) s a = .read a .byte ((s.foreignByte a).setWidth 32) ::
      if s.foreignByte a = b then candidateReads bs s (a + 1) else [] := by
  unfold candidateReads
  rw [comparedBytes_cons]
  split
  · simp only [List.range_succ_eq_map, List.map_cons, List.map_map, Function.comp_def, offset_zero, offset_succ]
  · simp only [List.range_one, List.map_cons, List.map_nil, offset_zero]

/-- A candidate is read up to the first mismatch, and nothing but the log changes. -/
theorem matchTemplate_reference (template : List Byte) (a : Word) (h : s.accessEnable = true)
    (ho : s.foreign.collaborator = .reference order) :
    (matchTemplate template a s).2 = logReads (candidateReads template s a) s := by
  induction template generalizing a s with
  | nil => rfl
  | cons b bs ih =>
    have same : (s.foreignByte a).setWidth 32 = b.setWidth 32 ↔ s.foreignByte a = b :=
      ⟨fun e => by simpa using congrArg (BitVec.setWidth 8) e, fun e => by rw [e]⟩
    have read : memRead .byte a s = ((s.foreignByte a).setWidth 32,
        logReads [.read a .byte ((s.foreignByte a).setWidth 32)] s) := by
      rw [memRead_reference .byte a h ho, readSized_byte]
      rfl
    rw [matchTemplate, read, candidateReads_cons]
    dsimp only
    by_cases equal : s.foreignByte a = b
    · rw [if_pos (same.2 equal), if_pos equal, ih (s := logReads _ s) (a + 1) h ho, candidateReads_logReads,
        logReads_logReads]
      rfl
    · rw [if_neg (mt same.1 equal), if_neg equal]

/-! ### The matches of the search, counted from below (R307) -/

theorem nthMatch_iff [DecidablePred (IsMatch sh eh template s)] (n a : Nat) :
    NthMatch sh eh template s n a ↔ IsMatch sh eh template s a ∧ Nat.count (IsMatch sh eh template s) a = n := by
  have below (b : Nat) : b ∈ (Finset.range a).filter (IsMatch sh eh template s) ↔
      b < a ∧ Candidate sh eh template b ∧ TemplateAt template s (BitVec.ofNat 32 b) := by
    rw [Finset.mem_filter, Finset.mem_range, IsMatch]
  rw [Nat.count_eq_card_filter_range]
  constructor
  · rintro ⟨candidate, stands, earlier, card, mem⟩
    have same : earlier = (Finset.range a).filter (IsMatch sh eh template s) :=
      Finset.ext fun b => (mem b).trans (below b).symm
    exact ⟨⟨candidate, stands⟩, same ▸ card⟩
  · rintro ⟨⟨candidate, stands⟩, card⟩
    exact ⟨candidate, stands, _, card, below⟩

/-- Below the range of the search nothing matches. -/
theorem count_isMatch_start [DecidablePred (IsMatch sh eh template s)] :
    Nat.count (IsMatch sh eh template s) (sh.toNat * 65536) = 0 :=
  Nat.count_of_forall_not fun _ below ⟨⟨above, _⟩, _⟩ => absurd below (not_lt.2 above)

end

/-! ### The scan under the reference memory (R307, R308) -/

/-- Of the addresses from `start` on, `P` holds of those among the next `n` at which the template stands. -/
def MatchesAmong (P : Nat → Prop) (template : List Byte) (s : State) (start n : Nat) : Prop :=
  ∀ a, start ≤ a → (P a ↔ a < start + n ∧ TemplateAt template s (BitVec.ofNat 32 a))

section

variable {s : State} {order : ByteOrder} {template : List Byte} {P : Nat → Prop} {start n k index a : Nat}

theorem MatchesAmong.succ (hP : MatchesAmong P template s start (n + 1)) :
    MatchesAmong P template s (start + 1) n := fun a ha => by
  rw [hP a (by omega), Nat.add_right_comm, Nat.add_assoc]

/-- The candidates of R307 are as many addresses from `start` on as the search visits. -/
theorem matchesAmong_isMatch (sh eh : HalfWord) (template : List Byte) (s : State) :
    MatchesAmong (IsMatch sh eh template s) template s (sh.toNat * 65536)
      (eh.toNat * 65536 + 1 - (sh.toNat * 65536 + template.length)) := fun a ha => by
  have inside : Candidate sh eh template a ↔
      a < sh.toNat * 65536 + (eh.toNat * 65536 + 1 - (sh.toNat * 65536 + template.length)) := by
    unfold Candidate
    omega
  rw [IsMatch, inside]

/-- The reads of the first candidate tell whether it matches. -/
theorem MatchesAmong.hit_iff (hP : MatchesAmong P template s start (n + 1)) (h : s.accessEnable = true)
    (ho : s.foreign.collaborator = .reference order) :
    (matchTemplate template (BitVec.ofNat 32 start) s).1 = true ↔ P start := by
  rw [matchTemplate_iff _ _ h ho, hP start le_rfl, and_iff_right (by omega)]

variable [DecidablePred P]

/-- The match with no more matches to pass over is found. -/
theorem searchLoop_hit (h : s.accessEnable = true) (ho : s.foreign.collaborator = .reference order)
    (hP : MatchesAmong P template s start (n + 1)) (hk : k + Nat.count P start = index)
    (found : P start ∧ Nat.count P start = index) :
    searchLoop template (n + 1) (BitVec.ofNat 32 start) k s =
      (BitVec.ofNat 32 start, logReads (candidateReads template s (BitVec.ofNat 32 start)) s) := by
  rw [searchLoop, matchTemplate_reference _ _ h ho, if_pos ((hP.hit_iff h ho).2 found.1), if_pos (by omega)]

/-- Any other candidate is passed over, and counted where it matches. -/
theorem searchLoop_pass (h : s.accessEnable = true) (ho : s.foreign.collaborator = .reference order)
    (hP : MatchesAmong P template s start (n + 1)) (hk : k + Nat.count P start = index)
    (other : ¬ (P start ∧ Nat.count P start = index)) :
    ∃ k', k' + Nat.count P (start + 1) = index ∧ searchLoop template (n + 1) (BitVec.ofNat 32 start) k s =
      searchLoop template n (BitVec.ofNat 32 (start + 1)) k'
        (logReads (candidateReads template s (BitVec.ofNat 32 start)) s) := by
  have hit_iff := hP.hit_iff h ho
  have next : BitVec.ofNat 32 start + 1 = BitVec.ofNat 32 (start + 1) := (BitVec.ofNat_add ..).symm
  rw [searchLoop, matchTemplate_reference _ _ h ho, next, Nat.count_succ]
  by_cases hit : P start
  · have left : k ≠ 0 := fun k0 => other ⟨hit, by omega⟩
    exact ⟨k - 1, by rw [if_pos hit]; omega, by rw [if_pos (hit_iff.2 hit), if_neg left]⟩
  · exact ⟨k, by rw [if_neg hit]; omega, by rw [if_neg (mt hit_iff.1 hit)]⟩

/-- The match with `index` matches below it is found, after the reads of the candidates up to it. -/
theorem searchLoop_found (h : s.accessEnable = true) (ho : s.foreign.collaborator = .reference order)
    (hP : MatchesAmong P template s start n) (hk : k + Nat.count P start = index) (ha : start ≤ a) (found : P a)
    (count : Nat.count P a = index) :
    searchLoop template n (BitVec.ofNat 32 start) k s =
      (BitVec.ofNat 32 a, logReads (searchReads template s start (a + 1 - start)) s) := by
  induction n generalizing start k s with
  | zero => exact absurd ((hP a ha).1 found).1 (not_lt.2 ha)
  | succ n ih =>
    by_cases here : P start ∧ Nat.count P start = index
    · obtain rfl : start = a := Nat.count_injective here.1 found (here.2.trans count.symm)
      rw [searchLoop_hit h ho hP hk here, Nat.add_sub_cancel_left, searchReads_succ, searchReads, List.range_zero,
        List.flatMap_nil, List.append_nil]
    · have later : start ≠ a := fun e => here (e ▸ ⟨found, count⟩)
      obtain ⟨k', hk', pass⟩ := searchLoop_pass h ho hP hk here
      rw [pass, ih (s := logReads _ s) h ho hP.succ hk' (by omega), searchReads_logReads, logReads_logReads,
        ← searchReads_succ, show a + 1 - (start + 1) + 1 = a + 1 - start by omega]

/-- With too few matches all candidates are read and 0 is found. -/
theorem searchLoop_exhausted (h : s.accessEnable = true) (ho : s.foreign.collaborator = .reference order)
    (hP : MatchesAmong P template s start n) (hk : k + Nat.count P start = index)
    (absent : ∀ a, ¬ (P a ∧ Nat.count P a = index)) :
    searchLoop template n (BitVec.ofNat 32 start) k s = (0, logReads (searchReads template s start n) s) := by
  induction n generalizing start k s with
  | zero => rfl
  | succ n ih =>
    obtain ⟨k', hk', pass⟩ := searchLoop_pass h ho hP hk (absent start)
    rw [pass, ih (s := logReads _ s) h ho hP.succ hk', searchReads_logReads, logReads_logReads, ← searchReads_succ]

end

section

variable {s : State} {order : ByteOrder} {template : List Byte} {x sh eh : HalfWord}

/-- The search under the reference memory: the match R307 asks for, and the reads up to it. -/
theorem searchTemplate_found (h : s.accessEnable = true) (ho : s.foreign.collaborator = .reference order) {a : Nat}
    (found : NthMatch sh eh template s x.toNat a) :
    searchTemplate x sh eh template s = (BitVec.ofNat 32 a,
      logReads (searchReads template s (sh.toNat * 65536) (a + 1 - sh.toNat * 65536)) s) := by
  classical
  obtain ⟨isMatch, count⟩ := (nthMatch_iff ..).1 found
  have ⟨⟨above, _⟩, _⟩ := isMatch
  rw [searchTemplate_enabled h]
  exact searchLoop_found h ho (matchesAmong_isMatch sh eh template s) (by rw [count_isMatch_start, Nat.add_zero])
    above isMatch count

/-- The search under the reference memory where R307's match does not exist: all candidates are read. -/
theorem searchTemplate_exhausted (h : s.accessEnable = true) (ho : s.foreign.collaborator = .reference order)
    (absent : ∀ a, ¬ NthMatch sh eh template s x.toNat a) :
    searchTemplate x sh eh template s = (0, logReads (searchReads template s (sh.toNat * 65536)
      (eh.toNat * 65536 + 1 - (sh.toNat * 65536 + template.length))) s) := by
  classical
  rw [searchTemplate_enabled h]
  exact searchLoop_exhausted h ho (matchesAmong_isMatch sh eh template s) (by rw [count_isMatch_start, Nat.add_zero])
    fun a found => absent a ((nthMatch_iff ..).2 found)

/-- The search whoever answers: the candidates it visits, and the series of their reads. -/
theorem searchTemplate_visits (h : s.accessEnable = true) (x sh eh : HalfWord) (template : List Byte) :
    ∃ visits, SearchVisits (sh.toNat * 65536) (eh.toNat * 65536 + 1 - (sh.toNat * 65536 + template.length)) template
        x.toNat (searchTemplate x sh eh template s).1 visits ∧
      ReadSeries (visits.flatMap (·.1)) s (searchTemplate x sh eh template s).2 := by
  rw [searchTemplate_enabled h]
  exact searchLoop_visits template _ (sh.toNat * 65536) x.toNat h

/-- The rewritten stream, seen from before the search. -/
theorem rewriteStream_search_byte (x sh eh : HalfWord) (fits : 8 + padded template.length ≤ s.rem.toNat) (i : Nat) :
    (rewriteStream (searchTemplate x sh eh template s).1 (padded template.length)
        (searchTemplate x sh eh template s).2).streamByte i =
      if s.pc.toNat ≤ i ∧ i < s.pc.toNat + 8 then
        (pointerLine s.params.opc (searchTemplate x sh eh template s).1).getD (i - s.pc.toNat) 0
      else if s.pc.toNat + 8 ≤ i ∧ i < s.pc.toNat + (s.rem.toNat - padded template.length) then
        s.streamByte (i + padded template.length)
      else s.streamByte i := by
  have bytes := rewriteStream_byte (searchTemplate x sh eh template s).1 (padded template.length)
    (searchTemplate x sh eh template s).2 (by rw [searchTemplate_rem]; exact fits) i
  simpa only [searchTemplate_pc, searchTemplate_rem, searchTemplate_params, State.streamByte, searchTemplate_stream]
    using bytes

end

/-! ### The statement -/

/-- Settles O59: the rewrite byte by byte, and the search by who answers it. -/
theorem searchRewritesTheStream : Obligations.SearchRewritesTheStream := by
  intro x sh eh template s fits
  refine ⟨_, (searchTemplate x sh eh template s).1, rfl, (searchTemplate_onlyReads ..).rewriteStream .., fun k hk => ?line,
    fun k above below => ?moved, fun i outside => ?kept, fun disabled => ?dry, fun enabled => ⟨?visits, fun order ho =>
    ⟨?reference, fun a found => ?found, fun absent => ?exhausted⟩⟩⟩
  case line =>
    rw [rewriteStream_search_byte x sh eh fits, if_pos (by omega), Nat.add_sub_cancel_left]
    rfl
  case moved =>
    rw [rewriteStream_search_byte x sh eh fits, if_neg (by omega), if_pos (by omega), Nat.add_right_comm]
  case kept => rw [rewriteStream_search_byte x sh eh fits, if_neg (by omega), if_neg (by omega)]
  case dry =>
    rw [searchTemplate_disabled disabled]
    exact ⟨rfl, rfl⟩
  case visits =>
    obtain ⟨visits, visited, series⟩ := searchTemplate_visits enabled x sh eh template
    exact ⟨visits, visited, series.log, series.arbitrary⟩
  case reference =>
    obtain ⟨_, _, series⟩ := searchTemplate_visits enabled x sh eh template
    exact series.reference order ho
  case found =>
    rw [searchTemplate_found enabled ho found]
    exact ⟨rfl, rfl⟩
  case exhausted =>
    rw [searchTemplate_exhausted enabled ho absent]
    exact ⟨rfl, rfl⟩

end Sys2Proof.Machine
